-- ==== Sys2Proof/Word.lean ====
section
/-! DEFINITION. The machine's units of data: a byte, a 16-bit word, and the name of a register. -/

namespace Sys2Proof

/-- One byte of memory (R28). -/
abbrev Byte := BitVec 8

/-- The 16-bit unit of a register cell and of an instruction (R10, R16 "Word", R20, R80). -/
abbrev Word := BitVec 16

/-- The index of one of the 32 register cells (R20). -/
abbrev Reg := Fin 32

end Sys2Proof
end

