-- ==== Sys2Proof/Config.lean ====
section
/-! DEFINITION. The implementation parameters the source fixes (R7). The parameters the source leaves open (R8) are in Machine/Params.lean, Machine/Flags.lean, Machine/Operands.lean and Decode.lean, at the spec's defaults. -/

namespace Sys2Proof.Config

/-- MEM_SIZE: the memory has 1024 bytes, addresses 0 to 1023 (R7, R28). -/
abbrev memSize : Nat := 1024

/-- The last address at which a word fits (R53). -/
abbrev lastWord : Nat := 1022

/-- CODE_BASE: the reset PC and the load address (R7). -/
abbrev codeBase : Nat := 128

/-- SP_RESET (R7). -/
abbrev spReset : Nat := 1022

/-- MAX_CODE_WORDS: the longest program that load accepts (R7, C2). -/
abbrev maxCodeWords : Nat := 256

/-- OUT_CAP: the output buffer keeps the most recent 128 characters (R7, R32). -/
abbrev outCap : Nat := 128

/-- STEP_LIMIT: the steps of one run (R7, R261). -/
abbrev stepLimit : Nat := 10000

/-- The range of an I-shape immediate, IMM_BITS = 5 (R7, R85). -/
abbrev immMin : Int := -16
/-- See `immMin`. -/
abbrev immMax : Int := 15

/-- The range of a J-shape offset, OFF_BITS = 10 (R7, R86). -/
abbrev offMin : Int := -512
/-- See `offMin`. -/
abbrev offMax : Int := 511

end Sys2Proof.Config
end

