-- ==== Sys2Proof/Syntax.lean ====
section
/-! DEFINITION. The instructions: one constructor for each of the 34 rows of the opcode table (R91), with the operands of its shape (R82 to R86). Immediates and offsets are the signed numbers the assembler writes; WellFormed.lean gives their ranges. -/

namespace Sys2Proof

/-- An instruction. `rd` is the field "dest" (bits 9-5), `rs` the field "src" (bits 4-0), R15. -/
inductive Instr where
  | halt
  /-- BREAK. -/
  | brk
  | not (rd : Reg)
  | push (rd : Reg)
  | pop (rd : Reg)
  | print (rd : Reg)
  | read (rd : Reg)
  | sl (rd rs : Reg)
  | sru (rd rs : Reg)
  | srs (rd rs : Reg)
  | mov (rd rs : Reg)
  | add (rd rs : Reg)
  | sub (rd rs : Reg)
  | and (rd rs : Reg)
  | or (rd rs : Reg)
  | xor (rd rs : Reg)
  | cmp (rd rs : Reg)
  | sw (rd rs : Reg)
  | lw (rd rs : Reg)
  | sb (rd rs : Reg)
  | movi (rd : Reg) (imm : Int)
  | addi (rd : Reg) (imm : Int)
  | subi (rd : Reg) (imm : Int)
  | andi (rd : Reg) (imm : Int)
  | ori (rd : Reg) (imm : Int)
  | xori (rd : Reg) (imm : Int)
  | jmp (off : Int)
  | jmpeq (off : Int)
  | jmpne (off : Int)
  | jmpgt (off : Int)
  | jmplt (off : Int)
  | jmpge (off : Int)
  | jmple (off : Int)
  | lb (rd rs : Reg)
  deriving DecidableEq, Repr

end Sys2Proof
end

