-- ==== Sys2Proof/WellFormed.lean ====
section
/-! DEFINITION. Which instructions have an encoding: the immediate and the offset are in the range of their fields (R85, R86, R87 "imm in [-16, 15]"). A register operand is in [0, 32) by its type (R22). -/

namespace Sys2Proof

/-- An I-shape immediate in [-16, 15] (R85). -/
def immInRange (imm : Int) : Bool := decide (Config.immMin ≤ imm) && decide (imm ≤ Config.immMax)

/-- A J-shape offset in [-512, 511] (R86). -/
def offInRange (off : Int) : Bool := decide (Config.offMin ≤ off) && decide (off ≤ Config.offMax)

/-- The operands of `i` fit the fields of its shape. -/
def Instr.wf (i : Instr) : Bool :=
  match i with
  | .halt | .brk => true
  | .not _ | .push _ | .pop _ | .print _ | .read _ => true
  | .sl _ _ | .sru _ _ | .srs _ _ | .mov _ _ | .add _ _ | .sub _ _ => true
  | .and _ _ | .or _ _ | .xor _ _ | .cmp _ _ => true
  | .sw _ _ | .lw _ _ | .sb _ _ | .lb _ _ => true
  | .movi _ imm | .addi _ imm | .subi _ imm | .andi _ imm | .ori _ imm | .xori _ imm => immInRange imm
  | .jmp off | .jmpeq off | .jmpne off | .jmpgt off | .jmplt off | .jmpge off | .jmple off => offInRange off

end Sys2Proof
end

