-- ==== Sys2Proof/Decode.lean ====
section
/-! DEFINITION. The opcode table (R91, R92), the decoder (R81, R93 to R96), and after it the encoder (R87). Both are written from one opcode map and one shape table, so that the two cannot disagree about them. -/

namespace Sys2Proof

/-! ## The opcode table -/

/-- The five instruction layouts (R82 to R86). -/
inductive Shape where
  | r0 | r1 | r2 | i | j
  deriving DecidableEq, Repr

/-- The 34 mnemonics (R91), in the order of the opcode table. -/
inductive Mnemonic where
  | halt | brk | not | push | pop | print | read | sl | sru | srs
  | mov | add | sub | and | or | xor | cmp | sw | lw | sb
  | movi | addi | subi | andi | ori | xori | jmp | jmpeq | jmpne | jmpgt
  | jmplt | jmpge | jmple | lb
  deriving DecidableEq, Repr

/-- The whole table's mnemonics. -/
def Mnemonic.all : List Mnemonic :=
  [.halt, .brk, .not, .push, .pop, .print, .read, .sl, .sru, .srs] ++
  [.mov, .add, .sub, .and, .or, .xor, .cmp, .sw, .lw, .sb] ++
  [.movi, .addi, .subi, .andi, .ori, .xori, .jmp, .jmpeq, .jmpne, .jmpgt] ++
  [.jmplt, .jmpge, .jmple, .lb]

/-- The mnemonic as the opcode table spells it (R91). -/
def Mnemonic.name (m : Mnemonic) : String :=
  match m with
  | .halt => "HALT"
  | .brk => "BREAK"
  | .not => "NOT"
  | .push => "PUSH"
  | .pop => "POP"
  | .print => "PRINT"
  | .read => "READ"
  | .sl => "SL"
  | .sru => "SRU"
  | .srs => "SRS"
  | .mov => "MOV"
  | .add => "ADD"
  | .sub => "SUB"
  | .and => "AND"
  | .or => "OR"
  | .xor => "XOR"
  | .cmp => "CMP"
  | .sw => "SW"
  | .lw => "LW"
  | .sb => "SB"
  | .movi => "MOVI"
  | .addi => "ADDI"
  | .subi => "SUBI"
  | .andi => "ANDI"
  | .ori => "ORI"
  | .xori => "XORI"
  | .jmp => "JMP"
  | .jmpeq => "JMPEQ"
  | .jmpne => "JMPNE"
  | .jmpgt => "JMPGT"
  | .jmplt => "JMPLT"
  | .jmpge => "JMPGE"
  | .jmple => "JMPLE"
  | .lb => "LB"

/-- The shape of each mnemonic (R91, D2). -/
def Mnemonic.shape (m : Mnemonic) : Shape :=
  match m with
  | .halt | .brk => .r0
  | .not | .push | .pop | .print | .read => .r1
  | .sl | .sru | .srs | .mov | .add | .sub | .and | .or | .xor | .cmp | .sw | .lw | .sb | .lb => .r2
  | .movi | .addi | .subi | .andi | .ori | .xori => .i
  | .jmp | .jmpeq | .jmpne | .jmpgt | .jmplt | .jmpge | .jmple => .j

/-- OPCODE_MAP at the spec's default (R92, D1). The source fixes HALT, MOVI and JMP only.
DESIGN CHOICE (log entry 1), unsafe: the map could have been left a parameter. -/
def Mnemonic.opcode (m : Mnemonic) : BitVec 6 :=
  match m with
  | .halt => 0x00
  | .brk => 0x01
  | .not => 0x02
  | .push => 0x03
  | .pop => 0x04
  | .print => 0x05
  | .read => 0x06
  | .sl => 0x07
  | .sru => 0x08
  | .srs => 0x09
  | .mov => 0x0A
  | .add => 0x0B
  | .sub => 0x0C
  | .and => 0x0D
  | .or => 0x0E
  | .xor => 0x0F
  | .cmp => 0x10
  | .sw => 0x11
  | .lw => 0x12
  | .sb => 0x13
  | .movi => 0x14
  | .addi => 0x15
  | .subi => 0x16
  | .andi => 0x17
  | .ori => 0x18
  | .xori => 0x19
  | .jmp => 0x1A
  | .jmpeq => 0x1B
  | .jmpne => 0x1C
  | .jmpgt => 0x1D
  | .jmplt => 0x1E
  | .jmpge => 0x1F
  | .jmple => 0x20
  | .lb => 0x21

/-- The mnemonic whose opcode is `op`, if one has it (R93, R96). -/
def Mnemonic.ofOpcode (op : BitVec 6) : Option Mnemonic :=
  Mnemonic.all.find? fun m => m.opcode == op

/-- The instruction a mnemonic makes of the operands of its shape; the operands its shape does not have are not used (R81, R95). -/
def Mnemonic.instr (m : Mnemonic) (rd rs : Reg) (imm off : Int) : Instr :=
  match m with
  | .halt => .halt
  | .brk => .brk
  | .not => .not rd
  | .push => .push rd
  | .pop => .pop rd
  | .print => .print rd
  | .read => .read rd
  | .sl => .sl rd rs
  | .sru => .sru rd rs
  | .srs => .srs rd rs
  | .mov => .mov rd rs
  | .add => .add rd rs
  | .sub => .sub rd rs
  | .and => .and rd rs
  | .or => .or rd rs
  | .xor => .xor rd rs
  | .cmp => .cmp rd rs
  | .sw => .sw rd rs
  | .lw => .lw rd rs
  | .sb => .sb rd rs
  | .movi => .movi rd imm
  | .addi => .addi rd imm
  | .subi => .subi rd imm
  | .andi => .andi rd imm
  | .ori => .ori rd imm
  | .xori => .xori rd imm
  | .jmp => .jmp off
  | .jmpeq => .jmpeq off
  | .jmpne => .jmpne off
  | .jmpgt => .jmpgt off
  | .jmplt => .jmplt off
  | .jmpge => .jmpge off
  | .jmple => .jmple off
  | .lb => .lb rd rs

/-! ## The decoder -/

/-- Why bytes are not an instruction. -/
inductive DecodeError where
  /-- Fewer than the two bytes of an instruction (R80). -/
  | truncated
  /-- `Illegal`: no mnemonic has this opcode (R94, R96). -/
  | unassignedOpcode (op : BitVec 6)
  deriving DecidableEq, Repr

/-- `op = w[15:10]` (R81). -/
def opField (w : Word) : BitVec 6 := w.extractLsb' 10 6

/-- `rd = w[9:5]` (R81). -/
def rdField (w : Word) : Reg := (w.extractLsb' 5 5).toFin

/-- `rs = w[4:0]` (R81). -/
def rsField (w : Word) : Reg := (w.extractLsb' 0 5).toFin

/-- `imm5 = w[4:0]`, read as two's complement (R81, R85). -/
def immField (w : Word) : Int := (w.extractLsb' 0 5).toInt

/-- `off10 = w[9:0]`, read as two's complement (R81, R86). -/
def offField (w : Word) : Int := (w.extractLsb' 0 10).toInt

/-- The instruction decoder (R96): a function of the fetched word alone, total on every word. -/
def decodeWord (w : Word) : Except DecodeError Instr :=
  match Mnemonic.ofOpcode (opField w) with
  | none => .error (.unassignedOpcode (opField w))
  | some m => .ok (m.instr (rdField w) (rsField w) (immField w) (offField w))

/-- The word of two bytes in memory order: big-endian (R51). -/
def wordOfBytes (hi lo : Byte) : Word := hi ++ lo

/-- The high byte of a word, which stands at the lower address (R51). -/
def highByte (w : Word) : Byte := w.extractLsb' 8 8

/-- The low byte of a word (R51). -/
def lowByte (w : Word) : Byte := w.extractLsb' 0 8

/-- The bytes of a word in memory order (R51). -/
def bytesOfWord (w : Word) : List Byte := [highByte w, lowByte w]

/-- Decoding from bytes in memory order: an instruction is always two bytes (R80); what follows is handed back. -/
def decodeBytes (bs : List Byte) : Except DecodeError (Instr × List Byte) :=
  match bs with
  | hi :: lo :: rest =>
    match decodeWord (wordOfBytes hi lo) with
    | .ok i => .ok (i, rest)
    | .error e => .error e
  | _ => .error .truncated

/-- The instruction word that the opcode table numbers `w` in `nbits` bits (bits above them are 0). -/
def tableWord (nbits w : Nat) : Word := BitVec.ofNat 16 (w % 2 ^ nbits)

/-- The instruction this decoder reads from an instruction whose bits are `w`, numbered as spec/opcode_table.json numbers them. -/
def decodeTableWord (nbits w : Nat) : Option Instr :=
  match decodeBytes (bytesOfWord (tableWord nbits w)) with
  | .ok (i, _) => some i
  | .error _ => none

/-! ## The encoder -/

/-- The opcode in bits 15-10: `op << 10` (R87). -/
def packR0 (op : BitVec 6) : Word := op.setWidth 16 <<< 10

/-- `(op << 10) | (d << 5)` (R87). -/
def packR1 (op : BitVec 6) (d : Reg) : Word := packR0 op ||| BitVec.ofNat 16 d.val <<< 5

/-- `(op << 10) | (d << 5) | s` (R87). -/
def packR2 (op : BitVec 6) (d s : Reg) : Word := packR1 op d ||| BitVec.ofNat 16 s.val

/-- `(op << 10) | (d << 5) | (imm & 0x1F)` (R87). -/
def packI (op : BitVec 6) (d : Reg) (imm : Int) : Word := packR1 op d ||| (BitVec.ofInt 16 imm &&& 0x1F)

/-- `(op << 10) | (off & 0x3FF)` (R87). -/
def packJ (op : BitVec 6) (off : Int) : Word := packR0 op ||| (BitVec.ofInt 16 off &&& 0x3FF)

/-- The mnemonic of an instruction. -/
def Instr.mnemonic (i : Instr) : Mnemonic :=
  match i with
  | .halt => .halt
  | .brk => .brk
  | .not _ => .not
  | .push _ => .push
  | .pop _ => .pop
  | .print _ => .print
  | .read _ => .read
  | .sl _ _ => .sl
  | .sru _ _ => .sru
  | .srs _ _ => .srs
  | .mov _ _ => .mov
  | .add _ _ => .add
  | .sub _ _ => .sub
  | .and _ _ => .and
  | .or _ _ => .or
  | .xor _ _ => .xor
  | .cmp _ _ => .cmp
  | .sw _ _ => .sw
  | .lw _ _ => .lw
  | .sb _ _ => .sb
  | .movi _ _ => .movi
  | .addi _ _ => .addi
  | .subi _ _ => .subi
  | .andi _ _ => .andi
  | .ori _ _ => .ori
  | .xori _ _ => .xori
  | .jmp _ => .jmp
  | .jmpeq _ => .jmpeq
  | .jmpne _ => .jmpne
  | .jmpgt _ => .jmpgt
  | .jmplt _ => .jmplt
  | .jmpge _ => .jmpge
  | .jmple _ => .jmple
  | .lb _ _ => .lb

/-- The word of an instruction (R87): the fields at their positions, the bits its shape does not use 0. -/
def encode (i : Instr) : Word :=
  let op := i.mnemonic.opcode
  match i with
  | .halt | .brk => packR0 op
  | .not rd | .push rd | .pop rd | .print rd | .read rd => packR1 op rd
  | .sl rd rs | .sru rd rs | .srs rd rs | .mov rd rs | .add rd rs | .sub rd rs => packR2 op rd rs
  | .and rd rs | .or rd rs | .xor rd rs | .cmp rd rs => packR2 op rd rs
  | .sw rd rs | .lw rd rs | .sb rd rs | .lb rd rs => packR2 op rd rs
  | .movi rd imm | .addi rd imm | .subi rd imm | .andi rd imm | .ori rd imm | .xori rd imm => packI op rd imm
  | .jmp off | .jmpeq off | .jmpne off | .jmpgt off | .jmplt off | .jmpge off | .jmple off => packJ op off

end Sys2Proof
end

