-- ==== Sys2Proof/Machine/Params.lean ====
section
/-! DEFINITION. The parameters of R8 that name registers and flag bits, at the spec's defaults. -/

namespace Sys2Proof.Machine

/-- PC_INDEX (R8, R21, D3). DESIGN CHOICE (log entry 2), unsafe: the default is taken, not a parameter. -/
def pcIndex : Reg := 29

/-- SP_INDEX (R8, R21, D3). DESIGN CHOICE (log entry 2), unsafe. -/
def spIndex : Reg := 30

/-- ST_INDEX (R8, R21, D3). DESIGN CHOICE (log entry 2), unsafe. -/
def stIndex : Reg := 31

/-- Z_BIT, the place of Z in ST (R8, R26, D4). DESIGN CHOICE (log entry 3), unsafe. -/
def zBit : Nat := 0

/-- S_BIT, the place of S in ST (R8, R26, D4). DESIGN CHOICE (log entry 3), unsafe. -/
def sBit : Nat := 1

end Sys2Proof.Machine
end

