-- ==== Sys2Proof/Machine/State.lean ====
section
/-! DEFINITION. The machine's state as plain data, its reset value, and the reasons a step can have no next state. -/

namespace Sys2Proof.Machine

/-- The failure kinds of a terminal status (R251). A step or a run that raises one takes a NEXT state that latches it
(R250, R253); `step` answers it as its fault only when it is asked for in a state whose status already is that failure,
where the spec has no transition (R135). Safe: the machine stops where the spec's machine has no step. -/
inductive Fault where
  /-- An unassigned opcode was decoded (R94). Raised by `step`. Safe. -/
  | badOpcode
  /-- An address outside the memory (R53, R54). Raised by the fetch, SW, LW, PUSH, POP, SB, LB, PRINT and READ. Safe. -/
  | memoryBounds
  /-- An odd word address (R53). Raised by the fetch, SW, LW, PUSH and POP. Safe. -/
  | memoryAlignment
  /-- The run controller counted 10000 steps that all returned InProgress (R262). Raised by `run` only. Safe. -/
  | stepLimitExceeded
  deriving DecidableEq, Repr

/-- Why there is no transition at all. -/
inductive Refusal where
  /-- An instruction without a meaning. Raised by no arm of `exec`: every instruction has its meaning. Safe. -/
  | notModelled (mnemonic : String)
  /-- A step was asked for in status TerminalSuccess, which only reset leaves (R135, R256, D14). Raised by `step` and `run`. Safe. -/
  | halted
  /-- The host re-entered a mutating operation from an observer callback (R265, U1). Raised by `hostApply`. Safe. -/
  | reentrantHost
  deriving DecidableEq, Repr

/-- What a step or a run returns (R16 "ExecutionStatus", R133). -/
inductive ExecutionStatus where
  | inProgress
  | paused
  | breakpoint
  | terminalSuccess
  | terminalFailure (k : Fault)
  deriving DecidableEq, Repr

/-- The status latch (R29). `ready` stands where the last step returned InProgress, and after reset. -/
inductive Status where
  | ready
  | paused
  | breakpoint
  | terminalSuccess
  | terminalFailure (k : Fault)
  deriving DecidableEq, Repr

/-- An observer event (R264). -/
inductive Event where
  | registerChanged (i : Reg)
  | memoryChanged (a : Nat)
  | outputChanged
  | inputChanged
  deriving DecidableEq, Repr

/-- The bytes of memory that do not read as `Memory.unlisted`, by rising address. -/
abbrev Memory := List Host.Cell

/-- What an address that the list does not name reads as: the reset value of every byte (R28, R35). -/
abbrev Memory.unlisted : Byte := 0

/-- The canonical form: addresses strictly rising, each inside the memory (R28), no entry equal to what an unlisted
address reads as. -/
abbrev Memory.wf (m : Memory) : Prop :=
  m.Pairwise (fun c d => c.1 < d.1) ∧ ∀ c ∈ m, c.1 < Config.memSize ∧ c.2 ≠ Memory.unlisted

/-- Everything the spec gives the machine (R20 to R35), and the observer's channel. -/
structure State where
  /-- The register file: 32 cells, PC, SP and ST among them (R20, R21). -/
  regs : Vector Word 32
  /-- The memory `M` (R28). -/
  mem : Memory
  /-- The status latch (R29). -/
  status : Status
  /-- The pause flag (R30). -/
  pause : Bool
  /-- The input queue, oldest first (R31). -/
  inq : List Nat
  /-- The output buffer, oldest first (R32). -/
  outbuf : List Byte
  /-- The model's own field: the observer events fired since the latest step began, oldest first (R264). No other part of
  the state depends on them. DESIGN CHOICE (log entry 8). -/
  events : List Event
  deriving DecidableEq, Repr

/-- What a step or a run of the machine answers. -/
abbrev StepOutcome := Host.Outcome State Fault Refusal

/-- The state after reset (R35, R290). -/
def State.reset : State :=
  { regs := ((Vector.replicate 32 0).set pcIndex.val (BitVec.ofNat 16 Config.codeBase)).set
      spIndex.val (BitVec.ofNat 16 Config.spReset)
    mem := []
    status := .ready
    pause := false
    inq := []
    outbuf := []
    events := [] }

end Sys2Proof.Machine
end

