-- ==== Sys2Proof/Machine/Flags.lean ====
section
/-! DEFINITION. The flag logic: where Z and S stand in ST, how they are computed, and the jump conditions that read them. -/

namespace Sys2Proof.Machine

/-- Z of a status word (R14, R26). -/
def zOf (st : Word) : Bool := st.getLsbD zBit

/-- S of a status word (R14, R26). -/
def sOf (st : Word) : Bool := st.getLsbD sBit

/-- A status word with its Z and S replaced and its other 14 bits kept (R160, R26). -/
def withFlags (st : Word) (z s : Bool) : Word :=
  (st &&& ~~~(1#16 <<< zBit ||| 1#16 <<< sBit)) |||
    ((BitVec.ofBool z).setWidth 16 <<< zBit ||| (BitVec.ofBool s).setWidth 16 <<< sBit)

/-- Z of a 16-bit result: the result is 0 (R160). -/
def zeroFlag (r : Word) : Bool := r == 0

/-- S of a 16-bit result: its bit 15 (R160, D5). -/
def signFlag (r : Word) : Bool := r.getLsbD 15

/-- Z of a comparison: the operands are equal (R174). -/
def cmpZero (a b : Word) : Bool := a == b

/-- S of a comparison: dest is below src, as unsigned numbers (R174, D6). -/
def cmpLess (a b : Word) : Bool := decide (a.toNat < b.toNat)

/-- The conditions of the seven J-shape instructions (R230). -/
inductive JumpCond where
  | always | eq | ne | gt | lt | ge | le
  deriving DecidableEq, Repr

/-- `cond(mnemonic, Z, S)` (R230): the source's formulas as written, GT and LE included, which C3 keeps although they are not
the usual meaning of the mnemonics. That the hardware runs them so is UNVERIFIED (log entry 5), unsafe. -/
def JumpCond.holds (c : JumpCond) (z s : Bool) : Bool :=
  match c with
  | .always => true
  | .eq => z
  | .ne => !z
  | .gt => s && !z
  | .lt => s
  | .ge => !s
  | .le => s || !z

end Sys2Proof.Machine
end

