-- ==== Sys2Proof/Machine/Operands.lean ====
section
/-! DEFINITION. Operand values: immediates, offsets, the address checks, and the functions of the ALU (R161). -/

namespace Sys2Proof.Machine

/-! ## Immediates and offsets -/

/-- `imm16`, the sign-extended immediate (R89). -/
def immWord (imm : Int) : Word := BitVec.ofInt 16 imm

/-- `off16`, the sign-extended offset in bytes (R90). -/
def offWord (off : Int) : Word := BitVec.ofInt 16 off

/-- The address a jump reaches from the advanced `pc`: `u16(pc + off16)` (R90, R230). -/
def jumpTarget (pc : Word) (off : Int) : Word := pc + offWord off

/-! ## Address checks -/

/-- `checkWord` (R53): bounds before alignment. `none` where the access may go on. -/
def checkWord (a : Word) : Option Fault :=
  if a.toNat > Config.lastWord then some .memoryBounds
  else if a.getLsbD 0 then some .memoryAlignment
  else none

/-- `checkByte` (R54). -/
def checkByte (a : Word) : Option Fault :=
  if a.toNat ≥ Config.memSize then some .memoryBounds else none

/-! ## The ALU (R161) -/

/-- The three shifts. -/
inductive ShiftOp where
  | sl | sru | srs
  deriving DecidableEq, Repr

/-- SHIFT_OVERFLOW, the result of a shift by 16 or more, at the spec's saturating default (R163, D9).
DESIGN CHOICE (log entry 4), unsafe: it could have been left an uninterpreted function. -/
def shiftOverflow (op : ShiftOp) (a _n : Word) : Word :=
  match op with
  | .sl => 0
  | .sru => 0
  | .srs => if a.getLsbD 15 then 0xFFFF else 0x0000

/-- A shift by an amount below 16 (R162). -/
def shiftWithin (op : ShiftOp) (a : Word) (n : Nat) : Word :=
  match op with
  | .sl => a <<< n
  | .sru => a >>> n
  | .srs => a.sshiftRight n

/-- A shift by the full 16-bit value of the amount register (R162, R163). -/
def aluShift (op : ShiftOp) (a n : Word) : Word :=
  if n.toNat < 16 then shiftWithin op a n.toNat else shiftOverflow op a n

/-- `not(a)`. -/
def aluNot (a : Word) : Word := ~~~a
/-- `add(a, b) = u16(a + b)`. -/
def aluAdd (a b : Word) : Word := a + b
/-- `sub(a, b) = u16(a - b)`. -/
def aluSub (a b : Word) : Word := a - b
/-- `and(a, b)`. -/
def aluAnd (a b : Word) : Word := a &&& b
/-- `or(a, b)`. -/
def aluOr (a b : Word) : Word := a ||| b
/-- `xor(a, b)`. -/
def aluXor (a b : Word) : Word := a ^^^ b

end Sys2Proof.Machine
end

