-- ==== Sys2Proof/Machine/Ops.lean ====
section
/-! DEFINITION. The named operations over memory, registers, console and status that every meaning is written with. -/

namespace Sys2Proof.Machine

/-! ## Memory (R12, R51) -/

/-- `M[a]`. -/
def Memory.read (m : Memory) (a : Nat) : Byte :=
  match m with
  | [] => Memory.unlisted
  | (c, b) :: rest => if c = a then b else Memory.read rest a

/-- The list with `v` at address `a`, in the canonical form. -/
def Memory.insert (m : Memory) (a : Nat) (v : Byte) : Memory :=
  match m with
  | [] => if v = Memory.unlisted then [] else [(a, v)]
  | (c, b) :: rest =>
    if a < c then
      if v = Memory.unlisted then (c, b) :: rest else (a, v) :: (c, b) :: rest
    else if a = c then
      if v = Memory.unlisted then rest else (a, v) :: rest
    else (c, b) :: Memory.insert rest a v

/-- `M[a] <- v`. There is no cell outside the memory (R50): such a write, which no rule makes (R12), changes nothing. -/
def Memory.write (m : Memory) (a : Nat) (v : Byte) : Memory :=
  if a < Config.memSize then Memory.insert m a v else m

/-- `MemRead(a, 2)`, big-endian. -/
def Memory.readWord (m : Memory) (a : Nat) : Word := wordOfBytes (m.read a) (m.read (a + 1))

/-- `MemWrite(a, 2, v)`, big-endian. -/
def Memory.writeWord (m : Memory) (a : Nat) (v : Word) : Memory :=
  (m.write a (highByte v)).write (a + 1) (lowByte v)

/-! ## Reading the registers (R11) -/

/-- `x[i]`. -/
def State.reg (s : State) (i : Reg) : Word := s.regs[i]

/-- `pc`. -/
def State.pc (s : State) : Word := s.reg pcIndex
/-- `sp`. -/
def State.sp (s : State) : Word := s.reg spIndex
/-- `st`. -/
def State.st (s : State) : Word := s.reg stIndex
/-- The flag Z. -/
def State.z (s : State) : Bool := zOf s.st
/-- The flag S. -/
def State.s (s : State) : Bool := sOf s.st

/-! ## Mutations, each with the observer events it fires (R264) -/

/-- Fire an event. -/
def State.emit (s : State) (e : Event) : State := { s with events := s.events ++ [e] }

/-- `x[i] <- v`: any cell may be written, PC, SP and ST included (R20, R22). One event for every write. -/
def State.writeReg (s : State) (i : Reg) (v : Word) : State :=
  { s with regs := s.regs.set i.val v }.emit (.registerChanged i)

/-- The flag update: Z and S of ST replaced, its other bits kept (R160, R174). One event on ST. -/
def State.setFlags (s : State) (z sg : Bool) : State := s.writeReg stIndex (withFlags s.st z sg)

/-- `setZS(r)` (R160). -/
def State.setZS (s : State) (r : Word) : State := s.setFlags (zeroFlag r) (signFlag r)

/-- `MemWrite(a, 1, v)`: one event. -/
def State.storeByte (s : State) (a : Nat) (v : Byte) : State :=
  { s with mem := s.mem.write a v }.emit (.memoryChanged a)

/-- `MemWrite(a, 2, v)`: one event a byte, in increasing address order. -/
def State.storeWord (s : State) (a : Nat) (v : Word) : State :=
  (s.storeByte a (highByte v)).storeByte (a + 1) (lowByte v)

/-- The last `Config.outCap` elements of a list (R200). -/
def keepRecent (l : List Byte) : List Byte := (l.reverse.take Config.outCap).reverse

/-- Append a byte to the output buffer, which keeps the most recent 128 (R32, R200). One event. -/
def State.appendOutput (s : State) (b : Byte) : State :=
  { s with outbuf := keepRecent (s.outbuf ++ [b]) }.emit .outputChanged

/-- The byte of a character code (R201, D13). -/
def codeByte (c : Nat) : Byte := BitVec.ofNat 8 c

/-- The input queue with its head taken off (R201). One event. -/
def State.takeInput (s : State) : State := { s with inq := s.inq.tail }.emit .inputChanged

/-! ## Ending a step (R13, R133, R250) -/

/-- What the latch holds once `e` has been returned (R29, R133). -/
def ExecutionStatus.latched (e : ExecutionStatus) : Status :=
  match e with
  | .inProgress => .ready
  | .paused => .paused
  | .breakpoint => .breakpoint
  | .terminalSuccess => .terminalSuccess
  | .terminalFailure k => .terminalFailure k

/-- What was returned when the latch holds `st` (R29). -/
def Status.returned (st : Status) : ExecutionStatus :=
  match st with
  | .ready => .inProgress
  | .paused => .paused
  | .breakpoint => .breakpoint
  | .terminalSuccess => .terminalSuccess
  | .terminalFailure k => .terminalFailure k

/-- The latch set to `st` (R29); nothing else changes. -/
def State.latch (s : State) (st : Status) : State := { s with status := st }

/-- `finish e`: the step ends and `e` is latched; nothing else changes. -/
def finish (e : ExecutionStatus) (s : State) : StepOutcome := .next (s.latch e.latched)

/-- The end of the pseudocode: `InProgress` (R132). -/
def complete (s : State) : StepOutcome := finish .inProgress s

/-- TAKING A FAULT, for every instruction and the fetch: `raise k` (R13, R250). The status is latched, the writes made so
far stay, and nothing is saved, masked or vectored (R252, R253, R255). There is no return from it but reset (R256). -/
def raise (k : Fault) (s : State) : StepOutcome := finish (.terminalFailure k) s

/-- A word access at `a`: raise what `checkWord` finds, or go on with the address (R53, R55). -/
def withWordAt (a : Word) (s : State) (go : Nat → StepOutcome) : StepOutcome :=
  match checkWord a with
  | some k => raise k s
  | none => go a.toNat

/-- A byte access at `a`: raise what `checkByte` finds, or go on with the address (R54). -/
def withByteAt (a : Word) (s : State) (go : Nat → StepOutcome) : StepOutcome :=
  match checkByte a with
  | some k => raise k s
  | none => go a.toNat

/-- The end of an ALU instruction: `x[rd] <- r; setZS(r)`, in that order (R160, D18). -/
def State.writeResult (s : State) (rd : Reg) (r : Word) : StepOutcome := complete ((s.writeReg rd r).setZS r)

/-- The common rule of the J shape (R230): `pc` already is the jump's address + 2. -/
def State.jumpIf (s : State) (c : JumpCond) (off : Int) : StepOutcome :=
  if c.holds s.z s.s then complete (s.writeReg pcIndex (jumpTarget s.pc off)) else complete s

/-! ## Beginning a step (R130, R131, R135) -/

/-- A terminal status has no step (R135, R256). The answer names what is latched: its failure, or that it halted.
DESIGN CHOICE (log entry 7), safe. -/
def Status.stopped (st : Status) : Option StepOutcome :=
  match st with
  | .ready | .paused | .breakpoint => none
  | .terminalSuccess => some (.refused .halted)
  | .terminalFailure k => some (.fault k)

/-- The channel is empty when a step begins: earlier events were delivered as they fired (R264; log entry 8). -/
def State.beginStep (s : State) : State := { s with events := [] }

/-- The fetch: check PC, then read the big-endian word there (R130). -/
def State.fetch (s : State) : Except Fault Word :=
  match checkWord s.pc with
  | some k => .error k
  | none => .ok (s.mem.readWord s.pc.toNat)

/-- The pc advance, before decode (R131). One event (R264). -/
def State.advancePc (s : State) : State := s.writeReg pcIndex (s.pc + 2)

end Sys2Proof.Machine
end

