-- ==== Sys2Proof/Machine/AluImmediate.lean ====
section
/-! DEFINITION. The immediate-operand instructions (45_alu_immediate.md). -/

namespace Sys2Proof.Machine

/-- MOVI: no flag update (R220). -/
def execMovi (rd : Reg) (imm : Int) (s : State) : StepOutcome := complete (s.writeReg rd (immWord imm))

/-- ADDI (R221). -/
def execAddi (rd : Reg) (imm : Int) (s : State) : StepOutcome := s.writeResult rd (aluAdd (s.reg rd) (immWord imm))

/-- SUBI (R222). -/
def execSubi (rd : Reg) (imm : Int) (s : State) : StepOutcome := s.writeResult rd (aluSub (s.reg rd) (immWord imm))

/-- ANDI (R223). -/
def execAndi (rd : Reg) (imm : Int) (s : State) : StepOutcome := s.writeResult rd (aluAnd (s.reg rd) (immWord imm))

/-- ORI (R224). -/
def execOri (rd : Reg) (imm : Int) (s : State) : StepOutcome := s.writeResult rd (aluOr (s.reg rd) (immWord imm))

/-- XORI (R225). -/
def execXori (rd : Reg) (imm : Int) (s : State) : StepOutcome := s.writeResult rd (aluXor (s.reg rd) (immWord imm))

end Sys2Proof.Machine
end

