-- ==== Sys2Proof/Machine/AluRegister.lean ====
section
/-! DEFINITION. The register-operand instructions (41_alu_register.md). -/

namespace Sys2Proof.Machine

/-- NOT: no flag update (R164). -/
def execNot (rd : Reg) (s : State) : StepOutcome := complete (s.writeReg rd (aluNot (s.reg rd)))

/-- SL (R165). -/
def execSl (rd rs : Reg) (s : State) : StepOutcome := s.writeResult rd (aluShift .sl (s.reg rd) (s.reg rs))

/-- SRU (R166). -/
def execSru (rd rs : Reg) (s : State) : StepOutcome := s.writeResult rd (aluShift .sru (s.reg rd) (s.reg rs))

/-- SRS (R167). -/
def execSrs (rd rs : Reg) (s : State) : StepOutcome := s.writeResult rd (aluShift .srs (s.reg rd) (s.reg rs))

/-- MOV: no flag update (R168). -/
def execMov (rd rs : Reg) (s : State) : StepOutcome := complete (s.writeReg rd (s.reg rs))

/-- ADD (R169). -/
def execAdd (rd rs : Reg) (s : State) : StepOutcome := s.writeResult rd (aluAdd (s.reg rd) (s.reg rs))

/-- SUB (R170). -/
def execSub (rd rs : Reg) (s : State) : StepOutcome := s.writeResult rd (aluSub (s.reg rd) (s.reg rs))

/-- AND (R171). -/
def execAnd (rd rs : Reg) (s : State) : StepOutcome := s.writeResult rd (aluAnd (s.reg rd) (s.reg rs))

/-- OR (R172). -/
def execOr (rd rs : Reg) (s : State) : StepOutcome := s.writeResult rd (aluOr (s.reg rd) (s.reg rs))

/-- XOR (R173). -/
def execXor (rd rs : Reg) (s : State) : StepOutcome := s.writeResult rd (aluXor (s.reg rd) (s.reg rs))

/-- CMP: flags only (R174). -/
def execCmp (rd rs : Reg) (s : State) : StepOutcome :=
  complete (s.setFlags (cmpZero (s.reg rd) (s.reg rs)) (cmpLess (s.reg rd) (s.reg rs)))

end Sys2Proof.Machine
end

