-- ==== Sys2Proof/Machine/Console.lean ====
section
/-! DEFINITION. PRINT and READ (43_console.md). -/

namespace Sys2Proof.Machine

/-- PRINT (R200). -/
def execPrint (rd : Reg) (s : State) : StepOutcome :=
  withByteAt (s.reg rd) s fun a => complete (s.appendOutput (s.mem.read a))

/-- READ: an empty queue stores 0 and consumes nothing (R201). -/
def execRead (rd : Reg) (s : State) : StepOutcome :=
  withByteAt (s.reg rd) s fun a =>
    match s.inq with
    | [] => complete (s.storeByte a 0)
    | c :: _ => complete (s.takeInput.storeByte a (codeByte c))

end Sys2Proof.Machine
end

