-- ==== Sys2Proof/Machine/Jumps.lean ====
section
/-! DEFINITION. JMP and the six conditional jumps (46_jumps.md). A target is not checked at the jump (R239). -/

namespace Sys2Proof.Machine

/-- JMP (R232). -/
def execJmp (off : Int) (s : State) : StepOutcome := s.jumpIf .always off

/-- JMPEQ (R233). -/
def execJmpeq (off : Int) (s : State) : StepOutcome := s.jumpIf .eq off

/-- JMPNE (R234). -/
def execJmpne (off : Int) (s : State) : StepOutcome := s.jumpIf .ne off

/-- JMPGT (R235). -/
def execJmpgt (off : Int) (s : State) : StepOutcome := s.jumpIf .gt off

/-- JMPLT (R236). -/
def execJmplt (off : Int) (s : State) : StepOutcome := s.jumpIf .lt off

/-- JMPGE (R237). -/
def execJmpge (off : Int) (s : State) : StepOutcome := s.jumpIf .ge off

/-- JMPLE (R238). -/
def execJmple (off : Int) (s : State) : StepOutcome := s.jumpIf .le off

end Sys2Proof.Machine
end

