-- ==== Sys2Proof/Machine/LoadStore.lean ====
section
/-! DEFINITION. SW, LW, SB and LB: the address is x[rd], the data register x[rs] (R210, D12). -/

namespace Sys2Proof.Machine

/-- SW (R211). -/
def execSw (rd rs : Reg) (s : State) : StepOutcome :=
  withWordAt (s.reg rd) s fun a => complete (s.storeWord a (s.reg rs))

/-- LW (R212). -/
def execLw (rd rs : Reg) (s : State) : StepOutcome :=
  withWordAt (s.reg rd) s fun a => complete (s.writeReg rs (s.mem.readWord a))

/-- SB: the low byte of the data register (R213, D11). -/
def execSb (rd rs : Reg) (s : State) : StepOutcome :=
  withByteAt (s.reg rd) s fun a => complete (s.storeByte a (lowByte (s.reg rs)))

/-- LB: zero-extended (R214, D11). -/
def execLb (rd rs : Reg) (s : State) : StepOutcome :=
  withByteAt (s.reg rd) s fun a => complete (s.writeReg rs ((s.mem.read a).setWidth 16))

end Sys2Proof.Machine
end

