-- ==== Sys2Proof/Machine/Stack.lean ====
section
/-! DEFINITION. PUSH and POP (42_stack.md). -/

namespace Sys2Proof.Machine

/-- PUSH: check SP, store, then move SP down (R190). -/
def execPush (rd : Reg) (s : State) : StepOutcome :=
  withWordAt s.sp s fun a => complete ((s.storeWord a (s.reg rd)).writeReg spIndex (s.sp - 2))

/-- POP: move SP up, check it (the move stays on a fault), then load (R191). -/
def execPop (rd : Reg) (s : State) : StepOutcome :=
  let up := s.writeReg spIndex (s.sp + 2)
  withWordAt up.sp up fun a => complete (up.writeReg rd (up.mem.readWord a))

end Sys2Proof.Machine
end

