-- ==== Sys2Proof/Machine/System.lean ====
section
/-! DEFINITION. HALT and BREAK. -/

namespace Sys2Proof.Machine

/-- HALT (R139). -/
def execHalt (s : State) : StepOutcome := finish .terminalSuccess s

/-- BREAK (R140). -/
def execBrk (s : State) : StepOutcome := finish .breakpoint s

end Sys2Proof.Machine
end

