-- ==== Sys2Proof/Machine/Dispatch.lean ====
section
/-! DEFINITION. The dispatch of R132: one arm per instruction, each a direct call of its meaning. -/

namespace Sys2Proof.Machine

/-- `execute(d)` of R132, run after the pc advance of R131. -/
def exec (i : Instr) (s : State) : Host.Outcome State Fault Refusal :=
  match i with
  | .halt => Sys2Proof.Machine.execHalt s
  | .brk => Sys2Proof.Machine.execBrk s
  | .not rd => Sys2Proof.Machine.execNot rd s
  | .push rd => Sys2Proof.Machine.execPush rd s
  | .pop rd => Sys2Proof.Machine.execPop rd s
  | .print rd => Sys2Proof.Machine.execPrint rd s
  | .read rd => Sys2Proof.Machine.execRead rd s
  | .sl rd rs => Sys2Proof.Machine.execSl rd rs s
  | .sru rd rs => Sys2Proof.Machine.execSru rd rs s
  | .srs rd rs => Sys2Proof.Machine.execSrs rd rs s
  | .mov rd rs => Sys2Proof.Machine.execMov rd rs s
  | .add rd rs => Sys2Proof.Machine.execAdd rd rs s
  | .sub rd rs => Sys2Proof.Machine.execSub rd rs s
  | .and rd rs => Sys2Proof.Machine.execAnd rd rs s
  | .or rd rs => Sys2Proof.Machine.execOr rd rs s
  | .xor rd rs => Sys2Proof.Machine.execXor rd rs s
  | .cmp rd rs => Sys2Proof.Machine.execCmp rd rs s
  | .sw rd rs => Sys2Proof.Machine.execSw rd rs s
  | .lw rd rs => Sys2Proof.Machine.execLw rd rs s
  | .sb rd rs => Sys2Proof.Machine.execSb rd rs s
  | .movi rd imm => Sys2Proof.Machine.execMovi rd imm s
  | .addi rd imm => Sys2Proof.Machine.execAddi rd imm s
  | .subi rd imm => Sys2Proof.Machine.execSubi rd imm s
  | .andi rd imm => Sys2Proof.Machine.execAndi rd imm s
  | .ori rd imm => Sys2Proof.Machine.execOri rd imm s
  | .xori rd imm => Sys2Proof.Machine.execXori rd imm s
  | .jmp off => Sys2Proof.Machine.execJmp off s
  | .jmpeq off => Sys2Proof.Machine.execJmpeq off s
  | .jmpne off => Sys2Proof.Machine.execJmpne off s
  | .jmpgt off => Sys2Proof.Machine.execJmpgt off s
  | .jmplt off => Sys2Proof.Machine.execJmplt off s
  | .jmpge off => Sys2Proof.Machine.execJmpge off s
  | .jmple off => Sys2Proof.Machine.execJmple off s
  | .lb rd rs => Sys2Proof.Machine.execLb rd rs s

end Sys2Proof.Machine
end

