-- ==== Sys2Proof/Machine/Step.lean ====
section
/-! DEFINITION. One step of the engine (40_engine_system.md), and the placing of a word where it fetches. -/

namespace Sys2Proof.Machine

/-- Decode the fetched word and execute it; an unassigned opcode raises BadOpcode, the pc already advanced (R94, R132). -/
def decodeAndExec (w : Word) (s : State) : Host.Outcome State Fault Refusal :=
  match decodeWord w with
  | .error _ => raise .badOpcode s
  | .ok i => exec i s

/-- One step: only in a status that is not terminal (R135), fetch (R130), advance PC (R131), decode and execute (R132).
A fetch fault leaves PC where it was. -/
def step (s : State) : Host.Outcome State Fault Refusal :=
  match s.status.stopped with
  | some stop => stop
  | none =>
    match s.beginStep.fetch with
    | .error k => raise k s.beginStep
    | .ok w => decodeAndExec w s.beginStep.advancePc

/-- The state with the instruction word `w` (numbered as the opcode table numbers it) stored where `step` fetches: at PC.
The next step runs it wherever PC is a word address (R53) and the status is not terminal (R135), as after reset. -/
def State.withFetchWord (s : State) (nbits w : Nat) : State :=
  { s with mem := s.mem.writeWord s.pc.toNat (tableWord nbits w) }

end Sys2Proof.Machine
end

