-- ==== Sys2Proof/Machine/Assembler.lean ====
section
/-! DEFINITION. The assembler (R100 to R113): the toolchain that turns source text into the hexadecimal string the host loads. It is no part of the CORE (R5, C8). -/

namespace Sys2Proof.Machine

/-- The errors (R107), the name R106 gives to a rejected offset, and one of the model's own: `labelOutOfRange` is pass 1's,
at a label whose running address has no 16 bits (R16, R103; DESIGN CHOICE, log entry 11), safe. -/
inductive AsmError where
  | syntaxError | invalidRegister | invalidImmediate | unknownLabel | duplicateLabel | offsetOutOfRange | labelOutOfRange
  deriving DecidableEq, Repr

/-- ASM_OFFSET_POLICY, which the spec leaves OPEN (R106, D20): an argument of the assembler (log entry 12). -/
inductive OffsetPolicy where
  | truncate | reject
  deriving DecidableEq, Repr

/-! ## Lines (R100, R101) -/

/-- A list cut at every element for which `p` holds; the cutting elements are dropped. -/
def splitAtAll (p : Char → Bool) (cs : List Char) : List (List Char) :=
  match cs with
  | [] => [[]]
  | c :: rest =>
    if p c then [] :: splitAtAll p rest
    else
      match splitAtAll p rest with
      | [] => [[c]]
      | l :: ls => (c :: l) :: ls

/-- White space off both ends. -/
def trim (cs : List Char) : List Char :=
  ((cs.dropWhile Char.isWhitespace).reverse.dropWhile Char.isWhitespace).reverse

/-- The filtered lines: comments stripped, trimmed, empty lines dropped, order kept (R100). Lines end at a line feed
(DESIGN CHOICE, log entry 11). -/
def filteredLines (src : List Char) : List (List Char) :=
  ((splitAtAll (· == '\n') src).map fun l => trim (l.takeWhile (· != '#'))).filter (· != [])

/-- A first character of an identifier (R112). -/
def isIdentStart (c : Char) : Bool := c.isAlpha || c == '_'

/-- An identifier (R112). -/
def isIdent (cs : List Char) : Bool :=
  match cs with
  | [] => false
  | c :: rest => isIdentStart c && rest.all fun d => isIdentStart d || d.isDigit

/-- The name of a label-definition line: an identifier and a colon, nothing else (R101). -/
def labelDef (line : List Char) : Option (List Char) :=
  match line.reverse with
  | ':' :: r => if isIdent r.reverse then some r.reverse else none
  | _ => none

/-- The tokens of a line, separated by spaces and tabs (R102, D21). -/
def tokens (line : List Char) : List (List Char) :=
  (splitAtAll (fun c => c == ' ' || c == '\t') line).filter (· != [])

/-! ## Operands -/

/-- The number a string of one or more decimal digits writes. -/
def decimal (cs : List Char) : Option Nat :=
  if cs != [] && cs.all Char.isDigit then
    some (cs.foldl (fun n c => 10 * n + (c.toNat - '0'.toNat)) 0)
  else none

/-- The number N of a register operand `r<N>` or `R<N>` (R110). -/
def registerNumber (cs : List Char) : Option Nat :=
  match cs with
  | 'r' :: ds | 'R' :: ds => decimal ds
  | _ => none

/-- A register number in [0, 32) (R104 step 3). -/
def registerOf (n : Nat) : Except AsmError Reg :=
  if h : n < 32 then .ok ⟨n, h⟩ else .error .invalidRegister

/-- The value of an immediate operand: an optional sign and decimal digits (R111). -/
def immediateNumber (cs : List Char) : Option Int :=
  match cs with
  | '-' :: ds => (decimal ds).map fun n => -(n : Int)
  | '+' :: ds => (decimal ds).map fun n => (n : Int)
  | ds => (decimal ds).map fun n => (n : Int)

/-- The mnemonic a token names, in either case (R102). -/
def mnemonicOf (token : List Char) : Option Mnemonic :=
  Mnemonic.all.find? fun m => m.name.toList == token.map Char.toUpper

/-! ## The two passes -/

/-- The label table: label names and their 16-bit addresses (R16, R103). -/
abbrev LabelTable := List (List Char × Word)

/-- The address of a label. -/
def LabelTable.find (t : LabelTable) (name : List Char) : Option Word :=
  match t with
  | [] => none
  | (n, a) :: rest => if n = name then some a else LabelTable.find rest name

/-- A running address as the label table holds it. One that needs more than 16 bits, which is that of a label after 32704 or
more instruction lines, is no address of the table (R16) and is not wrapped below 128 (R103): the spec gives no value there,
and that it is an error is DESIGN CHOICE (log entry 11), safe. -/
def labelAddress (a : Nat) : Except AsmError Word :=
  if a < 65536 then .ok (BitVec.ofNat 16 a) else .error .labelOutOfRange

/-- Pass 1, the label scan, from the running address `a` (R103). -/
def labelScan (lines : List (List Char)) (a : Nat) (t : LabelTable) : Except AsmError LabelTable :=
  match lines with
  | [] => .ok t
  | l :: rest =>
    match labelDef l with
    | some name =>
      match t.find name with
      | some _ => .error .duplicateLabel
      | none => do labelScan rest a ((name, ← labelAddress a) :: t)
    | none => labelScan rest (a + 2) t

/-- The offset of a jump at address `a` to `target` (R105). -/
def jumpOffset (target : Word) (a : Nat) : Int := (target.toNat : Int) - (a : Int) - 2

/-- The offset as the field holds it, or the error of the policy (R106). -/
def packedOffset (policy : OffsetPolicy) (off : Int) : Except AsmError Int :=
  if offInRange off then .ok off
  else
    match policy with
    | .truncate => .ok (BitVec.ofInt 10 off).toInt
    | .reject => .error .offsetOutOfRange

/-- One instruction line at address `a`, with the checks in the order of R104. -/
def assembleLine (policy : OffsetPolicy) (t : LabelTable) (a : Nat) (line : List Char) : Except AsmError Instr :=
  match tokens line with
  | [] => .error .syntaxError
  | token :: operands =>
    match mnemonicOf token with
    | none => .error .syntaxError
    | some m =>
      match m.shape, operands with
      | .r0, [] => .ok (m.instr 0 0 0 0)
      | .r1, [d] =>
        match registerNumber d with
        | none => .error .syntaxError
        | some d => do return m.instr (← registerOf d) 0 0 0
      | .r2, [d, e] =>
        match registerNumber d, registerNumber e with
        | some d, some e => do return m.instr (← registerOf d) (← registerOf e) 0 0
        | _, _ => .error .syntaxError
      | .i, [d, v] =>
        match registerNumber d, immediateNumber v with
        | some d, some v => do
          let rd ← registerOf d
          if immInRange v then return m.instr rd 0 v 0 else .error .invalidImmediate
        | _, _ => .error .syntaxError
      | .j, [name] =>
        if isIdent name then
          match t.find name with
          | none => .error .unknownLabel
          | some target => do return m.instr 0 0 0 (← packedOffset policy (jumpOffset target a))
        else .error .syntaxError
      | _, _ => .error .syntaxError

/-- Pass 2: the instructions in program order, from the running address `a` (R104). -/
def encodePass (policy : OffsetPolicy) (t : LabelTable) (lines : List (List Char)) (a : Nat) :
    Except AsmError (List Instr) :=
  match lines with
  | [] => .ok []
  | l :: rest =>
    match labelDef l with
    | some _ => encodePass policy t rest a
    | none => do
      let i ← assembleLine policy t a l
      let is ← encodePass policy t rest (a + 2)
      return i :: is

/-- Both passes: pass 1 runs to its end before pass 2 begins (R108), and any error gives no output (R107). -/
def assembleInstrs (policy : OffsetPolicy) (src : List Char) : Except AsmError (List Instr) := do
  let lines := filteredLines src
  let t ← labelScan lines Config.codeBase []
  encodePass policy t lines Config.codeBase

/-! ## The output (R109) -/

/-- A lower-case hexadecimal digit. -/
def hexDigit (n : Nat) : Char :=
  if n < 10 then Char.ofNat ('0'.toNat + n) else Char.ofNat ('a'.toNat + (n - 10))

/-- The four digits of a word, most significant first. -/
def wordHex (w : Word) : List Char :=
  [hexDigit (w.extractLsb' 12 4).toNat, hexDigit (w.extractLsb' 8 4).toNat,
    hexDigit (w.extractLsb' 4 4).toNat, hexDigit (w.extractLsb' 0 4).toNat]

/-- The hexadecimal text of instructions: four digits a word, no separators (R109). -/
def hexText (is : List Instr) : List Char :=
  match is with
  | [] => []
  | i :: rest => wordHex (encode i) ++ hexText rest

/-- The assembler: source text to hexadecimal text, or one error (R100 to R113). -/
def assemble (policy : OffsetPolicy) (src : String) : Except AsmError String := do
  let is ← assembleInstrs policy src.toList
  return String.ofList (hexText is)

end Sys2Proof.Machine
end

