-- ==== Sys2Proof/Machine/Control.lean ====
section
/-! DEFINITION. The host's control interface (R263): reset, load (R291, R292), the run controller (R262), the pause flag, the console's host side, and the rule against re-entrancy (R265). -/

namespace Sys2Proof.Machine

/-! ## Load -/

/-- What load returns (R263, R291). -/
inductive LoadResult where
  | ok | emptyCode | malformedCode | codeTooLong
  deriving DecidableEq, Repr

/-- The value of a hexadecimal digit of either case (R291, D16). -/
def hexValue (c : Char) : Option Nat :=
  if '0' ≤ c ∧ c ≤ '9' then some (c.toNat - '0'.toNat)
  else if 'a' ≤ c ∧ c ≤ 'f' then some (c.toNat - 'a'.toNat + 10)
  else if 'A' ≤ c ∧ c ≤ 'F' then some (c.toNat - 'A'.toNat + 10)
  else none

/-- The 16-bit value of four hexadecimal digits, most significant first (R292). -/
def hexGroup (a b c d : Char) : Option Word :=
  match hexValue a, hexValue b, hexValue c, hexValue d with
  | some a, some b, some c, some d => some (BitVec.ofNat 16 (((a * 16 + b) * 16 + c) * 16 + d))
  | _, _, _, _ => none

/-- The words of a string made of groups of exactly four hexadecimal digits; `none` where it is malformed (R291). -/
def hexGroups (cs : List Char) : Option (List Word) :=
  match cs with
  | [] => some []
  | a :: b :: c :: d :: rest =>
    match hexGroup a b c d, hexGroups rest with
    | some w, some ws => some (w :: ws)
    | _, _ => none
  | _ => none

/-- Words stored one after another from address `a`, big-endian (R292). -/
def Memory.writeWords (m : Memory) (a : Nat) (ws : List Word) : Memory :=
  match ws with
  | [] => m
  | w :: rest => Memory.writeWords (m.writeWord a w) (a + 2) rest

/-- Load over the characters of the string: every check comes before the first write, in the order of R291; on an error
nothing changes, and on success only the program's bytes do (R292). -/
def loadChars (hex : List Char) (s : State) : LoadResult × State :=
  if hex = [] then (.emptyCode, s)
  else
    match hexGroups hex with
    | none => (.malformedCode, s)
    | some ws =>
      if ws.length > Config.maxCodeWords then (.codeTooLong, s)
      else (.ok, { s with mem := s.mem.writeWords Config.codeBase ws })

/-- `load(hex)` (R263, R291, R292). -/
def load (hex : String) (s : State) : LoadResult × State := loadChars hex.toList s

/-! ## What the host writes between steps -/

/-- The host operations that are a plain change of state (R263), which are also all that the host may do between the steps of
one run. R263 says both that any operation may come between steps and that each operation is atomic; that a step or a run
asked for inside a run is left out, and a readOutput there too, which changes nothing, is DESIGN CHOICE (log entry 9), unsafe
for a host that steps inside a run. -/
inductive HostWrite where
  | reset
  | load (hex : String)
  | setPause (b : Bool)
  | appendInput (codes : List Nat)
  deriving DecidableEq, Repr

/-- `appendInput(cs)`: one input event (R263, R264). -/
def State.appendInput (s : State) (codes : List Nat) : State :=
  { s with inq := s.inq ++ codes }.emit .inputChanged

/-- The state a host write leaves (R263). Reset is allowed in every status (R290). -/
def HostWrite.apply (w : HostWrite) (s : State) : State :=
  match w with
  | .reset => State.reset
  | .load hex => (Machine.load hex s).2
  | .setPause b => { s with pause := b }
  | .appendInput codes => s.appendInput codes

/-- The observer events a host write fires: one input event per appendInput, none for the others (R264). -/
def HostWrite.events (w : HostWrite) : List Event :=
  match w with
  | .appendInput _ => [.inputChanged]
  | .reset | .load _ | .setPause _ => []

/-- Host writes one after another. -/
def applyWrites (ws : List HostWrite) (s : State) : State :=
  match ws with
  | [] => s
  | w :: rest => applyWrites rest (w.apply s)

/-! ## The run controller (R262) -/

/-- The loop of a run with `n` steps left before the limit. `sched` says what the host does between the steps: its head
before the next step's pause test, and so on (R263 "between steps"; DESIGN CHOICE, log entry 9). The pause flag is tested
before each step; a step's own outcome comes before the limit (R254, R262, D17). -/
def runLoop (n : Nat) (sched : List (List HostWrite)) (s : State) : StepOutcome :=
  match n with
  | 0 => finish (.terminalFailure .stepLimitExceeded) s
  | left + 1 =>
    let s := applyWrites (sched.headD []) s
    if s.pause then finish .paused s
    else
      match step s with
      | .next t => if t.status = .ready then runLoop left sched.tail t else .next t
      | .fault k => .fault k
      | .refused r => .refused r

/-- `run()` with the host writing between its steps. In a terminal status there is no transition (R135, R256). The counter
starts anew at each run (R261). -/
def runWith (sched : List (List HostWrite)) (s : State) : StepOutcome :=
  match s.status.stopped with
  | some stop => stop
  | none => runLoop Config.stepLimit sched s

/-- `run()` (R262). -/
def run (s : State) : StepOutcome := runWith [] s

/-- The observer events of the loop of a run, oldest first (R264): in each round those of the host's writes, a reset among
them or not, and then those of the step. -/
def runLoopEvents (n : Nat) (sched : List (List HostWrite)) (s : State) : List Event :=
  match n with
  | 0 => []
  | left + 1 =>
    let gap := (sched.headD []).flatMap HostWrite.events
    let s := applyWrites (sched.headD []) s
    if s.pause then gap
    else
      match step s with
      | .next t => gap ++ t.events ++ (if t.status = .ready then runLoopEvents left sched.tail t else [])
      | .fault _ | .refused _ => gap

/-- The observer events of `runWith sched s` (R264): none where it has no transition (R135). The state a run leaves holds
those of its last step and the writes after it only (log entry 8). -/
def runEvents (sched : List (List HostWrite)) (s : State) : List Event :=
  match s.status.stopped with
  | some _ => []
  | none => runLoopEvents Config.stepLimit sched s

/-! ## The control interface (R263) -/

/-- The operations of the host. -/
inductive HostOp where
  | write (w : HostWrite)
  | step
  | run
  | readOutput
  deriving DecidableEq, Repr

/-- What an operation returns. -/
inductive HostReply where
  | done
  | loaded (r : LoadResult)
  | status (e : ExecutionStatus)
  | output (bytes : List Byte)
  deriving DecidableEq, Repr

/-- The host's view of a step or a run: the state it leaves and the status it returns. Where there is no transition the
state is unchanged and the latched status is returned (R135, D14, U7). -/
def hostStatus (s : State) (o : StepOutcome) : State × HostReply :=
  match o with
  | .next t => (t, .status t.status.returned)
  | .fault _ => (s, .status s.status.returned)
  | .refused _ => (s, .status s.status.returned)

/-- The observer events an operation fires, oldest first (R264). -/
def hostEvents (op : HostOp) (s : State) : List Event :=
  match op with
  | .write w => w.events
  | .step =>
    match step s with
    | .next t => t.events
    | .fault _ | .refused _ => []
  | .run => runEvents [] s
  | .readOutput => []

/-- Which operations change the CORE: all but reading the output (R265, U1). -/
def HostOp.mutating (op : HostOp) : Bool :=
  match op with
  | .readOutput => false
  | .write _ | .step | .run => true

/-- One host operation (R263). `inCallback` says that the host is inside an observer callback, from which a mutating
operation is refused (R265, U1; log entry 10). A step asked for by the host does not test the pause flag (R258). -/
def hostApply (inCallback : Bool) (op : HostOp) (s : State) : Except Refusal (State × HostReply) :=
  if inCallback && op.mutating then .error .reentrantHost
  else
    match op with
    | .write (.load hex) => .ok ((load hex s).2, .loaded (load hex s).1)
    | .write w => .ok (w.apply s, .done)
    | .step => .ok (hostStatus s (step s))
    | .run => .ok (hostStatus s (run s))
    | .readOutput => .ok (s, .output s.outbuf)

end Sys2Proof.Machine
end

