-- ==== Sys2Proof/Safety.lean ====
section
/-! DEFINITION. What counts as a safe state and a safe run, in the terms claims use. -/

namespace Sys2Proof.Machine

/-- A step is enabled: the status is Ready, Paused or Breakpoint (R135). -/
def Status.enabled (st : Status) : Bool := st.stopped.isNone

/-- A suspension: a run that ended so has not finished, and goes on without a reset (R257, R298). -/
def Status.suspended (st : Status) : Bool :=
  match st with
  | .paused | .breakpoint => true
  | .ready | .terminalSuccess | .terminalFailure _ => false

/-- The one successful end of a run (R298). -/
def Status.succeeded (st : Status) : Bool :=
  match st with
  | .terminalSuccess => true
  | .ready | .paused | .breakpoint | .terminalFailure _ => false

/-- The invariant of every step: memory is in canonical form inside the address space (R28), and the output buffer holds
at most 128 characters (R32). -/
abbrev State.Inv (s : State) : Prop := s.mem.wf ∧ s.outbuf.length ≤ Config.outCap

/-- The next fetch is legal: PC is a word address (R53, R130). -/
def State.fetchable (s : State) : Bool := (checkWord s.pc).isNone

/-- No fault is latched: the run so far is safe. -/
def State.unfaulted (s : State) : Bool :=
  match s.status with
  | .ready | .paused | .breakpoint | .terminalSuccess => true
  | .terminalFailure _ => false

/-- Every byte of memory reads the same in both states. -/
def SameMemory (s t : State) : Prop := ∀ a, t.mem.read a = s.mem.read a

/-- Every register outside `rs` is the same in both states. -/
def SameRegsBut (rs : List Reg) (s t : State) : Prop := ∀ r, r ∉ rs → t.reg r = s.reg r

/-- The console buffers and the pause flag are the same in both states. -/
def SameDevices (s t : State) : Prop := t.inq = s.inq ∧ t.outbuf = s.outbuf ∧ t.pause = s.pause

/-! ## What kind of instruction -/

/-- The register an instruction's own register write goes to. -/
def destination (i : Instr) : Option Reg :=
  match i with
  | .halt | .brk | .push _ | .print _ | .read _ | .cmp _ _ | .sw _ _ | .sb _ _ => none
  | .jmp _ | .jmpeq _ | .jmpne _ | .jmpgt _ | .jmplt _ | .jmpge _ | .jmple _ => none
  | .not rd | .pop rd | .movi rd _ | .addi rd _ | .subi rd _ | .andi rd _ | .ori rd _ | .xori rd _ => some rd
  | .sl rd _ | .sru rd _ | .srs rd _ | .mov rd _ | .add rd _ | .sub rd _ | .and rd _ | .or rd _ | .xor rd _ => some rd
  | .lw _ rs | .lb _ rs => some rs

/-- What an instruction's own register write writes, where it faults nowhere; `s` has its PC past the instruction (R131). -/
def writtenValue (i : Instr) (s : State) : Option Word :=
  match i with
  | .halt | .brk | .push _ | .print _ | .read _ | .cmp _ _ | .sw _ _ | .sb _ _ => none
  | .jmp _ | .jmpeq _ | .jmpne _ | .jmpgt _ | .jmplt _ | .jmpge _ | .jmple _ => none
  | .not rd => some (aluNot (s.reg rd))
  | .mov _ rs => some (s.reg rs)
  | .sl rd rs => some (aluShift .sl (s.reg rd) (s.reg rs))
  | .sru rd rs => some (aluShift .sru (s.reg rd) (s.reg rs))
  | .srs rd rs => some (aluShift .srs (s.reg rd) (s.reg rs))
  | .add rd rs => some (aluAdd (s.reg rd) (s.reg rs))
  | .sub rd rs => some (aluSub (s.reg rd) (s.reg rs))
  | .and rd rs => some (aluAnd (s.reg rd) (s.reg rs))
  | .or rd rs => some (aluOr (s.reg rd) (s.reg rs))
  | .xor rd rs => some (aluXor (s.reg rd) (s.reg rs))
  | .movi _ imm => some (immWord imm)
  | .addi rd imm => some (aluAdd (s.reg rd) (immWord imm))
  | .subi rd imm => some (aluSub (s.reg rd) (immWord imm))
  | .andi rd imm => some (aluAnd (s.reg rd) (immWord imm))
  | .ori rd imm => some (aluOr (s.reg rd) (immWord imm))
  | .xori rd imm => some (aluXor (s.reg rd) (immWord imm))
  | .pop _ => some (s.mem.readWord (s.sp + 2).toNat)
  | .lw rd _ => some (s.mem.readWord (s.reg rd).toNat)
  | .lb rd _ => some ((s.mem.read (s.reg rd).toNat).setWidth 16)

/-- The condition and the offset of a jump (R230). -/
def jumpOf (i : Instr) : Option (JumpCond × Int) :=
  match i with
  | .jmp off => some (.always, off)
  | .jmpeq off => some (.eq, off)
  | .jmpne off => some (.ne, off)
  | .jmpgt off => some (.gt, off)
  | .jmplt off => some (.lt, off)
  | .jmpge off => some (.ge, off)
  | .jmple off => some (.le, off)
  | .halt | .brk | .not _ | .push _ | .pop _ | .print _ | .read _ => none
  | .sl _ _ | .sru _ _ | .srs _ _ | .mov _ _ | .add _ _ | .sub _ _ | .and _ _ | .or _ _ | .xor _ _ | .cmp _ _ => none
  | .sw _ _ | .lw _ _ | .sb _ _ | .lb _ _ => none
  | .movi _ _ | .addi _ _ | .subi _ _ | .andi _ _ | .ori _ _ | .xori _ _ => none

/-- The instructions whose rule updates the flags: those of setZS, and CMP (R27). -/
def updatesFlags (i : Instr) : Bool :=
  match i with
  | .sl _ _ | .sru _ _ | .srs _ _ | .add _ _ | .sub _ _ | .and _ _ | .or _ _ | .xor _ _ | .cmp _ _ => true
  | .addi _ _ | .subi _ _ | .andi _ _ | .ori _ _ | .xori _ _ => true
  | .halt | .brk | .not _ | .push _ | .pop _ | .print _ | .read _ | .mov _ _ | .movi _ _ => false
  | .sw _ _ | .lw _ _ | .sb _ _ | .lb _ _ => false
  | .jmp _ | .jmpeq _ | .jmpne _ | .jmpgt _ | .jmplt _ | .jmpge _ | .jmple _ => false

/-- The instructions that write memory (R50). -/
def storesToMemory (i : Instr) : Bool :=
  match i with
  | .sw _ _ | .sb _ _ | .push _ | .read _ => true
  | .halt | .brk | .not _ | .pop _ | .print _ | .mov _ _ | .movi _ _ | .lw _ _ | .lb _ _ => false
  | .sl _ _ | .sru _ _ | .srs _ _ | .add _ _ | .sub _ _ | .and _ _ | .or _ _ | .xor _ _ | .cmp _ _ => false
  | .addi _ _ | .subi _ _ | .andi _ _ | .ori _ _ | .xori _ _ => false
  | .jmp _ | .jmpeq _ | .jmpne _ | .jmpgt _ | .jmplt _ | .jmpge _ | .jmple _ => false

/-- Where an instruction stores, if its access does not fault: the first address, and how many bytes (R190, R201, R211,
R213). -/
def storeSpan (i : Instr) (s : State) : Nat × Nat :=
  match i with
  | .sw rd _ => ((s.reg rd).toNat, 2)
  | .push _ => (s.sp.toNat, 2)
  | .sb rd _ | .read rd => ((s.reg rd).toNat, 1)
  | .halt | .brk | .not _ | .pop _ | .print _ | .mov _ _ | .movi _ _ | .lw _ _ | .lb _ _ => (0, 0)
  | .sl _ _ | .sru _ _ | .srs _ _ | .add _ _ | .sub _ _ | .and _ _ | .or _ _ | .xor _ _ | .cmp _ _ => (0, 0)
  | .addi _ _ | .subi _ _ | .andi _ _ | .ori _ _ | .xori _ _ => (0, 0)
  | .jmp _ | .jmpeq _ | .jmpne _ | .jmpgt _ | .jmplt _ | .jmpge _ | .jmple _ => (0, 0)

/-- The instructions that read memory past their fetch (R50). -/
def readsMemory (i : Instr) : Bool :=
  match i with
  | .lw _ _ | .lb _ _ | .pop _ | .print _ => true
  | .halt | .brk | .not _ | .push _ | .read _ | .mov _ _ | .movi _ _ | .sw _ _ | .sb _ _ => false
  | .sl _ _ | .sru _ _ | .srs _ _ | .add _ _ | .sub _ _ | .and _ _ | .or _ _ | .xor _ _ | .cmp _ _ => false
  | .addi _ _ | .subi _ _ | .andi _ _ | .ori _ _ | .xori _ _ => false
  | .jmp _ | .jmpeq _ | .jmpne _ | .jmpgt _ | .jmplt _ | .jmpge _ | .jmple _ => false

end Sys2Proof.Machine
end

