-- ==== Sys2Proof/Certificates/Slice0/Obligations.lean ====
section
/-! DEFINITION. The statements for the provers, and the few predicates they are written with. -/

namespace Sys2Proof.Claims

open Sys2Proof.Machine

/-! ## Predicates -/

/-- Every register outside `rs`, every byte of memory, and the console and pause flag are as before. -/
def OnlyRegs (rs : List Reg) (s t : State) : Prop := SameRegsBut rs s t ∧ SameMemory s t ∧ SameDevices s t

/-- `o` is the completed next state `t`, in which only the registers `rs` differ, and the events `es` were fired. -/
def Completes (o : StepOutcome) (s t : State) (rs : List Reg) (es : List Event) : Prop :=
  o = .next t ∧ t.status = .ready ∧ OnlyRegs rs s t ∧ t.events = s.events ++ es

/-- `o` completes as an ALU instruction with destination `rd` and result `r`: the result is written, Z and S are those of the
result, and the other bits of ST are kept (of the result, where the destination is ST). -/
def CompletesWithResult (o : StepOutcome) (s : State) (rd : Reg) (r : Word) : Prop :=
  ∃ t, Completes o s t [rd, stIndex] [.registerChanged rd, .registerChanged stIndex] ∧
    (rd ≠ stIndex → t.reg rd = r) ∧
    t.z = decide (r.toNat = 0) ∧ t.s = decide (32768 ≤ r.toNat) ∧
    ∀ b, b < 16 → b ≠ zBit → b ≠ sBit →
      t.st.getLsbD b = (if rd = stIndex then r else s.st).getLsbD b

/-- `o` is the completed next state `t`, in which only the registers `rs` and the `n` bytes from address `a` differ. -/
def CompletesWithStore (o : StepOutcome) (s t : State) (rs : List Reg) (a n : Nat) : Prop :=
  o = .next t ∧ t.status = .ready ∧ SameRegsBut rs s t ∧
    ∀ b, (b < a ∨ a + n ≤ b) → t.mem.read b = s.mem.read b

/-- `o` raises `k`, and nothing but the status latch is written. -/
def RaisesUnchanged (o : StepOutcome) (s : State) (k : Fault) : Prop :=
  ∃ t, o = .next t ∧ t.status = .terminalFailure k ∧ OnlyRegs [] s t ∧ t.events = s.events

/-- `o` completes a jump by `off` bytes if `c`, and changes nothing otherwise. -/
def JumpsWhen (c : Bool) (o : StepOutcome) (s : State) (off : Int) : Prop :=
  ∃ t, o = .next t ∧ t.status = .ready ∧ OnlyRegs [pcIndex] s t ∧
    (c = true → (t.pc.toNat : Int) = ((s.pc.toNat : Int) + off) % 65536) ∧ (c = false → t.pc = s.pc)

/-- A word address (R53). -/
abbrev WordAddress (a : Word) : Prop := a.toNat ≤ 1022 ∧ a.toNat % 2 = 0

/-- The next step fetches a word: the status is not terminal and PC is a word address. -/
abbrev Fetches (s : State) : Prop := s.status.enabled = true ∧ WordAddress s.pc

/-- The bits of a word that its shape uses (R82 to R86, R95). -/
def usedBits (sh : Shape) : Word :=
  match sh with
  | .r0 => 0xFC00
  | .r1 => 0xFFE0
  | .r2 | .i | .j => 0xFFFF

/-- `f 0`, `f 1`, … are the states of a run of `n` steps that all return InProgress while the pause flag is clear. -/
def InProgressFor (n : Nat) (f : Nat → State) : Prop :=
  ∀ k, k < n → (f k).pause = false ∧ step (f k) = .next (f (k + 1)) ∧ (f (k + 1)).status = .ready

/-- `o` completes at PC `n` with the word `w` fetched there, and the step after it runs that word. -/
def RunsNext (o : StepOutcome) (n : Nat) (w : Word) : Prop :=
  ∃ t, o = .next t ∧ t.status = .ready ∧ t.pc.toNat = n ∧ t.fetch = .ok w ∧
    step t = match decodeWord w with
      | .ok i => exec i t.beginStep.advancePc
      | .error _ => raise .badOpcode t.beginStep.advancePc

/-! ## Hexadecimal digits and source text, as the spec writes them -/

/-- The character `c` is a hexadecimal digit of value `n`, in either case (R291). -/
def DigitValue (c : Char) (n : Nat) : Prop :=
  "0123456789abcdef".toList[n]? = some c ∨ "0123456789ABCDEF".toList[n]? = some c

/-- What a source line says: a label definition, an instruction that is no jump, or a jump to a label (R101, R102). -/
inductive SourceItem where
  | label (name : List Char)
  | plain (i : Instr)
  | jump (m : Mnemonic) (name : List Char)
  deriving DecidableEq, Repr

/-- A source line: what it says, how its mnemonic is spelled, and the white space and comment around it. -/
structure SourceLine where
  item : SourceItem
  spelling : List Char
  before : List Char
  gap : List Char
  after : List Char
  comment : List Char
  deriving DecidableEq, Repr

/-- A register operand (R110). -/
def registerText (r : Reg) : List Char := 'r' :: Nat.toDigits 10 r.val

/-- An immediate operand (R111). -/
def immediateText (v : Int) : List Char :=
  if v < 0 then '-' :: Nat.toDigits 10 v.natAbs else Nat.toDigits 10 v.natAbs

/-- The operands of an instruction that is no jump, in the order they are written (R102). -/
def operandTexts (i : Instr) : List (List Char) :=
  match i with
  | .halt | .brk => []
  | .not rd | .push rd | .pop rd | .print rd | .read rd => [registerText rd]
  | .sl rd rs | .sru rd rs | .srs rd rs | .mov rd rs | .add rd rs | .sub rd rs => [registerText rd, registerText rs]
  | .and rd rs | .or rd rs | .xor rd rs | .cmp rd rs => [registerText rd, registerText rs]
  | .sw rd rs | .lw rd rs | .sb rd rs | .lb rd rs => [registerText rd, registerText rs]
  | .movi rd imm | .addi rd imm | .subi rd imm | .andi rd imm | .ori rd imm | .xori rd imm =>
    [registerText rd, immediateText imm]
  | .jmp _ | .jmpeq _ | .jmpne _ | .jmpgt _ | .jmplt _ | .jmpge _ | .jmple _ => []

/-- A line without its white space and comment. -/
def SourceLine.body (l : SourceLine) : List Char :=
  match l.item with
  | .label name => name ++ [':']
  | .plain i => l.spelling ++ (operandTexts i).flatMap (l.gap ++ ·)
  | .jump _ name => l.spelling ++ l.gap ++ name

/-- A list of spaces and tabs. -/
def Blanks (cs : List Char) : Prop := ∀ c, c ∈ cs → c = ' ' ∨ c = '\t'

/-- A label name (R112). -/
def LabelName (cs : List Char) : Prop :=
  (∀ c, c ∈ cs → c.isAlpha = true ∨ c.isDigit = true ∨ c = '_') ∧ ∃ c, cs.head? = some c ∧ c.isDigit = false

/-- The line is written as R100 to R102 and R110 to R112 say; that a comment goes up to a line feed is the model's choice
(DESIGN CHOICE, log entry 11). -/
def SourceLine.ok (l : SourceLine) : Prop :=
  Blanks l.before ∧ Blanks l.after ∧ (Blanks l.gap ∧ l.gap ≠ []) ∧
  (l.comment = [] ∨ ∃ c, l.comment = '#' :: c ∧ '\n' ∉ c) ∧
  match l.item with
  | .label name => LabelName name
  | .plain i => i.wf = true ∧ i.mnemonic.shape ≠ .j ∧ l.spelling.map Char.toUpper = i.mnemonic.name.toList
  | .jump m name => m.shape = .j ∧ LabelName name ∧ l.spelling.map Char.toUpper = m.name.toList

/-- The text of the lines, each ended by a line feed, which is the model's choice (DESIGN CHOICE, log entry 11). -/
def sourceText (ls : List SourceLine) : List Char :=
  ls.flatMap fun l => l.before ++ l.body ++ l.after ++ l.comment ++ ['\n']

/-- The labels the lines define. -/
def labelNames (ls : List SourceLine) : List (List Char) :=
  ls.filterMap fun l =>
    match l.item with
    | .label name => some name
    | .plain _ | .jump _ _ => none

/-- How many instruction lines come before line `p`: a label definition takes no address (R103). -/
def wordsBefore (ls : List SourceLine) (p : Nat) : Nat :=
  (ls.take p).countP fun l =>
    match l.item with
    | .label _ => false
    | .plain _ | .jump _ _ => true

end Sys2Proof.Claims

open Sys2Proof Sys2Proof.Machine Sys2Proof.Claims

/-! ## Encoding -/

/-- Words written out from the spec's shapes and opcode map decode to what they stand for: HALT, MOVI r0 5 and JMP -2
are the source's own words; the others rest on the default map (D1, log entry 1). -/
def Obligations.WrittenWordsDecode : Prop :=
  decodeWord 0b0000000000000000 = .ok .halt ∧
  decodeWord 0b0101000000000101 = .ok (.movi 0 5) ∧
  decodeWord 0b0110101111111110 = .ok (.jmp (-2)) ∧
  decodeWord 0b0000101111100000 = .ok (.not 31) ∧
  decodeWord 0b0011000000000001 = .ok (.sub 0 1) ∧
  decodeWord 0b0100010001000001 = .ok (.sw 2 1) ∧
  decodeWord 0b1000010001000100 = .ok (.lb 2 4) ∧
  decodeWord 0b1000100000000000 = .error (.unassignedOpcode 0x22)

/-- R88, both directions: decoding an encoded instruction gives it back, as a word and as bytes in front of any
others; encoding a decoded word gives the word back with the bits its shape ignores cleared. -/
def Obligations.EncodeDecodeInverse : Prop :=
  (∀ i : Instr, i.wf = true →
    decodeWord (encode i) = .ok i ∧ ∀ rest, decodeBytes (bytesOfWord (encode i) ++ rest) = .ok (i, rest)) ∧
  (∀ (w : Word) (i : Instr), decodeWord w = .ok i →
    i.wf = true ∧ encode i = w &&& usedBits i.mnemonic.shape)

/-- R87: the packing of each shape, as a number; an immediate and an offset are masked to their fields, and an
immediate out of range is no operand of a well-formed instruction. -/
def Obligations.PackingIsArithmetic : Prop :=
  ∀ (m : Mnemonic) (rd rs : Reg) (imm off : Int),
    (m.shape = .r0 → (encode (m.instr rd rs imm off)).toNat = m.opcode.toNat * 1024) ∧
    (m.shape = .r1 → (encode (m.instr rd rs imm off)).toNat = m.opcode.toNat * 1024 + rd.val * 32) ∧
    (m.shape = .r2 → (encode (m.instr rd rs imm off)).toNat = m.opcode.toNat * 1024 + rd.val * 32 + rs.val) ∧
    (m.shape = .i →
      ((encode (m.instr rd rs imm off)).toNat : Int) = m.opcode.toNat * 1024 + rd.val * 32 + imm % 32) ∧
    (m.shape = .j → ((encode (m.instr rd rs imm off)).toNat : Int) = m.opcode.toNat * 1024 + off % 1024) ∧
    (m.shape = .i → (imm < -16 ∨ 15 < imm) → (m.instr rd rs imm off).wf = false)

/-- The decoder is total, and chooses by bits 15-10 alone: below 0x8800 an instruction with that opcode, from 0x8800
on a rejection by name; the bits its shape does not use take no part. The bound is the default map's (D1, log entry
1), and that the unused bits are ignored is the spec's own decision (D7, log entry 6). -/
def Obligations.DecoderTotalByOpcode : Prop :=
  ∀ w : Word,
    (w.toNat < 0x8800 → ∃ i, decodeWord w = .ok i ∧ i.mnemonic.opcode.toNat = w.toNat / 1024 ∧ i.wf = true) ∧
    (0x8800 ≤ w.toNat → decodeWord w = .error (.unassignedOpcode (opField w))) ∧
    ∀ (v : Word) (i : Instr), decodeWord w = .ok i →
      w &&& usedBits i.mnemonic.shape = v &&& usedBits i.mnemonic.shape → decodeWord v = .ok i

/-- R89 and R90: the operand of an I or a J word is its field, sign-extended to 16 bits; a step that takes a jump adds
it to the PC already past the jump, modulo 2^16, so that an odd offset makes PC odd, which faults at the next fetch.
-/
def Obligations.FieldsSignExtend : Prop :=
  (∀ w : Word,
    ((w.toNat % 32 < 16 → (immWord (immField w)).toNat = w.toNat % 32) ∧
      (16 ≤ w.toNat % 32 → (immWord (immField w)).toNat = w.toNat % 32 + 65504)) ∧
    ((w.toNat % 1024 < 512 → (offWord (offField w)).toNat = w.toNat % 1024) ∧
      (512 ≤ w.toNat % 1024 → (offWord (offField w)).toNat = w.toNat % 1024 + 64512)) ∧
    ∀ i, decodeWord w = .ok i →
      (i.mnemonic.shape = .i → ∃ rd, i = i.mnemonic.instr rd 0 (immField w) 0) ∧
      (i.mnemonic.shape = .j → i = i.mnemonic.instr 0 0 0 (offField w))) ∧
  ∀ (s : State) (i : Instr) (c : JumpCond) (off : Int), Fetches s →
    decodeWord (s.mem.readWord s.pc.toNat) = .ok i → jumpOf i = some (c, off) → c.holds s.z s.s = true →
    ∃ t, step s = .next t ∧ t.status = .ready ∧
      t.pc.toNat = (s.pc.toNat + 2 + (offWord (offField (s.mem.readWord s.pc.toNat))).toNat) % 65536 ∧
      (off % 2 = 1 → ∃ k u, step t = .next u ∧ u.status = .terminalFailure k ∧ u.pc = t.pc)

/-! ## Registers, memory, reset -/

/-- R51: the high byte of a word stands at the lower address, for data written, data read and the fetch. -/
def Obligations.WordsAreBigEndian : Prop :=
  ∀ (m : Memory) (a : Nat) (v : Word), m.wf → a + 1 < 1024 →
    ((m.writeWord a v).read a).toNat = v.toNat / 256 ∧
    ((m.writeWord a v).read (a + 1)).toNat = v.toNat % 256 ∧
    (m.readWord a).toNat = (m.read a).toNat * 256 + (m.read (a + 1)).toNat ∧
    (m.writeWord a v).readWord a = v ∧
    (∀ b, b ≠ a → b ≠ a + 1 → (m.writeWord a v).read b = m.read b) ∧
    ∀ s : State, s.mem = m.writeWord a v → s.pc.toNat = a → a % 2 = 0 → s.fetch = .ok v

/-- What reset leaves (R35, R290). The console, the pause flag and the status are the spec's own choice (D15, D28),
and the empty event channel is the model's (log entry 8). Reset is the host's operation in every state. -/
def Obligations.ResetValues : Prop :=
  ∀ s : State, ∃ t, hostApply false (.write .reset) s = .ok (t, .done) ∧
    t.pc.toNat = 128 ∧ t.sp.toNat = 1022 ∧ (∀ r, r ≠ pcIndex → r ≠ spIndex → t.reg r = 0) ∧
    (∀ a, t.mem.read a = 0) ∧ t.status = .ready ∧ t.pause = false ∧ t.inq = [] ∧ t.outbuf = [] ∧ t.events = [] ∧
    t = core.reset

/-! ## The step -/

/-- When the word at PC decodes, the step is that instruction's meaning on the state whose PC is already past it
(R131, R132). The event channel begins empty (log entry 8). It rests on the spec's own decision D19 (log entry 6). -/
def Obligations.StepRunsDecodedInstruction : Prop :=
  ∀ (s : State) (i : Instr), Fetches s → decodeWord (s.mem.readWord s.pc.toNat) = .ok i →
    i.wf = true ∧
    ∃ u, step s = exec i u ∧ u.pc.toNat = s.pc.toNat + 2 ∧ OnlyRegs [pcIndex] s u ∧
      u.status = s.status ∧ u.events = [.registerChanged pcIndex]

/-- R130: the fetch checks PC, bounds before alignment, and reads the big-endian word there; a fetch fault changes
nothing but the status latch (and empties the model's event channel, log entry 8). It rests on the spec's own decision
D8 (log entry 6). -/
def Obligations.FetchChecksThenReads : Prop :=
  ∀ s : State,
    (1022 < s.pc.toNat → s.fetch = .error .memoryBounds) ∧
    (s.pc.toNat ≤ 1022 → s.pc.toNat % 2 = 1 → s.fetch = .error .memoryAlignment) ∧
    (WordAddress s.pc → ∃ w, s.fetch = .ok w ∧
      w.toNat = (s.mem.read s.pc.toNat).toNat * 256 + (s.mem.read (s.pc.toNat + 1)).toNat) ∧
    (∀ k, s.status.enabled = true → s.fetch = .error k →
      ∃ t, step s = .next t ∧ t.status = .terminalFailure k ∧ OnlyRegs [] s t ∧ t.events = [])

/-- An unassigned opcode ends the step with BadOpcode, PC already advanced, nothing else written (R94, R132, R253).
Which opcodes are unassigned is the default map's (D1, log entry 1). -/
def Obligations.UnassignedOpcodeRaisesBadOpcode : Prop :=
  ∀ s : State, Fetches s → 0x8800 ≤ (s.mem.readWord s.pc.toNat).toNat →
    ∃ t, step s = .next t ∧ t.status = .terminalFailure .badOpcode ∧ t.pc.toNat = s.pc.toNat + 2 ∧
      OnlyRegs [pcIndex] s t

/-- A step has a next state exactly in the statuses Ready, Paused and Breakpoint; in a terminal status it answers what
is latched (R135, D14). That the answer is a fault or a refusal is the model's reading (log entry 7). -/
def Obligations.StepEnabledUnlessTerminal : Prop :=
  ∀ s : State,
    ((∃ t, step s = .next t) ↔ (s.status = .ready ∨ s.status = .paused ∨ s.status = .breakpoint)) ∧
    (∀ k, step s = .fault k ↔ s.status = .terminalFailure k) ∧
    (∀ r, step s = .refused r ↔ (s.status = .terminalSuccess ∧ r = .halted))

/-- R133: a step returns InProgress, Breakpoint from BREAK, TerminalSuccess from HALT, or one of three failures; never
Paused, never StepLimitExceeded. The latch holds it. -/
def Obligations.StepOutcomesAreFour : Prop :=
  ∀ s t : State, step s = .next t →
    t.status = .ready ∨
    (t.status = .breakpoint ∧ decodeWord (s.mem.readWord s.pc.toNat) = .ok .brk) ∨
    (t.status = .terminalSuccess ∧ decodeWord (s.mem.readWord s.pc.toNat) = .ok .halt) ∨
    ∃ k, t.status = .terminalFailure k ∧ k ≠ .stepLimitExceeded

/-- Where PC stands after a step, row by row of R136: at a fetch fault, unchanged; after any fault past the fetch, and
after an instruction that neither jumps nor writes PC, two further; after a jump, as its condition says; after an
instruction whose register write goes to PC, the value it writes. What the rows for a result or a load write rests on
the spec's own D9 (log entry 4), D10, D11 and D12 (log entry 6). -/
def Obligations.NextPcCases : Prop :=
  ∀ s t : State, step s = .next t →
    (checkWord s.pc ≠ none → t.pc = s.pc) ∧
    (checkWord s.pc = none →
      ((∃ k, t.status = .terminalFailure k) → t.pc = s.pc + 2) ∧
      ∀ i, decodeWord (s.mem.readWord s.pc.toNat) = .ok i →
        (destination i ≠ some pcIndex → jumpOf i = none → t.pc = s.pc + 2) ∧
        (∀ c off, jumpOf i = some (c, off) →
          t.pc = if c.holds s.z s.s then jumpTarget (s.pc + 2) off else s.pc + 2) ∧
        (destination i = some pcIndex → (∀ k, t.status ≠ .terminalFailure k) →
          writtenValue i s.advancePc = some t.pc))

/-- Every fault is precise (R253): memory and the devices are as before; of the registers only PC has moved, or PC and
SP where the instruction was POP, and none at a fetch fault. -/
def Obligations.FaultsArePrecise : Prop :=
  ∀ (s t : State) (k : Fault), step s = .next t → t.status = .terminalFailure k →
    SameMemory s t ∧ SameDevices s t ∧
    (checkWord s.pc ≠ none → SameRegsBut [] s t) ∧
    (∀ rd, decodeWord (s.mem.readWord s.pc.toNat) = .ok (.pop rd) →
      SameRegsBut [pcIndex, spIndex] s t ∧ (checkWord s.pc = none → t.sp = s.sp + 2)) ∧
    ((∀ rd, decodeWord (s.mem.readWord s.pc.toNat) ≠ .ok (.pop rd)) → SameRegsBut [pcIndex] s t)

/-! ## System and register-operand instructions -/

/-- R139: HALT ends in TerminalSuccess and writes nothing; as a step it leaves PC past itself, every word 0x0000 to
0x03FF is one, and no step follows. It rests on the spec's own decisions D7 and D14 (log entries 6 and 7). -/
def Obligations.HaltEndsTheRun : Prop :=
  (∀ s : State, ∃ t, exec .halt s = .next t ∧ t.status = .terminalSuccess ∧ OnlyRegs [] s t ∧ t.events = s.events) ∧
  encode .halt = 0x0000 ∧
  ∀ s : State, Fetches s → (s.mem.readWord s.pc.toNat).toNat < 0x0400 →
    ∃ t, step s = .next t ∧ t.status = .terminalSuccess ∧ t.pc.toNat = s.pc.toNat + 2 ∧ OnlyRegs [pcIndex] s t ∧
      ∀ u, step t ≠ .next u

/-- BREAK suspends and writes nothing but the status; the machine may be stepped on from PC as it is (R140, R257). -/
def Obligations.BreakSuspends : Prop :=
  ∀ s : State, ∃ t, exec .brk s = .next t ∧ t.status = .breakpoint ∧ OnlyRegs [] s t ∧ t.events = s.events ∧
    ∃ u, step t = .next u

/-- NOT complements its register and MOV copies one, whichever registers are named; neither updates a flag (R164,
R168). It rests on the spec's own decision D19 (log entry 6). -/
def Obligations.NotAndMovKeepFlags : Prop :=
  ∀ (s : State) (rd rs : Reg),
    (∃ t, Completes (exec (.not rd) s) s t [rd] [.registerChanged rd] ∧ (t.reg rd).toNat = 65535 - (s.reg rd).toNat) ∧
    (∃ t, Completes (exec (.mov rd rs) s) s t [rd] [.registerChanged rd] ∧ t.reg rd = s.reg rs)

/-- R220: MOVI writes the sign-extended immediate and updates no flag; its word is 0x5000 | D<<5 | (imm & 0x1F).
Written into PC, the value can be fetched from exactly when it is even and at most 14. -/
def Obligations.MoviWritesImmediate : Prop :=
  ∀ (s : State) (rd : Reg) (imm : Int), -16 ≤ imm → imm ≤ 15 →
    (∃ t, exec (.movi rd imm) s = .next t ∧ t.status = .ready ∧ OnlyRegs [rd] s t ∧
      ((t.reg rd).toNat : Int) = if imm < 0 then imm + 65536 else imm) ∧
    ((encode (.movi rd imm)).toNat : Int) = 0x5000 + rd.val * 32 + imm % 32 ∧
    ∀ t, exec (.movi pcIndex imm) s = .next t → ((∃ w, t.fetch = .ok w) ↔ (0 ≤ imm ∧ imm ≤ 14 ∧ imm % 2 = 0))

/-- ADD and ADDI: the sum modulo 2^16, then Z and S (R169, R221, R160). The flags' places, that S is bit 15, and the
order where the destination is ST are the spec's own choice (D4, D5, D18; log entries 3 and 6). It rests on the spec's
own decision D19 (log entry 6). -/
def Obligations.AddWraps : Prop :=
  ∀ (s : State) (rd rs : Reg) (imm : Int),
    (∃ r : Word, r.toNat = ((s.reg rd).toNat + (s.reg rs).toNat) % 65536 ∧
      CompletesWithResult (exec (.add rd rs) s) s rd r) ∧
    (∃ r : Word, (r.toNat : Int) = (((s.reg rd).toNat : Int) + imm) % 65536 ∧
      CompletesWithResult (exec (.addi rd imm) s) s rd r)

/-- SUB and SUBI: the difference modulo 2^16, then Z and S (R170, R222, R160; D4, D5, D18, log entries 3 and 6). It
rests on the spec's own decision D19 (log entry 6). -/
def Obligations.SubWraps : Prop :=
  ∀ (s : State) (rd rs : Reg) (imm : Int),
    (∃ r : Word, (r.toNat : Int) = (((s.reg rd).toNat : Int) - ((s.reg rs).toNat : Int)) % 65536 ∧
      CompletesWithResult (exec (.sub rd rs) s) s rd r) ∧
    (∃ r : Word, (r.toNat : Int) = (((s.reg rd).toNat : Int) - imm) % 65536 ∧
      CompletesWithResult (exec (.subi rd imm) s) s rd r)

/-- AND, OR, XOR and ANDI, ORI, XORI, bit by bit, then Z and S (R171 to R173, R223 to R225, R89, R160; D4, D5, D18,
log entries 3 and 6). The immediate is sign-extended: its bits 15 to 4 are all its sign. It rests on the spec's own
decision D19 (log entry 6). -/
def Obligations.LogicIsBitwise : Prop :=
  ∀ (s : State) (rd rs : Reg) (imm : Int),
    ((∃ r : Word, (∀ b, b < 16 → r.getLsbD b = ((s.reg rd).getLsbD b && (s.reg rs).getLsbD b)) ∧
      CompletesWithResult (exec (.and rd rs) s) s rd r) ∧
    (∃ r : Word, (∀ b, b < 16 → r.getLsbD b = ((s.reg rd).getLsbD b || (s.reg rs).getLsbD b)) ∧
      CompletesWithResult (exec (.or rd rs) s) s rd r) ∧
    (∃ r : Word, (∀ b, b < 16 → r.getLsbD b = Bool.xor ((s.reg rd).getLsbD b) ((s.reg rs).getLsbD b)) ∧
      CompletesWithResult (exec (.xor rd rs) s) s rd r)) ∧
    (-16 ≤ imm → imm ≤ 15 →
      ∃ v : Word, (v.toNat : Int) = imm % 65536 ∧ (∀ b, 4 ≤ b → b < 16 → v.getLsbD b = decide (imm < 0)) ∧
      (∃ r : Word, (∀ b, b < 16 → r.getLsbD b = ((s.reg rd).getLsbD b && v.getLsbD b)) ∧
        CompletesWithResult (exec (.andi rd imm) s) s rd r) ∧
      (∃ r : Word, (∀ b, b < 16 → r.getLsbD b = ((s.reg rd).getLsbD b || v.getLsbD b)) ∧
        CompletesWithResult (exec (.ori rd imm) s) s rd r) ∧
      (∃ r : Word, (∀ b, b < 16 → r.getLsbD b = Bool.xor ((s.reg rd).getLsbD b) (v.getLsbD b)) ∧
        CompletesWithResult (exec (.xori rd imm) s) s rd r))

/-- SL by the full value of the amount register: a product modulo 2^16 below 16, and 0 from 16 on, which is the spec's
own default (R162, R163, R165; D9, log entry 4). It rests on the spec's own decisions D4, D5, D18 and D19 (log entries
3 and 6). -/
def Obligations.ShiftLeftMultiplies : Prop :=
  ∀ (s : State) (rd rs : Reg), ∃ r : Word, CompletesWithResult (exec (.sl rd rs) s) s rd r ∧
    ((s.reg rs).toNat < 16 → r.toNat = (s.reg rd).toNat * 2 ^ (s.reg rs).toNat % 65536) ∧
    (16 ≤ (s.reg rs).toNat → r.toNat = 0)

/-- SRU: the quotient by a power of two, and 0 from 16 on by the spec's default (R162, R163, R166; D9, log entry 4).
It rests on the spec's own decisions D4, D5, D18 and D19 (log entries 3 and 6). -/
def Obligations.ShiftRightDivides : Prop :=
  ∀ (s : State) (rd rs : Reg), ∃ r : Word, CompletesWithResult (exec (.sru rd rs) s) s rd r ∧
    ((s.reg rs).toNat < 16 → r.toNat = (s.reg rd).toNat / 2 ^ (s.reg rs).toNat) ∧
    (16 ≤ (s.reg rs).toNat → r.toNat = 0)

/-- SRS: the quotient of the signed value, rounded toward minus infinity (D10), and the sign fill from 16 on by the
spec's default (R162, R163, R167; D9, log entry 4). It rests on the spec's own decisions D4, D5, D18 and D19 (log
entries 3 and 6). -/
def Obligations.ShiftRightSignedDivides : Prop :=
  ∀ (s : State) (rd rs : Reg), ∃ r : Word, CompletesWithResult (exec (.srs rd rs) s) s rd r ∧
    ((s.reg rs).toNat < 16 → r.toInt = Int.fdiv (s.reg rd).toInt (2 ^ (s.reg rs).toNat)) ∧
    (16 ≤ (s.reg rs).toNat → r.toInt = if (s.reg rd).toInt < 0 then -1 else 0)

/-- CMP writes Z and S only: Z where equal, S where dest is below src as unsigned numbers, which is the spec's own
reading (R174, D6, log entry 6). The other bits of ST and every other register stay. It rests on the spec's own
decisions D4 and D19 (log entries 3 and 6). -/
def Obligations.CmpComparesUnsigned : Prop :=
  ∀ (s : State) (rd rs : Reg), ∃ t,
    Completes (exec (.cmp rd rs) s) s t [stIndex] [.registerChanged stIndex] ∧
    t.z = decide ((s.reg rd).toNat = (s.reg rs).toNat) ∧ t.s = decide ((s.reg rd).toNat < (s.reg rs).toNat) ∧
    ∀ b, b < 16 → b ≠ zBit → b ≠ sBit → t.st.getLsbD b = s.st.getLsbD b

/-- Only the instructions of R27's lists touch ST: any other leaves it as it was, unless ST is the register it writes.
That LW and LB write x[rs] is D12 (log entry 6). -/
def Obligations.OtherInstructionsKeepStatusRegister : Prop :=
  ∀ (i : Instr) (s t : State), exec i s = .next t → updatesFlags i = false → destination i ≠ some stIndex →
    t.st = s.st

/-! ## Stack -/

/-- PUSH stores the register big-endian at SP, then moves SP down by 2 modulo 2^16 (R190). It rests on the spec's own
decision D19 (log entry 6). -/
def Obligations.PushStoresThenDescends : Prop :=
  ∀ (s : State) (rd : Reg), s.mem.wf → WordAddress s.sp →
    ∃ t, CompletesWithStore (exec (.push rd) s) s t [spIndex] s.sp.toNat 2 ∧ SameDevices s t ∧
      (t.mem.read s.sp.toNat).toNat = (s.reg rd).toNat / 256 ∧
      (t.mem.read (s.sp.toNat + 1)).toNat = (s.reg rd).toNat % 256 ∧
      t.sp.toNat = (s.sp.toNat + 65534) % 65536 ∧
      t.events = s.events ++ [.memoryChanged s.sp.toNat, .memoryChanged (s.sp.toNat + 1), .registerChanged spIndex]

/-- POP moves SP up by 2 modulo 2^16, then loads the big-endian word there; a destination SP or PC takes the loaded
word (R191). It rests on the spec's own decision D19 (log entry 6). -/
def Obligations.PopAscendsThenLoads : Prop :=
  ∀ (s : State) (rd : Reg) (a : Nat), a = (s.sp.toNat + 2) % 65536 → a ≤ 1022 → a % 2 = 0 →
    ∃ t, Completes (exec (.pop rd) s) s t [spIndex, rd] [.registerChanged spIndex, .registerChanged rd] ∧
      (t.reg rd).toNat = (s.mem.read a).toNat * 256 + (s.mem.read (a + 1)).toNat ∧
      (rd ≠ spIndex → t.sp.toNat = a)

/-- POP faults on the moved SP, bounds before alignment, and the move stays; nothing else is written (R191, R253). It
rests on the spec's own decision D8 (log entry 6). -/
def Obligations.PopFaultKeepsMovedPointer : Prop :=
  ∀ (s : State) (rd : Reg) (a : Nat), a = (s.sp.toNat + 2) % 65536 → (1022 < a ∨ a % 2 = 1) →
    ∃ t, exec (.pop rd) s = .next t ∧
      t.status = .terminalFailure (if 1022 < a then .memoryBounds else .memoryAlignment) ∧
      OnlyRegs [spIndex] s t ∧ t.sp.toNat = a

/-- A POP right after a PUSH gives the pushed value back, and SP its value from before unless SP is what is popped
into (R191, R192), wherever the stack slot is a word of memory. -/
def Obligations.PopUndoesPush : Prop :=
  ∀ (s : State) (rd re : Reg), s.mem.wf → WordAddress s.sp →
    ∃ t u, exec (.push rd) s = .next t ∧ exec (.pop re) t = .next u ∧ u.status = .ready ∧ u.reg re = s.reg rd ∧
      (re ≠ spIndex → u.sp = s.sp) ∧ SameRegsBut [spIndex, re] s u ∧ SameMemory t u

/-! ## Console -/

/-- PRINT appends the byte at its address, and the buffer keeps the most recent 128 (R200). The byte is the character
code by the spec's own choice (D13, log entry 6). It rests on the spec's own decision D19 (log entry 6). -/
def Obligations.PrintAppendsByte : Prop :=
  ∀ (s : State) (rd : Reg), (s.reg rd).toNat ≤ 1023 →
    ∃ t, exec (.print rd) s = .next t ∧ t.status = .ready ∧ SameRegsBut [] s t ∧ SameMemory s t ∧
      t.inq = s.inq ∧ t.pause = s.pause ∧ t.events = s.events ++ [.outputChanged] ∧
      t.outbuf = (s.outbuf ++ [s.mem.read (s.reg rd).toNat]).drop (s.outbuf.length + 1 - 128) ∧
      t.outbuf.length ≤ 128 ∧ t.outbuf.getLast? = some (s.mem.read (s.reg rd).toNat)

/-- READ stores the next input code, modulo 256 (D13, log entry 6), and takes it off the queue; on an empty queue it
stores 0 and takes nothing (R201). It rests on the spec's own decision D19 (log entry 6). -/
def Obligations.ReadStoresNextCode : Prop :=
  ∀ (s : State) (rd : Reg), s.mem.wf → (s.reg rd).toNat ≤ 1023 →
    ∃ t, CompletesWithStore (exec (.read rd) s) s t [] (s.reg rd).toNat 1 ∧ t.outbuf = s.outbuf ∧ t.pause = s.pause ∧
      (s.inq = [] → t.mem.read (s.reg rd).toNat = 0 ∧ t.inq = [] ∧
        t.events = s.events ++ [.memoryChanged (s.reg rd).toNat]) ∧
      (∀ c cs, s.inq = c :: cs → (t.mem.read (s.reg rd).toNat).toNat = c % 256 ∧ t.inq = cs ∧
        t.events = s.events ++ [.inputChanged, .memoryChanged (s.reg rd).toNat])

/-- The console is reached by PRINT and READ only (R202): a step that changes a buffer ran that instruction. -/
def Obligations.ConsoleReachedOnlyByPrintAndRead : Prop :=
  ∀ s t : State, step s = .next t →
    (t.outbuf ≠ s.outbuf → ∃ rd, decodeWord (s.mem.readWord s.pc.toNat) = .ok (.print rd)) ∧
    (t.inq ≠ s.inq → ∃ rd, decodeWord (s.mem.readWord s.pc.toNat) = .ok (.read rd))

/-! ## Loads and stores -/

/-- SW stores x[rs] big-endian at the address in x[rd] (R210, R211; which register is which is D12, log entry 6). It
rests on the spec's own decision D19 (log entry 6). -/
def Obligations.StoreWordWritesTwoBytes : Prop :=
  ∀ (s : State) (rd rs : Reg), s.mem.wf → WordAddress (s.reg rd) →
    ∃ t, CompletesWithStore (exec (.sw rd rs) s) s t [] (s.reg rd).toNat 2 ∧ SameDevices s t ∧
      (t.mem.read (s.reg rd).toNat).toNat = (s.reg rs).toNat / 256 ∧
      (t.mem.read ((s.reg rd).toNat + 1)).toNat = (s.reg rs).toNat % 256 ∧
      t.events = s.events ++ [.memoryChanged (s.reg rd).toNat, .memoryChanged ((s.reg rd).toNat + 1)]

/-- LW loads x[rs] from the big-endian word at the address in x[rd] (R212; D12, log entry 6). It rests on the spec's
own decision D19 (log entry 6). -/
def Obligations.LoadWordReadsTwoBytes : Prop :=
  ∀ (s : State) (rd rs : Reg), WordAddress (s.reg rd) →
    ∃ t, Completes (exec (.lw rd rs) s) s t [rs] [.registerChanged rs] ∧
      (t.reg rs).toNat = (s.mem.read (s.reg rd).toNat).toNat * 256 + (s.mem.read ((s.reg rd).toNat + 1)).toNat

/-- SB stores the low byte of x[rs] at the address in x[rd] (R213; D11, D12, log entry 6). It rests on the spec's own
decision D19 (log entry 6). -/
def Obligations.StoreByteWritesLowByte : Prop :=
  ∀ (s : State) (rd rs : Reg), s.mem.wf → (s.reg rd).toNat ≤ 1023 →
    ∃ t, CompletesWithStore (exec (.sb rd rs) s) s t [] (s.reg rd).toNat 1 ∧ SameDevices s t ∧
      (t.mem.read (s.reg rd).toNat).toNat = (s.reg rs).toNat % 256 ∧
      t.events = s.events ++ [.memoryChanged (s.reg rd).toNat]

/-- LB loads the byte at the address in x[rd] into x[rs], zero-extended (R214; D11, D12, log entry 6). It rests on the
spec's own decision D19 (log entry 6). -/
def Obligations.LoadByteZeroExtends : Prop :=
  ∀ (s : State) (rd rs : Reg), (s.reg rd).toNat ≤ 1023 →
    ∃ t, Completes (exec (.lb rd rs) s) s t [rs] [.registerChanged rs] ∧
      (t.reg rs).toNat = (s.mem.read (s.reg rd).toNat).toNat

/-- A word access outside [0, 1022] raises MemoryBounds, then an odd one MemoryAlignment; a byte access outside [0,
1023] raises MemoryBounds; neither writes anything, memory included (R53, R54, R55, R211 to R214, R190, R200, R201).
Address 1023 is the spec's own choice (D8, log entry 6). That LW and LB are checked at x[rd] is D12 (log entry 6). -/
def Obligations.AccessFaultsWriteNothing : Prop :=
  ∀ (s : State) (rd rs : Reg),
    (1022 < (s.reg rd).toNat →
      RaisesUnchanged (exec (.sw rd rs) s) s .memoryBounds ∧ RaisesUnchanged (exec (.lw rd rs) s) s .memoryBounds) ∧
    ((s.reg rd).toNat ≤ 1022 → (s.reg rd).toNat % 2 = 1 →
      RaisesUnchanged (exec (.sw rd rs) s) s .memoryAlignment ∧
        RaisesUnchanged (exec (.lw rd rs) s) s .memoryAlignment) ∧
    (1022 < s.sp.toNat → RaisesUnchanged (exec (.push rd) s) s .memoryBounds) ∧
    (s.sp.toNat ≤ 1022 → s.sp.toNat % 2 = 1 → RaisesUnchanged (exec (.push rd) s) s .memoryAlignment) ∧
    (1023 < (s.reg rd).toNat →
      RaisesUnchanged (exec (.sb rd rs) s) s .memoryBounds ∧ RaisesUnchanged (exec (.lb rd rs) s) s .memoryBounds ∧
        RaisesUnchanged (exec (.print rd) s) s .memoryBounds ∧ RaisesUnchanged (exec (.read rd) s) s .memoryBounds)

/-- An instruction raises a fault only on the conditions of R251's table; every other instruction never faults at
execute. That LW and LB are checked at x[rd], and that bounds come before alignment, are the spec's own decisions D12
and D8 (log entry 6). -/
def Obligations.ExecuteFaultsOnlyFromAccesses : Prop :=
  ∀ (i : Instr) (s t : State) (k : Fault), exec i s = .next t → t.status = .terminalFailure k →
    (∃ rd rs, (i = .sw rd rs ∨ i = .lw rd rs) ∧ checkWord (s.reg rd) = some k) ∨
    (∃ rd rs, (i = .sb rd rs ∨ i = .lb rd rs ∨ i = .print rd ∨ i = .read rd) ∧ checkByte (s.reg rd) = some k) ∨
    (∃ rd, i = .push rd ∧ checkWord s.sp = some k) ∨
    (∃ rd, i = .pop rd ∧ checkWord (s.sp + 2) = some k)

/-- Memory is written by SW, SB, PUSH and READ only (R50): any other instruction leaves every byte as it was. -/
def Obligations.OnlyStoresWriteMemory : Prop :=
  ∀ (i : Instr) (s t : State), exec i s = .next t → storesToMemory i = false → t.mem = s.mem

/-- Memory is read, past the fetch, by LW, LB, POP and PRINT only (R50): any other instruction does the same whatever
memory holds. With another memory in its place it ends in the same registers, status, console, pause flag and events;
every byte it stores is the same byte at the same address, so that none is computed from what memory held (R63); and
every other byte of either memory stays. That SW and SB store at x[rd] is D12 (log entry 6). -/
def Obligations.OnlyLoadsReadMemory : Prop :=
  ∀ (i : Instr) (s t : State) (m : Memory), s.mem.wf → m.wf → readsMemory i = false → exec i s = .next t →
    ∃ u, exec i { s with mem := m } = .next u ∧ u.regs = t.regs ∧ u.status = t.status ∧ u.inq = t.inq ∧
      u.outbuf = t.outbuf ∧ u.pause = t.pause ∧ u.events = t.events ∧
      ((∃ k, t.status = .terminalFailure k) → t.mem = s.mem ∧ u.mem = m) ∧
      ((∀ k, t.status ≠ .terminalFailure k) → ∀ a,
        ((storeSpan i s).1 ≤ a → a < (storeSpan i s).1 + (storeSpan i s).2 → u.mem.read a = t.mem.read a) ∧
        ((a < (storeSpan i s).1 ∨ (storeSpan i s).1 + (storeSpan i s).2 ≤ a) →
          t.mem.read a = s.mem.read a ∧ u.mem.read a = m.read a))

/-- What SW, PUSH, SB or READ stores at the next PC is what the very next step fetches and runs (R62, R296): the whole
word, or the one byte of it that was stored, at either place. The operands are read past the advance of PC, so PC may
be one of them. It rests on the spec's own decisions D11, D12 and D13 (log entry 6). -/
def Obligations.StoreIsSeenByNextFetch : Prop :=
  ∀ (s : State) (i : Instr) (n : Nat), s.mem.wf → Fetches s → decodeWord (s.mem.readWord s.pc.toNat) = .ok i →
    n = s.pc.toNat + 2 → n ≤ 1022 →
    (∀ rd rs, i = .sw rd rs → (s.advancePc.reg rd).toNat = n → RunsNext (step s) n (s.advancePc.reg rs)) ∧
    (∀ rd, i = .push rd → s.sp.toNat = n → RunsNext (step s) n (s.advancePc.reg rd)) ∧
    (∀ rd rs, i = .sb rd rs →
      ((s.advancePc.reg rd).toNat = n →
        RunsNext (step s) n (wordOfBytes (lowByte (s.advancePc.reg rs)) (s.mem.read (n + 1)))) ∧
      ((s.advancePc.reg rd).toNat = n + 1 →
        RunsNext (step s) n (wordOfBytes (s.mem.read n) (lowByte (s.advancePc.reg rs))))) ∧
    (∀ rd, i = .read rd →
      ((s.advancePc.reg rd).toNat = n →
        RunsNext (step s) n (wordOfBytes (codeByte (s.inq.headD 0)) (s.mem.read (n + 1)))) ∧
      ((s.advancePc.reg rd).toNat = n + 1 →
        RunsNext (step s) n (wordOfBytes (s.mem.read n) (codeByte (s.inq.headD 0)))))

/-! ## Jumps -/

/-- R230: the seven J-shape instructions, with the source's conditions as written. Every offset and every setting of
the flags; a target is never checked at the jump. -/
def Obligations.JumpsFollowConditions : Prop :=
  ∀ (s : State) (off : Int),
    JumpsWhen true (exec (.jmp off) s) s off ∧
    JumpsWhen s.z (exec (.jmpeq off) s) s off ∧
    JumpsWhen (!s.z) (exec (.jmpne off) s) s off ∧
    JumpsWhen (s.s && !s.z) (exec (.jmpgt off) s) s off ∧
    JumpsWhen s.s (exec (.jmplt off) s) s off ∧
    JumpsWhen (!s.s) (exec (.jmpge off) s) s off ∧
    JumpsWhen (s.s || !s.z) (exec (.jmple off) s) s off

/-- R232: JMP adds its signed offset to the advanced PC unconditionally; its word is 0x6800 | (off & 0x3FF), and
offset -2 as a step is a jump to itself. -/
def Obligations.JmpIsRelative : Prop :=
  (∀ (s : State) (off : Int), -512 ≤ off → off ≤ 511 →
    JumpsWhen true (exec (.jmp off) s) s off ∧ ((encode (.jmp off)).toNat : Int) = 0x6800 + off % 1024) ∧
  ∀ s : State, Fetches s → s.mem.readWord s.pc.toNat = 0x6BFE →
    ∃ t, step s = .next t ∧ t.status = .ready ∧ OnlyRegs [] s t

/-- The events of a jump and of MOVI: one register event for the one register written, and none for a jump not taken.
One event a write is the spec's own choice (D19), held in the model's own field (R264; log entry 8). -/
def Obligations.JumpAndMoviEvents : Prop :=
  ∀ (i : Instr) (s t : State), exec i s = .next t →
    (∀ c off, jumpOf i = some (c, off) →
      t.events = s.events ++ (if c.holds s.z s.s then [.registerChanged pcIndex] else [])) ∧
    (∀ rd imm, i = .movi rd imm → t.events = s.events ++ [.registerChanged rd])

/-- A register write to PC is a jump to the written value (R22, R136, R240), checked only by the next fetch, which
faults with PC left there (R137, R239): for every instruction whose register write goes to PC, wherever it faults at
no access of its own, and without that condition for those that read no memory. What a result or a load writes rests
on the spec's own D9 (log entry 4), D10, D11 and D12 (log entry 6). -/
def Obligations.WritingPcRedirectsFetch : Prop :=
  ∀ (s : State) (i : Instr), Fetches s → decodeWord (s.mem.readWord s.pc.toNat) = .ok i →
    destination i = some pcIndex →
    (readsMemory i = false → ∃ t, step s = .next t ∧ t.status = .ready) ∧
    (∀ rd, i = .lw rd pcIndex → WordAddress (s.advancePc.reg rd) → ∃ t, step s = .next t ∧ t.status = .ready) ∧
    (∀ rd, i = .lb rd pcIndex → (s.advancePc.reg rd).toNat ≤ 1023 → ∃ t, step s = .next t ∧ t.status = .ready) ∧
    (i = .pop pcIndex → WordAddress (s.sp + 2) → ∃ t, step s = .next t ∧ t.status = .ready) ∧
    ∀ t, step s = .next t → t.status = .ready →
      writtenValue i s.advancePc = some t.pc ∧
      (WordAddress t.pc → t.fetch = .ok (s.mem.readWord t.pc.toNat)) ∧
      (¬WordAddress t.pc → ∃ k u, step t = .next u ∧ u.status = .terminalFailure k ∧ u.pc = t.pc)

/-- After CMP, what each conditional jump tests (R231): EQ, NE, LT and GE compare as their names say; GT is taken
exactly where dest is below src, and LE exactly where they differ. The unsigned reading is D6's (log entry 6). -/
def Obligations.CompareThenBranch : Prop :=
  ∀ (s t : State) (rd rs : Reg) (off : Int), exec (.cmp rd rs) s = .next t →
    JumpsWhen (decide (s.reg rd = s.reg rs)) (exec (.jmpeq off) t) t off ∧
    JumpsWhen (decide (s.reg rd ≠ s.reg rs)) (exec (.jmpne off) t) t off ∧
    JumpsWhen (decide ((s.reg rd).toNat < (s.reg rs).toNat)) (exec (.jmplt off) t) t off ∧
    JumpsWhen (decide ((s.reg rs).toNat ≤ (s.reg rd).toNat)) (exec (.jmpge off) t) t off ∧
    JumpsWhen (decide ((s.reg rd).toNat < (s.reg rs).toNat)) (exec (.jmpgt off) t) t off ∧
    JumpsWhen (decide (s.reg rd ≠ s.reg rs)) (exec (.jmple off) t) t off

/-! ## Whole-machine rules -/

/-- Every step keeps memory in canonical form inside the address space (R28) and the output buffer at most 128 long
(R32), from every state that has them so. -/
def Obligations.StepKeepsInvariant : Prop :=
  ∀ s t : State, s.Inv → step s = .next t → t.Inv

/-- The invariant holds at reset. -/
def Obligations.ResetMeetsInvariant : Prop := core.reset.Inv

/-- Every operation of the host keeps the invariant, a whole run and a load among them (R263, R262, R292). -/
def Obligations.HostOperationsKeepInvariant : Prop :=
  ∀ (b : Bool) (op : HostOp) (s t : State) (r : HostReply), s.Inv → hostApply b op s = .ok (t, r) → t.Inv

/-- The pause flag is neither read nor written by a step (R30, R258): with the flag set otherwise, the step does the
same and leaves the flag as it was set. It rests on the spec's own decision D17 (log entry 6). -/
def Obligations.StepIgnoresPauseFlag : Prop :=
  ∀ (s t : State) (b : Bool), step s = .next t →
    t.pause = s.pause ∧ step { s with pause := b } = .next { t with pause := b }

/-- What a program can learn (R34): two states that agree on the registers, the memory and the head of the input queue
go to states that agree on the registers, the memory and the status, whatever the rest of the queue, the output
buffer, the pause flag, the events and the (enabled) status are; and where they agree on the whole queue, so do the
states they go to, so that a step keeps the agreement. -/
def Obligations.HiddenStateDoesNotLeak : Prop :=
  ∀ s s' t t' : State, s.regs = s'.regs → s.mem = s'.mem → s.inq.head? = s'.inq.head? →
    step s = .next t → step s' = .next t' →
    t.regs = t'.regs ∧ t.mem = t'.mem ∧ t.status = t'.status ∧ (s.inq = s'.inq → t.inq = t'.inq)

/-! ## The run controller and the host -/

/-- The run controller (R262): a run with the pause flag set takes no step; a run stops at the first step that does
not return InProgress, before the limit is looked at; and 10000 steps that all return InProgress end in
StepLimitExceeded with the last one complete. That the counter starts anew at each run, that a step's own outcome
comes before the limit, and that the limit is the one after the 10000th step is the spec's own decision D17 (log entry
6). -/
def Obligations.RunStepsToLimit : Prop :=
  (∀ s : State, s.status.enabled = true → s.pause = true → run s = .next (s.latch .paused)) ∧
  (∀ (f : Nat → State) (n : Nat) (t : State), n < 10000 → (f 0).status.enabled = true → InProgressFor n f →
    (f n).pause = false → step (f n) = .next t → t.status ≠ .ready → run (f 0) = .next t) ∧
  (∀ f : Nat → State, (f 0).status.enabled = true → InProgressFor 10000 f →
    run (f 0) = .next ((f 10000).latch (.terminalFailure .stepLimitExceeded)))

/-- A terminal status has no transition: a step or run asked for by the host changes nothing and returns what is
latched (R135, R256, D14), and no operation but reset changes that status. -/
def Obligations.TerminalStatusStaysUntilReset : Prop :=
  ∀ s : State, s.status.enabled = false →
    hostApply false .step s = .ok (s, .status s.status.returned) ∧
    hostApply false .run s = .ok (s, .status s.status.returned) ∧
    ∀ op t r, op ≠ .write .reset → hostApply false op s = .ok (t, r) → t.status = s.status

/-- From an observer callback every mutating operation is refused, and reading the output is not (R265, U1). That the
refusal is an answer of the model's interface is log entry 10. -/
def Obligations.ReentrantHostIsRefused : Prop :=
  ∀ (op : HostOp) (s : State),
    (op ≠ .readOutput → hostApply true op s = .error .reentrantHost) ∧
    hostApply true .readOutput s = .ok (s, .output s.outbuf) ∧
    (∀ e, hostApply false op s ≠ .error e)

/-- The host's writes (R263): setPause sets the flag, appendInput puts the codes behind those in the queue and fires
one input event (R264, D19), and neither changes anything else. A pause set between two steps of a run ends it with
Paused before the next fetch (R258); that a run takes the host's writes between its steps as an argument is log entry
9. It rests on the spec's own decision D17 (log entry 6). -/
def Obligations.HostWritesAreExact : Prop :=
  ∀ (s : State) (b : Bool) (cs : List Nat),
    (∃ t, hostApply false (.write (.setPause b)) s = .ok (t, .done) ∧ t.pause = b ∧ SameRegsBut [] s t ∧ SameMemory s t ∧
      t.status = s.status ∧ t.inq = s.inq ∧ t.outbuf = s.outbuf ∧ t.events = s.events) ∧
    (∃ t, hostApply false (.write (.appendInput cs)) s = .ok (t, .done) ∧ t.inq = s.inq ++ cs ∧ SameRegsBut [] s t ∧
      SameMemory s t ∧ t.status = s.status ∧ t.pause = s.pause ∧ t.outbuf = s.outbuf ∧
      t.events = s.events ++ [.inputChanged]) ∧
    ∀ (f : Nat → State) (n : Nat), f 0 = s → n < 10000 → s.status.enabled = true → InProgressFor n f →
      runWith (List.replicate n [] ++ [[.setPause true]]) s = .next { f n with pause := true, status := .paused }

/-- Load (R291, R292): exactly the digits 0-9, a-f and A-F are accepted; an error changes nothing; success leaves the
groups' values in order from address 128, changes no byte outside 128 to 127 + 2n, and touches nothing but memory. The
order of the checks and the case of the digits are the spec's own choice (D16, log entry 6). -/
def Obligations.LoadChecksThenWrites : Prop :=
  ∀ (s : State) (hex : String), s.mem.wf →
    (hex.toList = [] → load hex s = (.emptyCode, s)) ∧
    (hex.toList ≠ [] → (hex.toList.length % 4 ≠ 0 ∨ ∃ c, c ∈ hex.toList ∧ ∀ n, ¬DigitValue c n) →
      load hex s = (.malformedCode, s)) ∧
    (hex.toList.length % 4 = 0 → (∀ c, c ∈ hex.toList → ∃ n, DigitValue c n) → 1024 < hex.toList.length →
      load hex s = (.codeTooLong, s)) ∧
    (hex.toList ≠ [] → hex.toList.length % 4 = 0 → (∀ c, c ∈ hex.toList → ∃ n, DigitValue c n) →
      hex.toList.length ≤ 1024 →
      ∃ t, load hex s = (.ok, t) ∧
        (∀ i a b c d na nb nc nd,
          hex.toList[4 * i]? = some a → hex.toList[4 * i + 1]? = some b → hex.toList[4 * i + 2]? = some c →
          hex.toList[4 * i + 3]? = some d →
          DigitValue a na → DigitValue b nb → DigitValue c nc → DigitValue d nd →
          (t.mem.readWord (128 + 2 * i)).toNat = na * 4096 + nb * 256 + nc * 16 + nd) ∧
        (∀ a, (a < 128 ∨ 128 + hex.toList.length / 2 ≤ a) → t.mem.read a = s.mem.read a) ∧
        t = { s with mem := t.mem })

/-! ## The assembler -/

/-- The assembler (R100 to R105, R109). Whatever it emits is four lower-case hexadecimal digits for each instruction,
in program order, of well-formed instructions only. And it does assemble every source of the written form below with
at most 256 instructions, distinct labels, and a label for every jump: each instruction line gives its instruction,
and a jump line the offset target - address - 2, where a label's address is 128 plus 2 for each instruction line
before it. The written form, indented and commented as one likes, is the spec's own D21 and D26 (log entry 6), but that
each line, and with it each comment, ends at a line feed is the model's choice and no rule of the spec (DESIGN CHOICE,
log entry 11, unsafe). -/
def Obligations.AssemblerEmitsFourDigitsPerWord : Prop :=
  (∀ (policy : OffsetPolicy) (src out : String), assemble policy src = .ok out →
    ∃ is, assembleInstrs policy src.toList = .ok is ∧ (∀ i, i ∈ is → i.wf = true) ∧
      out.toList.length = 4 * is.length ∧
      (∀ c, c ∈ out.toList → c ∈ "0123456789abcdef".toList) ∧
      hexGroups out.toList = some (is.map encode)) ∧
  ∀ (policy : OffsetPolicy) (ls : List SourceLine), (∀ l, l ∈ ls → l.ok) → (labelNames ls).Nodup →
    (∀ l, l ∈ ls → ∀ m name, l.item = .jump m name → name ∈ labelNames ls) → wordsBefore ls ls.length ≤ 256 →
    ∃ is, assembleInstrs policy (sourceText ls) = .ok is ∧
      assemble policy (String.ofList (sourceText ls)) = .ok (String.ofList (hexText is)) ∧
      is.length = wordsBefore ls ls.length ∧
      ∀ p l, ls[p]? = some l →
        (∀ i, l.item = .plain i → is[wordsBefore ls p]? = some i) ∧
        (∀ m name, l.item = .jump m name → ∀ q l', ls[q]? = some l' → l'.item = .label name →
          is[wordsBefore ls p]? = some (m.instr 0 0 0
            ((128 + 2 * (wordsBefore ls q : Int)) - (128 + 2 * (wordsBefore ls p : Int)) - 2)))

/-- ASM_OFFSET_POLICY never applies to a program that load accepts (R106): up to 256 instructions, what one policy
assembles the other assembles the same. That the policy is an argument is log entry 12. It rests on the spec's own
decision D20 (log entry 12). -/
def Obligations.OffsetPolicyIrrelevantWhenLoadable : Prop :=
  ∀ (src : List Char) (is : List Instr), is.length ≤ 256 →
    (assembleInstrs .truncate src = .ok is ↔ assembleInstrs .reject src = .ok is)

/-- The toolchain and the machine agree: what the assembler writes for well-formed instructions, load accepts and
places so that the decoder reads back instruction k from address 128 + 2k (R88, R109, R291, R292). -/
def Obligations.LoadedProgramDecodesBack : Prop :=
  ∀ (is : List Instr) (s : State), (∀ i, i ∈ is → i.wf = true) → 1 ≤ is.length → is.length ≤ 256 → s.mem.wf →
    ∃ t, load (String.ofList (hexText is)) s = (.ok, t) ∧
      ∀ k i, is[k]? = some i → decodeWord (t.mem.readWord (128 + 2 * k)) = .ok i
end

