-- ==== Sys2Proof/Laws/Assembler.lean ====
section
/-! SUPPORT. What pass 1 of the assembler records: addresses that are even and at least 128 (R103), of 16 bits by their type (R16). -/

namespace Sys2Proof.Machine

theorem labelAddress_ok {a : Nat} {x : Word} (h : labelAddress a = .ok x) : x.toNat = a := by
  unfold labelAddress at h
  split at h
  · cases h; simp [BitVec.toNat_ofNat]; omega
  · cases h

theorem labelAddress_error {a : Nat} (h : 65536 ≤ a) : labelAddress a = .error .labelOutOfRange :=
  if_neg (by omega)

/-- An address as R103 says every label's is. -/
abbrev LabelAddressOk (a : Nat) : Prop := a % 2 = 0 ∧ Config.codeBase ≤ a

/-- The label scan keeps every recorded address even and at least 128 (R103). -/
theorem labelScan_addresses (lines : List (List Char)) : ∀ (a : Nat) (t t' : LabelTable), LabelAddressOk a →
    (∀ e, e ∈ t → LabelAddressOk e.2.toNat) → labelScan lines a t = .ok t' → ∀ e, e ∈ t' → LabelAddressOk e.2.toNat := by
  induction lines with
  | nil => rintro a t t' - ht h; cases h; exact ht
  | cons l rest ih =>
    intro a t t' ha ht h
    rw [labelScan] at h
    split at h
    · split at h
      · cases h
      · cases hx : labelAddress a with
        | error e => rw [hx] at h; cases h
        | ok x =>
          rw [hx] at h
          refine ih a _ t' ha (fun e he => ?_) h
          rcases List.mem_cons.mp he with rfl | he
          · rw [labelAddress_ok hx]; exact ha
          · exact ht e he
    · exact ih (a + 2) t t' ⟨by omega, by omega⟩ ht h

end Sys2Proof.Machine
end

