-- ==== Sys2Proof/Laws/Memory.lean ====
section
/-! SUPPORT. The laws of memory: reads after writes, and the canonical form. -/

namespace Sys2Proof.Machine

/-! ## Reading after a write -/

/-- An address below every listed one is unlisted. -/
theorem Memory.read_of_lt_all (m : Memory) (a : Nat) (h : ∀ c ∈ m, a < c.1) : m.read a = Memory.unlisted := by
  induction m with
  | nil => rfl
  | cons c rest ih =>
    have hc := h c (by simp)
    simp only [Memory.read]
    rw [if_neg (by omega)]
    exact ih fun d hd => h d (by simp [hd])

theorem Memory.read_insert (m : Memory) (hm : m.Pairwise (fun c d => c.1 < d.1)) (a b : Nat) (v : Byte) :
    (m.insert a v).read b = if b = a then v else m.read b := by
  induction m with
  | nil =>
    simp only [Memory.insert]
    split
    · next h => subst h; simp [Memory.read]
    · simp only [Memory.read]; by_cases h : a = b <;> simp [h, eq_comm]
  | cons c rest ih =>
    obtain ⟨k, w⟩ := c
    have hrest := (List.pairwise_cons.mp hm).1
    have ih := ih (List.Pairwise.of_cons hm)
    simp only [Memory.insert]
    split
    · next hlt =>
      have hlow : Memory.read ((k, w) :: rest) a = Memory.unlisted := by
        refine Memory.read_of_lt_all _ _ fun d hd => ?_
        rcases List.mem_cons.mp hd with rfl | hd
        · exact hlt
        · exact Nat.lt_trans hlt (hrest _ hd)
      split
      · next hv => subst hv; by_cases h : b = a <;> simp [h, hlow]
      · by_cases h : b = a
        · simp [Memory.read, h]
        · simp [Memory.read, h, Ne.symm h]
    · split
      · next heq =>
        subst heq
        have hlow : Memory.read rest a = Memory.unlisted := Memory.read_of_lt_all _ _ fun d hd => hrest _ hd
        split
        · next hv =>
          subst hv
          by_cases h : b = a
          · simp [h, hlow]
          · simp [Memory.read, h, Ne.symm h]
        · by_cases h : b = a
          · simp [Memory.read, h]
          · simp [Memory.read, h, Ne.symm h]
      · next hne =>
        simp only [Memory.read, ih]
        by_cases h : k = b
        · subst h; simp [Ne.symm hne]
        · simp [h]

/-- A read after a write gives the value written; every other address is left alone (R51, R60). -/
theorem Memory.read_write (m : Memory) (hm : m.wf) (a b : Nat) (v : Byte) (ha : a < Config.memSize) :
    (m.write a v).read b = if b = a then v else m.read b := by
  simp only [Memory.write, if_pos ha]
  exact Memory.read_insert m hm.1 a b v

/-- Nothing is stored outside the memory. -/
theorem Memory.write_outside (m : Memory) (a : Nat) (v : Byte) (ha : ¬a < Config.memSize) : m.write a v = m := by
  simp [Memory.write, ha]

/-! ## The canonical form -/

theorem Memory.mem_insert {m : Memory} {a : Nat} {v : Byte} {c : Host.Cell} (h : c ∈ m.insert a v) :
    c ∈ m ∨ (c = (a, v) ∧ v ≠ Memory.unlisted) := by
  induction m with
  | nil =>
    simp only [Memory.insert] at h
    split at h
    · simp at h
    · next hv => exact .inr ⟨by simpa using h, hv⟩
  | cons d rest ih =>
    simp only [Memory.insert] at h
    split at h
    · split at h
      · exact .inl h
      · next hv =>
        rcases List.mem_cons.mp h with rfl | h
        · exact .inr ⟨rfl, hv⟩
        · exact .inl h
    · split at h
      · split at h
        · exact .inl (List.mem_cons_of_mem _ h)
        · next hv =>
          rcases List.mem_cons.mp h with rfl | h
          · exact .inr ⟨rfl, hv⟩
          · exact .inl (List.mem_cons_of_mem _ h)
      · rcases List.mem_cons.mp h with rfl | h
        · exact .inl (by simp)
        · rcases ih h with h | h
          · exact .inl (List.mem_cons_of_mem _ h)
          · exact .inr h

theorem Memory.insert_pairwise (m : Memory) (hm : m.Pairwise (fun c d => c.1 < d.1)) (a : Nat) (v : Byte) :
    (m.insert a v).Pairwise (fun c d => c.1 < d.1) := by
  induction m with
  | nil => simp only [Memory.insert]; split <;> simp
  | cons d rest ih =>
    have hrest := (List.pairwise_cons.mp hm).1
    have htail := List.Pairwise.of_cons hm
    simp only [Memory.insert]
    split
    · next hlt =>
      split
      · exact hm
      · refine List.Pairwise.cons (fun c hc => ?_) hm
        rcases List.mem_cons.mp hc with rfl | hc
        · exact hlt
        · exact Nat.lt_trans hlt (hrest _ hc)
    · split
      · next heq =>
        split
        · exact htail
        · exact List.Pairwise.cons (fun c hc => by subst heq; exact hrest _ hc) htail
      · refine List.Pairwise.cons (fun c hc => ?_) (ih htail)
        rcases Memory.mem_insert hc with hc | ⟨rfl, -⟩
        · exact hrest _ hc
        · simp only; omega

/-- A write keeps the canonical form. -/
theorem Memory.write_wf {m : Memory} (hm : m.wf) (a : Nat) (v : Byte) : (m.write a v).wf := by
  unfold Memory.write
  split
  · next ha =>
    refine ⟨Memory.insert_pairwise m hm.1 a v, fun c hc => ?_⟩
    rcases Memory.mem_insert hc with hc | ⟨rfl, hv⟩
    · exact hm.2 c hc
    · exact ⟨ha, hv⟩
  · exact hm

/-- A word write keeps the canonical form. -/
theorem Memory.writeWord_wf {m : Memory} (hm : m.wf) (a : Nat) (v : Word) : (m.writeWord a v).wf :=
  Memory.write_wf (Memory.write_wf hm _ _) _ _

/-- The empty memory is in canonical form. -/
theorem Memory.wf_nil : Memory.wf [] := ⟨.nil, by simp⟩

/-- Two canonical memories that read the same are the same data. -/
theorem Memory.ext_read (m n : Memory) (hm : m.wf) (hn : n.wf) (h : ∀ a, m.read a = n.read a) : m = n := by
  induction m generalizing n with
  | nil =>
    cases n with
    | nil => rfl
    | cons d rest =>
      have := h d.1
      simp only [Memory.read, if_true] at this
      exact absurd this.symm (hn.2 d (by simp)).2
  | cons c m ih =>
    cases n with
    | nil =>
      have := h c.1
      simp only [Memory.read, if_true] at this
      exact absurd this (hm.2 c (by simp)).2
    | cons d n =>
      obtain ⟨k, v⟩ := c
      obtain ⟨l, w⟩ := d
      have hmr := (List.pairwise_cons.mp hm.1).1
      have hnr := (List.pairwise_cons.mp hn.1).1
      have hvz := (hm.2 (k, v) (by simp)).2
      have hwz := (hn.2 (l, w) (by simp)).2
      have hkl : k = l := by
        rcases Nat.lt_trichotomy k l with hlt | heq | hlt
        · exfalso
          have := h k
          rw [Memory.read_of_lt_all ((l, w) :: n) k] at this
          · simp only [Memory.read, if_true] at this; exact hvz this
          · intro d hd
            rcases List.mem_cons.mp hd with rfl | hd
            · exact hlt
            · exact Nat.lt_trans hlt (hnr _ hd)
        · exact heq
        · exfalso
          have := (h l).symm
          rw [Memory.read_of_lt_all ((k, v) :: m) l] at this
          · simp only [Memory.read, if_true] at this; exact hwz this
          · intro d hd
            rcases List.mem_cons.mp hd with rfl | hd
            · exact hlt
            · exact Nat.lt_trans hlt (hmr _ hd)
      subst hkl
      have hvw : v = w := by simpa [Memory.read] using h k
      subst hvw
      refine congrArg _ (ih n ⟨hm.1.of_cons, fun c hc => hm.2 c (by simp [hc])⟩
        ⟨hn.1.of_cons, fun c hc => hn.2 c (by simp [hc])⟩ fun a => ?_)
      have ha := h a
      simp only [Memory.read] at ha
      by_cases hka : k = a
      · subst hka
        rw [Memory.read_of_lt_all m k fun d hd => hmr _ hd, Memory.read_of_lt_all n k fun d hd => hnr _ hd]
      · simpa [hka] using ha

/-! ## Words -/

/-- The bytes of a word, put together again, are the word (R51). -/
@[simp] theorem wordOfBytes_highByte_lowByte (w : Word) : wordOfBytes (highByte w) (lowByte w) = w := by
  unfold wordOfBytes highByte lowByte
  ext i hi
  simp only [BitVec.getElem_append, BitVec.getElem_extractLsb', BitVec.getLsbD_eq_getElem?_getD]
  split
  · next h => simp [hi]
  · next h => rw [show 8 + (i - 8) = i by omega]; simp [hi]

/-- A byte read after a word write (R51). -/
theorem Memory.read_writeWord (m : Memory) (hm : m.wf) (a b : Nat) (v : Word) (ha : a + 1 < Config.memSize) :
    (m.writeWord a v).read b =
      if b = a then highByte v else if b = a + 1 then lowByte v else m.read b := by
  unfold Memory.writeWord
  rw [Memory.read_write _ (Memory.write_wf hm _ _) _ _ _ ha, Memory.read_write _ hm _ _ _ (by omega)]
  by_cases h : b = a
  · subst h; simp
  · simp [h]

/-- A word read back where it was written (R51, R60). -/
theorem Memory.readWord_writeWord (m : Memory) (hm : m.wf) (a : Nat) (v : Word) (ha : a + 1 < Config.memSize) :
    (m.writeWord a v).readWord a = v := by
  unfold Memory.readWord
  rw [Memory.read_writeWord _ hm _ _ _ ha, Memory.read_writeWord _ hm _ _ _ ha]
  simp

end Sys2Proof.Machine
end

