-- ==== Sys2Proof/Laws/Control.lean ====
section
/-! SUPPORT. What load's parts do: the words it writes, and the strings it takes apart. -/

namespace Sys2Proof.Machine

/-! ## Words written one after another (R292) -/

theorem Memory.writeWords_wf (ws : List Word) {m : Memory} (a : Nat) (h : m.wf) : (m.writeWords a ws).wf := by
  induction ws generalizing m a with
  | nil => exact h
  | cons w ws ih => exact ih _ (Memory.writeWord_wf h a w)

/-- A byte outside the words is left alone. -/
theorem Memory.read_writeWords (ws : List Word) {m : Memory} (a b : Nat) (hm : m.wf)
    (hl : a + 2 * ws.length ≤ Config.memSize) (hb : b < a ∨ a + 2 * ws.length ≤ b) :
    (m.writeWords a ws).read b = m.read b := by
  induction ws generalizing m a with
  | nil => rfl
  | cons w ws ih =>
    simp only [List.length_cons] at hl hb
    simp only [Memory.writeWords]
    rw [ih _ (Memory.writeWord_wf hm a w) (by omega) (by omega), Memory.read_writeWord m hm a b w (by omega),
      if_neg (by omega), if_neg (by omega)]

/-- Word `i` stands at `a + 2 * i`. -/
theorem Memory.readWord_writeWords (ws : List Word) {m : Memory} (a i : Nat) (w : Word) (hm : m.wf)
    (hl : a + 2 * ws.length ≤ Config.memSize) (hi : ws[i]? = some w) :
    (m.writeWords a ws).readWord (a + 2 * i) = w := by
  induction ws generalizing m a i with
  | nil => simp at hi
  | cons v ws ih =>
    simp only [List.length_cons] at hl
    simp only [Memory.writeWords]
    cases i with
    | zero =>
      obtain rfl : v = w := by simpa using hi
      unfold Memory.readWord
      rw [Memory.read_writeWords ws _ _ (Memory.writeWord_wf hm a v) (by omega) (by omega),
        Memory.read_writeWords ws _ _ (Memory.writeWord_wf hm a v) (by omega) (by omega)]
      exact Memory.readWord_writeWord m hm a v (by omega)
    | succ i =>
      rw [show a + 2 * (i + 1) = a + 2 + 2 * i by omega]
      exact ih (a + 2) i (Memory.writeWord_wf hm a v) (by omega) (by simpa using hi)

/-! ## Hexadecimal groups (R291) -/

theorem hexGroup_of_digits {a b c d : Char} (h : ∀ x, x ∈ [a, b, c, d] → hexValue x ≠ none) :
    ∃ w, hexGroup a b c d = some w := by
  obtain ⟨x, hx⟩ := Option.ne_none_iff_exists'.mp (h a (by simp))
  obtain ⟨y, hy⟩ := Option.ne_none_iff_exists'.mp (h b (by simp))
  obtain ⟨z, hz⟩ := Option.ne_none_iff_exists'.mp (h c (by simp))
  obtain ⟨w, hw⟩ := Option.ne_none_iff_exists'.mp (h d (by simp))
  exact ⟨_, by simp only [hexGroup, hx, hy, hz, hw]; rfl⟩

theorem digits_of_hexGroup {a b c d : Char} {w : Word} (h : hexGroup a b c d = some w) :
    ∀ x, x ∈ [a, b, c, d] → hexValue x ≠ none := by
  unfold hexGroup at h
  split at h
  · intro x hx
    simp only [List.mem_cons, List.not_mem_nil, or_false] at hx
    rcases hx with rfl | rfl | rfl | rfl <;> simp_all
  · cases h

/-- A string of groups of four digits is taken apart into as many words. -/
theorem hexGroups_of_digits (n : Nat) (cs : List Char) (hl : cs.length = 4 * n) (hd : ∀ c ∈ cs, hexValue c ≠ none) :
    ∃ ws, hexGroups cs = some ws ∧ ws.length = n := by
  induction n generalizing cs with
  | zero =>
    obtain rfl : cs = [] := List.length_eq_zero_iff.mp (by omega)
    exact ⟨[], rfl, rfl⟩
  | succ n ih =>
    match cs, hl with
    | a :: b :: c :: d :: rest, hl =>
      obtain ⟨w, hw⟩ := hexGroup_of_digits (a := a) (b := b) (c := c) (d := d) fun x hx =>
        hd x (by simp only [List.mem_cons] at hx ⊢; tauto)
      obtain ⟨ws, hws, hn⟩ := ih rest (by simp only [List.length_cons] at hl; omega) fun c hc => hd c (by simp [hc])
      exact ⟨w :: ws, by simp only [hexGroups, hw, hws], by simp [hn]⟩

/-- Only such a string is taken apart. -/
theorem digits_of_hexGroups (n : Nat) (cs : List Char) (ws : List Word) (hn : cs.length ≤ n)
    (h : hexGroups cs = some ws) : ws.length * 4 = cs.length ∧ ∀ c ∈ cs, hexValue c ≠ none := by
  induction n generalizing cs ws with
  | zero =>
    obtain rfl : cs = [] := List.length_eq_zero_iff.mp (by omega)
    cases h
    simp
  | succ n ih =>
    match cs, hn, h with
    | [], _, h => cases h; simp
    | [_], _, h => simp [hexGroups] at h
    | [_, _], _, h => simp [hexGroups] at h
    | [_, _, _], _, h => simp [hexGroups] at h
    | a :: b :: c :: d :: rest, hn, h =>
      simp only [hexGroups] at h
      split at h
      · next w ws' hw hws =>
        cases h
        obtain ⟨hlen, hd⟩ := ih rest ws' (by simp only [List.length_cons] at hn; omega) hws
        refine ⟨by simp only [List.length_cons]; omega, fun x hx => ?_⟩
        by_cases hr : x ∈ rest
        · exact hd x hr
        · exact digits_of_hexGroup hw x (by simp only [List.mem_cons] at hx ⊢; tauto)
      · cases h

/-! ## The assembler's digits read back (R109) -/

theorem hexValue_hexDigit (x : BitVec 4) : hexValue (hexDigit x.toNat) = some x.toNat := by
  have h : ∀ n : Fin 16, hexValue (hexDigit n.val) = some n.val := by decide
  exact h x.toFin

/-- The four digits the assembler writes for a word are read back as that word. -/
theorem hexGroup_wordHex (w : Word) (rest : List Char) :
    hexGroups (wordHex w ++ rest) = (hexGroups rest).map (w :: ·) := by
  have h : hexGroup (hexDigit (w.extractLsb' 12 4).toNat) (hexDigit (w.extractLsb' 8 4).toNat)
      (hexDigit (w.extractLsb' 4 4).toNat) (hexDigit (w.extractLsb' 0 4).toNat) = some w := by
    simp only [hexGroup, hexValue_hexDigit]
    congr 1
    apply BitVec.eq_of_toNat_eq
    simp only [BitVec.toNat_ofNat, BitVec.extractLsb'_toNat, Nat.shiftRight_eq_div_pow]
    omega
  simp only [wordHex, List.cons_append, List.nil_append, hexGroups, h]
  cases hexGroups rest <;> rfl

end Sys2Proof.Machine
end

