-- ==== Sys2Proof/Laws/Flags.lean ====
section
/-! SUPPORT. What a flag update does to a status word. -/

namespace Sys2Proof.Machine

/-- Every bit of a status word after a flag update: Z, S, or kept (R160, D4). -/
theorem withFlags_bit (st : Word) (z s : Bool) (b : Nat) (hb : b < 16) :
    (withFlags st z s).getLsbD b = if b = zBit then z else if b = sBit then s else st.getLsbD b := by
  simp only [withFlags, zBit, sBit]
  cases z <;> cases s <;>
    (interval_cases b <;> simp)

@[simp] theorem zOf_withFlags (st : Word) (z s : Bool) : zOf (withFlags st z s) = z := by
  rw [zOf, withFlags_bit _ _ _ _ (by decide)]; simp

@[simp] theorem sOf_withFlags (st : Word) (z s : Bool) : sOf (withFlags st z s) = s := by
  rw [sOf, withFlags_bit _ _ _ _ (by decide)]; simp [zBit, sBit]

/-! ## The computed flags as statements about numbers -/

theorem zeroFlag_eq (r : Word) : zeroFlag r = decide (r.toNat = 0) := by
  rw [zeroFlag, Bool.eq_iff_iff]; simp [BitVec.toNat_eq]

/-- Bit 15 says that the result is at least 2^15 (R160, D5). -/
theorem signFlag_eq (r : Word) : signFlag r = decide (32768 ≤ r.toNat) := by
  rw [signFlag, ← BitVec.msb_eq_getLsbD_last, BitVec.msb_eq_decide]

theorem cmpZero_eq (a b : Word) : cmpZero a b = decide (a = b) := by
  rw [cmpZero, Bool.eq_iff_iff]; simp

end Sys2Proof.Machine
end

