-- ==== Sys2Proof/Laws/State.lean ====
section
/-! SUPPORT. One lemma for each field and each update of the state, so that no proof unfolds a record update. -/

namespace Sys2Proof.Machine

/-! ### emit -/
@[simp] theorem State.emit_mem (s : State) (e : Event) : (s.emit e).mem = s.mem := rfl
@[simp] theorem State.emit_status (s : State) (e : Event) : (s.emit e).status = s.status := rfl
@[simp] theorem State.emit_pause (s : State) (e : Event) : (s.emit e).pause = s.pause := rfl
@[simp] theorem State.emit_inq (s : State) (e : Event) : (s.emit e).inq = s.inq := rfl
@[simp] theorem State.emit_outbuf (s : State) (e : Event) : (s.emit e).outbuf = s.outbuf := rfl
@[simp] theorem State.emit_events (s : State) (e : Event) : (s.emit e).events = s.events ++ [e] := rfl
@[simp] theorem State.emit_reg (s : State) (e : Event) (j : Reg) : (s.emit e).reg j = s.reg j := rfl

/-! ### writeReg -/
@[simp] theorem State.writeReg_mem (s : State) (i : Reg) (v : Word) : (s.writeReg i v).mem = s.mem := rfl
@[simp] theorem State.writeReg_status (s : State) (i : Reg) (v : Word) : (s.writeReg i v).status = s.status := rfl
@[simp] theorem State.writeReg_pause (s : State) (i : Reg) (v : Word) : (s.writeReg i v).pause = s.pause := rfl
@[simp] theorem State.writeReg_inq (s : State) (i : Reg) (v : Word) : (s.writeReg i v).inq = s.inq := rfl
@[simp] theorem State.writeReg_outbuf (s : State) (i : Reg) (v : Word) : (s.writeReg i v).outbuf = s.outbuf := rfl
@[simp] theorem State.writeReg_events (s : State) (i : Reg) (v : Word) : (s.writeReg i v).events = s.events ++ [.registerChanged i] := rfl

/-! ### setFlags -/
@[simp] theorem State.setFlags_mem (s : State) (z sg : Bool) : (s.setFlags z sg).mem = s.mem := rfl
@[simp] theorem State.setFlags_status (s : State) (z sg : Bool) : (s.setFlags z sg).status = s.status := rfl
@[simp] theorem State.setFlags_pause (s : State) (z sg : Bool) : (s.setFlags z sg).pause = s.pause := rfl
@[simp] theorem State.setFlags_inq (s : State) (z sg : Bool) : (s.setFlags z sg).inq = s.inq := rfl
@[simp] theorem State.setFlags_outbuf (s : State) (z sg : Bool) : (s.setFlags z sg).outbuf = s.outbuf := rfl
@[simp] theorem State.setFlags_events (s : State) (z sg : Bool) : (s.setFlags z sg).events = s.events ++ [.registerChanged stIndex] := rfl

/-! ### setZS -/
@[simp] theorem State.setZS_mem (s : State) (r : Word) : (s.setZS r).mem = s.mem := rfl
@[simp] theorem State.setZS_status (s : State) (r : Word) : (s.setZS r).status = s.status := rfl
@[simp] theorem State.setZS_pause (s : State) (r : Word) : (s.setZS r).pause = s.pause := rfl
@[simp] theorem State.setZS_inq (s : State) (r : Word) : (s.setZS r).inq = s.inq := rfl
@[simp] theorem State.setZS_outbuf (s : State) (r : Word) : (s.setZS r).outbuf = s.outbuf := rfl
@[simp] theorem State.setZS_events (s : State) (r : Word) : (s.setZS r).events = s.events ++ [.registerChanged stIndex] := rfl

/-! ### storeByte -/
@[simp] theorem State.storeByte_mem (s : State) (a : Nat) (v : Byte) : (s.storeByte a v).mem = s.mem.write a v := rfl
@[simp] theorem State.storeByte_status (s : State) (a : Nat) (v : Byte) : (s.storeByte a v).status = s.status := rfl
@[simp] theorem State.storeByte_pause (s : State) (a : Nat) (v : Byte) : (s.storeByte a v).pause = s.pause := rfl
@[simp] theorem State.storeByte_inq (s : State) (a : Nat) (v : Byte) : (s.storeByte a v).inq = s.inq := rfl
@[simp] theorem State.storeByte_outbuf (s : State) (a : Nat) (v : Byte) : (s.storeByte a v).outbuf = s.outbuf := rfl
@[simp] theorem State.storeByte_events (s : State) (a : Nat) (v : Byte) : (s.storeByte a v).events = s.events ++ [.memoryChanged a] := rfl
@[simp] theorem State.storeByte_reg (s : State) (a : Nat) (v : Byte) (j : Reg) : (s.storeByte a v).reg j = s.reg j := rfl

/-! ### storeWord -/
@[simp] theorem State.storeWord_mem (s : State) (a : Nat) (v : Word) : (s.storeWord a v).mem = s.mem.writeWord a v := rfl
@[simp] theorem State.storeWord_status (s : State) (a : Nat) (v : Word) : (s.storeWord a v).status = s.status := rfl
@[simp] theorem State.storeWord_pause (s : State) (a : Nat) (v : Word) : (s.storeWord a v).pause = s.pause := rfl
@[simp] theorem State.storeWord_inq (s : State) (a : Nat) (v : Word) : (s.storeWord a v).inq = s.inq := rfl
@[simp] theorem State.storeWord_outbuf (s : State) (a : Nat) (v : Word) : (s.storeWord a v).outbuf = s.outbuf := rfl
@[simp] theorem State.storeWord_events (s : State) (a : Nat) (v : Word) : (s.storeWord a v).events = s.events ++ [.memoryChanged a] ++ [.memoryChanged (a + 1)] := rfl
@[simp] theorem State.storeWord_reg (s : State) (a : Nat) (v : Word) (j : Reg) : (s.storeWord a v).reg j = s.reg j := rfl

/-! ### appendOutput -/
@[simp] theorem State.appendOutput_mem (s : State) (b : Byte) : (s.appendOutput b).mem = s.mem := rfl
@[simp] theorem State.appendOutput_status (s : State) (b : Byte) : (s.appendOutput b).status = s.status := rfl
@[simp] theorem State.appendOutput_pause (s : State) (b : Byte) : (s.appendOutput b).pause = s.pause := rfl
@[simp] theorem State.appendOutput_inq (s : State) (b : Byte) : (s.appendOutput b).inq = s.inq := rfl
@[simp] theorem State.appendOutput_outbuf (s : State) (b : Byte) : (s.appendOutput b).outbuf = keepRecent (s.outbuf ++ [b]) := rfl
@[simp] theorem State.appendOutput_events (s : State) (b : Byte) : (s.appendOutput b).events = s.events ++ [.outputChanged] := rfl
@[simp] theorem State.appendOutput_reg (s : State) (b : Byte) (j : Reg) : (s.appendOutput b).reg j = s.reg j := rfl

/-! ### takeInput -/
@[simp] theorem State.takeInput_mem (s : State) : s.takeInput.mem = s.mem := rfl
@[simp] theorem State.takeInput_status (s : State) : s.takeInput.status = s.status := rfl
@[simp] theorem State.takeInput_pause (s : State) : s.takeInput.pause = s.pause := rfl
@[simp] theorem State.takeInput_inq (s : State) : s.takeInput.inq = s.inq.tail := rfl
@[simp] theorem State.takeInput_outbuf (s : State) : s.takeInput.outbuf = s.outbuf := rfl
@[simp] theorem State.takeInput_events (s : State) : s.takeInput.events = s.events ++ [.inputChanged] := rfl
@[simp] theorem State.takeInput_reg (s : State) (j : Reg) : s.takeInput.reg j = s.reg j := rfl

/-! ### beginStep -/
@[simp] theorem State.beginStep_mem (s : State) : s.beginStep.mem = s.mem := rfl
@[simp] theorem State.beginStep_status (s : State) : s.beginStep.status = s.status := rfl
@[simp] theorem State.beginStep_pause (s : State) : s.beginStep.pause = s.pause := rfl
@[simp] theorem State.beginStep_inq (s : State) : s.beginStep.inq = s.inq := rfl
@[simp] theorem State.beginStep_outbuf (s : State) : s.beginStep.outbuf = s.outbuf := rfl
@[simp] theorem State.beginStep_events (s : State) : s.beginStep.events = [] := rfl
@[simp] theorem State.beginStep_reg (s : State) (j : Reg) : s.beginStep.reg j = s.reg j := rfl

/-! ### advancePc -/
@[simp] theorem State.advancePc_mem (s : State) : s.advancePc.mem = s.mem := rfl
@[simp] theorem State.advancePc_status (s : State) : s.advancePc.status = s.status := rfl
@[simp] theorem State.advancePc_pause (s : State) : s.advancePc.pause = s.pause := rfl
@[simp] theorem State.advancePc_inq (s : State) : s.advancePc.inq = s.inq := rfl
@[simp] theorem State.advancePc_outbuf (s : State) : s.advancePc.outbuf = s.outbuf := rfl
@[simp] theorem State.advancePc_events (s : State) : s.advancePc.events = s.events ++ [.registerChanged pcIndex] := rfl

/-! ### latch -/
@[simp] theorem State.latch_mem (s : State) (st : Status) : (s.latch st).mem = s.mem := rfl
@[simp] theorem State.latch_status (s : State) (st : Status) : (s.latch st).status = st := rfl
@[simp] theorem State.latch_pause (s : State) (st : Status) : (s.latch st).pause = s.pause := rfl
@[simp] theorem State.latch_inq (s : State) (st : Status) : (s.latch st).inq = s.inq := rfl
@[simp] theorem State.latch_outbuf (s : State) (st : Status) : (s.latch st).outbuf = s.outbuf := rfl
@[simp] theorem State.latch_events (s : State) (st : Status) : (s.latch st).events = s.events := rfl
@[simp] theorem State.latch_reg (s : State) (st : Status) (j : Reg) : (s.latch st).reg j = s.reg j := rfl

/-! ### The reserved registers and the flags are reads of the file -/

theorem State.pc_eq (s : State) : s.pc = s.reg pcIndex := rfl
theorem State.sp_eq (s : State) : s.sp = s.reg spIndex := rfl
theorem State.st_eq (s : State) : s.st = s.reg stIndex := rfl

@[simp] theorem State.latch_pc (s : State) (st : Status) : (s.latch st).pc = s.pc := rfl
@[simp] theorem State.latch_sp (s : State) (st : Status) : (s.latch st).sp = s.sp := rfl
@[simp] theorem State.latch_st (s : State) (st : Status) : (s.latch st).st = s.st := rfl
@[simp] theorem State.latch_z (s : State) (st : Status) : (s.latch st).z = s.z := rfl
@[simp] theorem State.latch_s (s : State) (st : Status) : (s.latch st).s = s.s := rfl

/-! ### Registers after a register write -/

/-- The one law of the register file: a cell holds what was last written to it (R20). -/
@[simp] theorem State.writeReg_reg (s : State) (i j : Reg) (v : Word) :
    (s.writeReg i v).reg j = if i = j then v else s.reg j := by
  simp [State.reg, State.writeReg, State.emit, Vector.getElem_set, Fin.ext_iff]

@[simp] theorem State.setFlags_reg (s : State) (z sg : Bool) (j : Reg) :
    (s.setFlags z sg).reg j = if stIndex = j then withFlags s.st z sg else s.reg j :=
  State.writeReg_reg s stIndex j _

@[simp] theorem State.setZS_reg (s : State) (r : Word) (j : Reg) :
    (s.setZS r).reg j = if stIndex = j then withFlags s.st (zeroFlag r) (signFlag r) else s.reg j :=
  State.setFlags_reg s _ _ j

@[simp] theorem State.advancePc_reg (s : State) (j : Reg) :
    s.advancePc.reg j = if pcIndex = j then s.pc + 2 else s.reg j :=
  State.writeReg_reg s pcIndex j _

@[simp] theorem State.advancePc_pc (s : State) : s.advancePc.pc = s.pc + 2 := by simp [State.pc_eq]

/-! ### What a status latches -/

@[simp] theorem ExecutionStatus.latched_inProgress : ExecutionStatus.inProgress.latched = .ready := rfl
@[simp] theorem ExecutionStatus.latched_paused : ExecutionStatus.paused.latched = .paused := rfl
@[simp] theorem ExecutionStatus.latched_breakpoint : ExecutionStatus.breakpoint.latched = .breakpoint := rfl
@[simp] theorem ExecutionStatus.latched_terminalSuccess : ExecutionStatus.terminalSuccess.latched = .terminalSuccess := rfl
@[simp] theorem ExecutionStatus.latched_terminalFailure (k : Fault) :
    (ExecutionStatus.terminalFailure k).latched = .terminalFailure k := rfl

/-! ### The reserved registers are distinct (R21) -/

@[simp] theorem pcIndex_ne_spIndex : pcIndex ≠ spIndex := by decide
@[simp] theorem pcIndex_ne_stIndex : pcIndex ≠ stIndex := by decide
@[simp] theorem spIndex_ne_stIndex : spIndex ≠ stIndex := by decide
@[simp] theorem spIndex_ne_pcIndex : spIndex ≠ pcIndex := by decide
@[simp] theorem stIndex_ne_pcIndex : stIndex ≠ pcIndex := by decide
@[simp] theorem stIndex_ne_spIndex : stIndex ≠ spIndex := by decide

/-! ### Reset (R35) -/

theorem State.reset_reg (i : Reg) :
    State.reset.reg i = if i = pcIndex then 128 else if i = spIndex then 1022 else 0 := by
  revert i; decide

@[simp] theorem State.reset_mem : State.reset.mem = [] := rfl
@[simp] theorem State.reset_status : State.reset.status = .ready := rfl
@[simp] theorem State.reset_pause : State.reset.pause = false := rfl
@[simp] theorem State.reset_inq : State.reset.inq = [] := rfl
@[simp] theorem State.reset_outbuf : State.reset.outbuf = [] := rfl
@[simp] theorem State.reset_events : State.reset.events = [] := rfl

end Sys2Proof.Machine
end

