-- ==== Sys2Proof/Laws/Ops.lean ====
section
/-! SUPPORT. What each shared operation can do, said once. -/

namespace Sys2Proof.Machine

/-! ## The address checks (R53, R54) -/

theorem bit_zero_eq_odd (a : Word) : a.getLsbD 0 = decide (a.toNat % 2 = 1) := by
  simp [BitVec.getLsbD, Nat.testBit_zero]

theorem checkWord_eq_none (a : Word) : checkWord a = none ↔ a.toNat ≤ 1022 ∧ a.toNat % 2 = 0 := by
  simp only [checkWord, Config.lastWord, bit_zero_eq_odd]
  split <;> [skip; split] <;> simp_all

theorem checkWord_eq_bounds (a : Word) : checkWord a = some .memoryBounds ↔ 1022 < a.toNat := by
  simp only [checkWord, Config.lastWord, bit_zero_eq_odd]
  split <;> [skip; split] <;> simp_all

theorem checkWord_eq_alignment (a : Word) :
    checkWord a = some .memoryAlignment ↔ a.toNat ≤ 1022 ∧ a.toNat % 2 = 1 := by
  simp only [checkWord, Config.lastWord, bit_zero_eq_odd]
  split <;> [skip; split] <;> simp_all

/-- A word check raises a memory fault or nothing. -/
theorem checkWord_cases (a : Word) :
    checkWord a = none ∨ checkWord a = some .memoryBounds ∨ checkWord a = some .memoryAlignment := by
  simp only [checkWord]
  split <;> [skip; split] <;> simp

theorem checkByte_eq_none (a : Word) : checkByte a = none ↔ a.toNat < 1024 := by
  simp only [checkByte, Config.memSize]
  split <;> simp_all

theorem checkByte_eq_bounds (a : Word) : checkByte a = some .memoryBounds ↔ 1024 ≤ a.toNat := by
  simp only [checkByte, Config.memSize]
  split <;> simp_all

/-- A byte check raises MemoryBounds or nothing. -/
theorem checkByte_cases (a : Word) : checkByte a = none ∨ checkByte a = some .memoryBounds := by
  simp only [checkByte]
  split <;> simp

/-! ## The ends of a step (R13, R250) -/

theorem finish_eq_next (e : ExecutionStatus) (s t : State) : finish e s = .next t ↔ t = s.latch e.latched := by
  simp [finish, eq_comm]

theorem complete_eq_next (s t : State) : complete s = .next t ↔ t = s.latch .ready :=
  finish_eq_next _ s t

theorem raise_eq_next (k : Fault) (s t : State) : raise k s = .next t ↔ t = s.latch (.terminalFailure k) :=
  finish_eq_next _ s t

/-! ### The flags after an update (R160, R174) -/

@[simp] theorem State.setFlags_z (s : State) (z sg : Bool) : (s.setFlags z sg).z = z := by simp [State.z, State.st_eq]
@[simp] theorem State.setFlags_s (s : State) (z sg : Bool) : (s.setFlags z sg).s = sg := by simp [State.s, State.st_eq]
@[simp] theorem State.setZS_z (s : State) (r : Word) : (s.setZS r).z = zeroFlag r := State.setFlags_z s _ _
@[simp] theorem State.setZS_s (s : State) (r : Word) : (s.setZS r).s = signFlag r := State.setFlags_s s _ _

/-! ## Checked accesses -/

theorem withWordAt_ok {a : Word} (h : checkWord a = none) (s : State) (go : Nat → StepOutcome) :
    withWordAt a s go = go a.toNat := by
  simp [withWordAt, h]

theorem withWordAt_fault {a : Word} {k : Fault} (h : checkWord a = some k) (s : State) (go : Nat → StepOutcome) :
    withWordAt a s go = raise k s := by
  simp [withWordAt, h]

/-- A word access faults before it does anything, or goes on at a checked address. -/
theorem withWordAt_next {a : Word} {s t : State} {go : Nat → StepOutcome} (h : withWordAt a s go = .next t) :
    (∃ k, checkWord a = some k ∧ t = s.latch (.terminalFailure k)) ∨
      (checkWord a = none ∧ go a.toNat = .next t) := by
  unfold withWordAt at h
  split at h
  · next k hk => exact .inl ⟨k, hk, (raise_eq_next k s t).mp h⟩
  · next hk => exact .inr ⟨hk, h⟩

theorem withByteAt_ok {a : Word} (h : checkByte a = none) (s : State) (go : Nat → StepOutcome) :
    withByteAt a s go = go a.toNat := by
  simp [withByteAt, h]

theorem withByteAt_fault {a : Word} {k : Fault} (h : checkByte a = some k) (s : State) (go : Nat → StepOutcome) :
    withByteAt a s go = raise k s := by
  simp [withByteAt, h]

/-- A byte access faults before it does anything, or goes on at a checked address. -/
theorem withByteAt_next {a : Word} {s t : State} {go : Nat → StepOutcome} (h : withByteAt a s go = .next t) :
    (∃ k, checkByte a = some k ∧ t = s.latch (.terminalFailure k)) ∨
      (checkByte a = none ∧ go a.toNat = .next t) := by
  unfold withByteAt at h
  split at h
  · next k hk => exact .inl ⟨k, hk, (raise_eq_next k s t).mp h⟩
  · next hk => exact .inr ⟨hk, h⟩

/-! ## Results and jumps -/

/-- An ALU instruction always ends in the one next state. -/
theorem State.writeResult_next (s t : State) (rd : Reg) (r : Word) :
    s.writeResult rd r = .next t ↔ t = ((s.writeReg rd r).setZS r).latch .ready :=
  complete_eq_next _ t

/-- A jump is taken, and writes PC only, or it changes nothing. -/
theorem State.jumpIf_next {s t : State} {c : JumpCond} {off : Int} (h : s.jumpIf c off = .next t) :
    (c.holds s.z s.s = true ∧ t = (s.writeReg pcIndex (jumpTarget s.pc off)).latch .ready) ∨
      (c.holds s.z s.s = false ∧ t = s.latch .ready) := by
  unfold State.jumpIf at h
  split at h
  · next hc => exact .inl ⟨hc, (complete_eq_next _ t).mp h⟩
  · next hc => exact .inr ⟨by simpa using hc, (complete_eq_next _ t).mp h⟩

/-! ## The console -/

/-- The output buffer never holds more than its cap (R32). -/
theorem keepRecent_length (l : List Byte) : (keepRecent l).length ≤ Config.outCap := by
  simp only [keepRecent, List.length_reverse, List.length_take]; omega

/-- Below the cap nothing is dropped (R200). -/
theorem keepRecent_of_le {l : List Byte} (h : l.length ≤ Config.outCap) : keepRecent l = l := by
  rw [keepRecent, List.take_of_length_le (by simpa using h), List.reverse_reverse]

/-- What is kept is the end of the list (R200). -/
theorem keepRecent_eq_drop (l : List Byte) : keepRecent l = l.drop (l.length - Config.outCap) := by
  rw [keepRecent, List.take_reverse, List.reverse_reverse]

/-! ## The beginning of a step -/

theorem State.fetch_of_ok {s : State} (h : checkWord s.pc = none) : s.fetch = .ok (s.mem.readWord s.pc.toNat) := by
  simp [State.fetch, h]

theorem State.fetch_of_fault {s : State} {k : Fault} (h : checkWord s.pc = some k) : s.fetch = .error k := by
  simp [State.fetch, h]

/-- The channel of events is no input of the fetch. -/
@[simp] theorem State.beginStep_pc (s : State) : s.beginStep.pc = s.pc := rfl

@[simp] theorem State.beginStep_fetch (s : State) : s.beginStep.fetch = s.fetch := rfl

/-! ## Stores keep the canonical form -/

theorem State.storeByte_wf {s : State} (h : s.mem.wf) (a : Nat) (v : Byte) : (s.storeByte a v).mem.wf :=
  Memory.write_wf h a v

theorem State.storeWord_wf {s : State} (h : s.mem.wf) (a : Nat) (v : Word) : (s.storeWord a v).mem.wf := by
  rw [State.storeWord_mem]; exact Memory.writeWord_wf h a v

end Sys2Proof.Machine
end

