-- ==== Sys2Proof/Laws/Step.lean ====
section
/-! SUPPORT. What a step can do, said once: the four ways it ends. -/

namespace Sys2Proof.Machine

/-- A terminal status, and only that, has an answer of its own (R135). -/
theorem Status.stopped_eq_none (st : Status) :
    st.stopped = none ↔ st = .ready ∨ st = .paused ∨ st = .breakpoint := by
  cases st <;> simp [Status.stopped]

/-- The stop of a terminal status is no next state (R135). -/
theorem Status.stopped_ne_next (st : Status) (o : StepOutcome) (h : st.stopped = some o) (t : State) : o ≠ .next t := by
  cases st <;> simp [Status.stopped] at h <;> subst h <;> simp

/-- Every next state of a step comes from an enabled status by a fetch fault, an unassigned opcode, or an instruction. -/
theorem step_cases {s t : State} (h : step s = .next t) :
    s.status.stopped = none ∧
      ((∃ k, checkWord s.pc = some k ∧ t = s.beginStep.latch (.terminalFailure k)) ∨
        (checkWord s.pc = none ∧
          ((∃ e, decodeWord (s.mem.readWord s.pc.toNat) = .error e ∧
              t = s.beginStep.advancePc.latch (.terminalFailure .badOpcode)) ∨
            ∃ i, decodeWord (s.mem.readWord s.pc.toNat) = .ok i ∧ exec i s.beginStep.advancePc = .next t))) := by
  unfold step at h
  split at h
  · next o ho => exact absurd h (Status.stopped_ne_next _ _ ho t)
  · next ho =>
    refine ⟨ho, ?_⟩
    rcases hck : checkWord s.pc with _ | k
    · refine .inr ⟨rfl, ?_⟩
      rw [State.beginStep_fetch, State.fetch_of_ok hck] at h
      simp only [decodeAndExec] at h
      split at h
      · next e he => exact .inl ⟨e, he, (raise_eq_next _ _ t).mp h⟩
      · next i hi => exact .inr ⟨i, hi, h⟩
    · rw [State.beginStep_fetch, State.fetch_of_fault hck] at h
      exact .inl ⟨k, rfl, (raise_eq_next _ _ t).mp h⟩

end Sys2Proof.Machine
end

