-- ==== Sys2Proof/Laws/Exec.lean ====
section
/-! SUPPORT. What an instruction can do, said once: every one answers a next state, and that state is one of a few updates. -/

namespace Sys2Proof.Machine

/-! ## Every instruction answers a next state -/

theorem withWordAt_total {a : Word} {s : State} {go : Nat → StepOutcome} (h : ∀ n, ∃ t, go n = .next t) :
    ∃ t, withWordAt a s go = .next t := by
  unfold withWordAt
  split
  · exact ⟨_, rfl⟩
  · exact h _

theorem withByteAt_total {a : Word} {s : State} {go : Nat → StepOutcome} (h : ∀ n, ∃ t, go n = .next t) :
    ∃ t, withByteAt a s go = .next t := by
  unfold withByteAt
  split
  · exact ⟨_, rfl⟩
  · exact h _

theorem State.jumpIf_total (s : State) (c : JumpCond) (off : Int) : ∃ t, s.jumpIf c off = .next t := by
  unfold State.jumpIf
  split <;> exact ⟨_, rfl⟩

theorem exec_total (i : Instr) (s : State) : ∃ t, exec i s = .next t := by
  cases i <;> simp only [exec]
  case jmp | jmpeq | jmpne | jmpgt | jmplt | jmpge | jmple => exact State.jumpIf_total _ _ _
  case push | pop | sw | lw => exact withWordAt_total fun _ => ⟨_, rfl⟩
  case print | sb | lb => exact withByteAt_total fun _ => ⟨_, rfl⟩
  case read =>
    refine withByteAt_total fun _ => ?_
    cases s.inq <;> exact ⟨_, rfl⟩
  all_goals exact ⟨_, rfl⟩

/-- A step from an enabled status answers a next state (R135). -/
theorem step_total (s : State) (h : s.status.stopped = none) : ∃ t, step s = .next t := by
  simp only [step, h]
  split
  · exact ⟨_, rfl⟩
  · unfold decodeAndExec
    split
    · exact ⟨_, rfl⟩
    · exact exec_total _ _

/-! ## The effects -/

/-- What R251's table lists for an instruction but POP: its address check fails with `k`. -/
abbrev AccessFails (i : Instr) (s : State) (k : Fault) : Prop :=
  (∃ rd rs, (i = .sw rd rs ∨ i = .lw rd rs) ∧ checkWord (s.reg rd) = some k) ∨
    (∃ rd rs, (i = .sb rd rs ∨ i = .lb rd rs ∨ i = .print rd ∨ i = .read rd) ∧ checkByte (s.reg rd) = some k) ∨
    (∃ rd, i = .push rd ∧ checkWord s.sp = some k)

/-- What the next state `t` of instruction `i` at `s` is. -/
inductive ExecEffect (i : Instr) (s t : State) : Prop
  | halt (h : i = .halt) (e : t = s.latch .terminalSuccess)
  | brk (h : i = .brk) (e : t = s.latch .breakpoint)
  /-- One register write: NOT, MOV, MOVI, LW, LB. -/
  | register (r : Reg) (v : Word) (h : destination i = some r) (w : writtenValue i s = some v)
      (u : updatesFlags i = false) (j : jumpOf i = none) (p : storesToMemory i = false) (e : t = (s.writeReg r v).latch .ready)
  /-- A result and its flags: the ALU instructions. -/
  | result (r : Reg) (v : Word) (h : destination i = some r) (w : writtenValue i s = some v)
      (u : updatesFlags i = true) (j : jumpOf i = none) (p : storesToMemory i = false) (e : t = ((s.writeReg r v).setZS v).latch .ready)
  | cmp (a b : Reg) (h : i = .cmp a b)
      (e : t = (s.setFlags (cmpZero (s.reg a) (s.reg b)) (cmpLess (s.reg a) (s.reg b))).latch .ready)
  | jump (c : JumpCond) (off : Int) (h : jumpOf i = some (c, off)) (u : updatesFlags i = false)
      (d : destination i = none) (p : storesToMemory i = false)
      (e : (c.holds s.z s.s = true ∧ t = (s.writeReg pcIndex (jumpTarget s.pc off)).latch .ready) ∨
        (c.holds s.z s.s = false ∧ t = s.latch .ready))
  | push (r : Reg) (h : i = .push r) (hc : checkWord s.sp = none)
      (e : t = ((s.storeWord s.sp.toNat (s.reg r)).writeReg spIndex (s.sp - 2)).latch .ready)
  | pop (r : Reg) (h : i = .pop r) (hc : checkWord (s.sp + 2) = none) (v : Word)
      (w : writtenValue i s = some v)
      (e : t = ((s.writeReg spIndex (s.sp + 2)).writeReg r v).latch .ready)
  | popFault (r : Reg) (h : i = .pop r) (k : Fault) (hc : checkWord (s.sp + 2) = some k)
      (e : t = (s.writeReg spIndex (s.sp + 2)).latch (.terminalFailure k))
  | print (r : Reg) (h : i = .print r) (hc : checkByte (s.reg r) = none)
      (e : t = (s.appendOutput (s.mem.read (s.reg r).toNat)).latch .ready)
  | readEmpty (r : Reg) (h : i = .read r) (q : s.inq = []) (hc : checkByte (s.reg r) = none)
      (e : t = (s.storeByte (s.reg r).toNat 0).latch .ready)
  | readCode (r : Reg) (h : i = .read r) (c : Nat) (cs : List Nat) (q : s.inq = c :: cs)
      (hc : checkByte (s.reg r) = none) (e : t = (s.takeInput.storeByte (s.reg r).toNat (codeByte c)).latch .ready)
  | storeWord (a b : Reg) (h : i = .sw a b) (hc : checkWord (s.reg a) = none)
      (e : t = (s.storeWord (s.reg a).toNat (s.reg b)).latch .ready)
  | storeByte (a b : Reg) (h : i = .sb a b) (hc : checkByte (s.reg a) = none)
      (e : t = (s.storeByte (s.reg a).toNat (lowByte (s.reg b))).latch .ready)
  | accessFault (k : Fault) (n : ∀ rd, i ≠ .pop rd) (h : AccessFails i s k) (e : t = s.latch (.terminalFailure k))

/-- Whatever `exec` answers is one of those effects. -/
theorem exec_effect {i : Instr} {s t : State} (h : exec i s = .next t) : ExecEffect i s t := by
  cases i <;> simp only [exec] at h
  case halt => exact .halt rfl ((finish_eq_next _ _ _).mp h)
  case brk => exact .brk rfl ((finish_eq_next _ _ _).mp h)
  case not r => exact .register r _ rfl rfl rfl rfl rfl ((complete_eq_next _ _).mp h)
  case mov r _ => exact .register r _ rfl rfl rfl rfl rfl ((complete_eq_next _ _).mp h)
  case movi r _ => exact .register r _ rfl rfl rfl rfl rfl ((complete_eq_next _ _).mp h)
  case sl r _ => exact .result r _ rfl rfl rfl rfl rfl ((State.writeResult_next _ _ _ _).mp h)
  case sru r _ => exact .result r _ rfl rfl rfl rfl rfl ((State.writeResult_next _ _ _ _).mp h)
  case srs r _ => exact .result r _ rfl rfl rfl rfl rfl ((State.writeResult_next _ _ _ _).mp h)
  case add r _ => exact .result r _ rfl rfl rfl rfl rfl ((State.writeResult_next _ _ _ _).mp h)
  case sub r _ => exact .result r _ rfl rfl rfl rfl rfl ((State.writeResult_next _ _ _ _).mp h)
  case and r _ => exact .result r _ rfl rfl rfl rfl rfl ((State.writeResult_next _ _ _ _).mp h)
  case or r _ => exact .result r _ rfl rfl rfl rfl rfl ((State.writeResult_next _ _ _ _).mp h)
  case xor r _ => exact .result r _ rfl rfl rfl rfl rfl ((State.writeResult_next _ _ _ _).mp h)
  case addi r _ => exact .result r _ rfl rfl rfl rfl rfl ((State.writeResult_next _ _ _ _).mp h)
  case subi r _ => exact .result r _ rfl rfl rfl rfl rfl ((State.writeResult_next _ _ _ _).mp h)
  case andi r _ => exact .result r _ rfl rfl rfl rfl rfl ((State.writeResult_next _ _ _ _).mp h)
  case ori r _ => exact .result r _ rfl rfl rfl rfl rfl ((State.writeResult_next _ _ _ _).mp h)
  case xori r _ => exact .result r _ rfl rfl rfl rfl rfl ((State.writeResult_next _ _ _ _).mp h)
  case cmp a b => exact .cmp a b rfl ((complete_eq_next _ _).mp h)
  case jmp off => exact .jump .always off rfl rfl rfl rfl (State.jumpIf_next h)
  case jmpeq off => exact .jump .eq off rfl rfl rfl rfl (State.jumpIf_next h)
  case jmpne off => exact .jump .ne off rfl rfl rfl rfl (State.jumpIf_next h)
  case jmpgt off => exact .jump .gt off rfl rfl rfl rfl (State.jumpIf_next h)
  case jmplt off => exact .jump .lt off rfl rfl rfl rfl (State.jumpIf_next h)
  case jmpge off => exact .jump .ge off rfl rfl rfl rfl (State.jumpIf_next h)
  case jmple off => exact .jump .le off rfl rfl rfl rfl (State.jumpIf_next h)
  case push r =>
    obtain ⟨k, hk, e⟩ | ⟨hk, e⟩ := withWordAt_next h
    · exact .accessFault k (by simp) (.inr (.inr ⟨r, rfl, hk⟩)) e
    · exact .push r rfl hk ((complete_eq_next _ _).mp e)
  case pop r =>
    unfold execPop at h
    have hsp : (s.writeReg spIndex (s.sp + 2)).sp = s.sp + 2 := by simp [State.sp_eq]
    obtain ⟨k, hk, e⟩ | ⟨hk, e⟩ := withWordAt_next h <;> rw [hsp] at hk
    · exact .popFault r rfl k hk e
    · rw [hsp] at e
      exact .pop r rfl hk _ rfl ((complete_eq_next _ _).mp e)
  case print r =>
    obtain ⟨k, hk, e⟩ | ⟨hk, e⟩ := withByteAt_next h
    · exact .accessFault k (by simp) (.inr (.inl ⟨r, r, by simp, hk⟩)) e
    · exact .print r rfl hk ((complete_eq_next _ _).mp e)
  case read r =>
    obtain ⟨k, hk, e⟩ | ⟨hk, e⟩ := withByteAt_next h
    · exact .accessFault k (by simp) (.inr (.inl ⟨r, r, by simp, hk⟩)) e
    · cases hq : s.inq with
      | nil => rw [hq] at e; exact .readEmpty r rfl hq hk ((complete_eq_next _ _).mp e)
      | cons c cs => rw [hq] at e; exact .readCode r rfl c cs hq hk ((complete_eq_next _ _).mp e)
  case sw a b =>
    obtain ⟨k, hk, e⟩ | ⟨hk, e⟩ := withWordAt_next h
    · exact .accessFault k (by simp) (.inl ⟨a, b, by simp, hk⟩) e
    · exact .storeWord a b rfl hk ((complete_eq_next _ _).mp e)
  case lw a b =>
    obtain ⟨k, hk, e⟩ | ⟨hk, e⟩ := withWordAt_next h
    · exact .accessFault k (by simp) (.inl ⟨a, b, by simp, hk⟩) e
    · exact .register b _ rfl rfl rfl rfl rfl ((complete_eq_next _ _).mp e)
  case sb a b =>
    obtain ⟨k, hk, e⟩ | ⟨hk, e⟩ := withByteAt_next h
    · exact .accessFault k (by simp) (.inr (.inl ⟨a, b, by simp, hk⟩)) e
    · exact .storeByte a b rfl hk ((complete_eq_next _ _).mp e)
  case lb a b =>
    obtain ⟨k, hk, e⟩ | ⟨hk, e⟩ := withByteAt_next h
    · exact .accessFault k (by simp) (.inr (.inl ⟨a, b, by simp, hk⟩)) e
    · exact .register b _ rfl rfl rfl rfl rfl ((complete_eq_next _ _).mp e)

end Sys2Proof.Machine
end

