-- ==== Sys2Proof/Laws/PerInstr.lean ====
section
/-! SUPPORT. Statements about every instruction as syntax, one lemma for each constructor, and the arithmetic of packed words they rest on. -/

namespace Sys2Proof.Laws

/-! ## The fields of a word as numbers (R81) -/

theorem opField_toNat (w : Word) : (opField w).toNat = w.toNat / 1024 % 64 := by
  simp [opField, BitVec.extractLsb'_toNat, Nat.shiftRight_eq_div_pow]

theorem rdField_val (w : Word) : (rdField w).val = w.toNat / 32 % 32 := by
  simp [rdField, Nat.shiftRight_eq_div_pow]

theorem rsField_val (w : Word) : (rsField w).val = w.toNat % 32 := by
  simp [rsField]

/-! ## Packed words as numbers (R87) -/

theorem packR0_toNat (op : BitVec 6) : (packR0 op).toNat = op.toNat * 1024 := by
  have := op.isLt
  simp only [packR0, BitVec.toNat_shiftLeft, BitVec.toNat_setWidth, Nat.shiftLeft_eq]
  omega

theorem packR1_toNat (op : BitVec 6) (d : Reg) : (packR1 op d).toNat = op.toNat * 1024 + d.val * 32 := by
  have := op.isLt
  have := d.isLt
  simp only [packR1, BitVec.toNat_or, packR0_toNat, BitVec.toNat_shiftLeft, BitVec.toNat_ofNat, Nat.shiftLeft_eq]
  rw [show d.val % 2 ^ 16 * 2 ^ 5 % 2 ^ 16 = d.val * 32 by omega, show op.toNat * 1024 = 2 ^ 10 * op.toNat by omega,
    ← Nat.two_pow_add_eq_or_of_lt (by omega)]

theorem packR1_or_toNat (op : BitVec 6) (d : Reg) (v : Word) (hv : v.toNat < 32) :
    (packR1 op d ||| v).toNat = op.toNat * 1024 + d.val * 32 + v.toNat := by
  rw [BitVec.toNat_or, packR1_toNat, show op.toNat * 1024 + d.val * 32 = 2 ^ 5 * (op.toNat * 32 + d.val) by omega,
    ← Nat.two_pow_add_eq_or_of_lt (by omega)]

theorem packR0_or_toNat (op : BitVec 6) (v : Word) (hv : v.toNat < 1024) :
    (packR0 op ||| v).toNat = op.toNat * 1024 + v.toNat := by
  rw [BitVec.toNat_or, packR0_toNat, show op.toNat * 1024 = 2 ^ 10 * op.toNat by omega,
    ← Nat.two_pow_add_eq_or_of_lt (by omega)]

theorem immBits_toNat (imm : Int) : (BitVec.ofInt 16 imm &&& 0x1F).toNat = (imm % 32).toNat := by
  rw [BitVec.toNat_and, show (0x1F : Word).toNat = 2 ^ 5 - 1 from rfl, Nat.and_two_pow_sub_one_eq_mod, BitVec.toNat_ofInt]
  omega

theorem offBits_toNat (off : Int) : (BitVec.ofInt 16 off &&& 0x3FF).toNat = (off % 1024).toNat := by
  rw [BitVec.toNat_and, show (0x3FF : Word).toNat = 2 ^ 10 - 1 from rfl, Nat.and_two_pow_sub_one_eq_mod, BitVec.toNat_ofInt]
  omega

/-! ## Signed fields (R85, R86) -/

theorem immField_eq (w : Word) (imm : Int) (h : w.toNat % 32 = (imm % 32).toNat) (hi : immInRange imm = true) :
    immField w = imm := by
  simp only [immInRange, Config.immMin, Config.immMax, Bool.and_eq_true, decide_eq_true_eq] at hi
  simp only [immField, BitVec.toInt_eq_toNat_cond, BitVec.extractLsb'_toNat, Nat.shiftRight_zero]
  split <;> omega

theorem offField_eq (w : Word) (off : Int) (h : w.toNat % 1024 = (off % 1024).toNat) (hi : offInRange off = true) :
    offField w = off := by
  simp only [offInRange, Config.offMin, Config.offMax, Bool.and_eq_true, decide_eq_true_eq] at hi
  simp only [offField, BitVec.toInt_eq_toNat_cond, BitVec.extractLsb'_toNat, Nat.shiftRight_zero]
  split <;> omega

/-! ## What the fields of a packed word are -/

theorem opField_packR0 (op : BitVec 6) : opField (packR0 op) = op := by
  have := op.isLt
  apply BitVec.eq_of_toNat_eq
  rw [opField_toNat, packR0_toNat]; omega

theorem opField_packR1 (op : BitVec 6) (d : Reg) : opField (packR1 op d) = op := by
  have := op.isLt
  apply BitVec.eq_of_toNat_eq
  rw [opField_toNat, packR1_toNat]; omega

theorem opField_packR1_or (op : BitVec 6) (d : Reg) (v : Word) (hv : v.toNat < 32) : opField (packR1 op d ||| v) = op := by
  have := op.isLt
  apply BitVec.eq_of_toNat_eq
  rw [opField_toNat, packR1_or_toNat _ _ _ hv]; omega

theorem opField_packJ (op : BitVec 6) (off : Int) : opField (packJ op off) = op := by
  have := op.isLt
  apply BitVec.eq_of_toNat_eq
  have hv : (BitVec.ofInt 16 off &&& 0x3FF).toNat < 1024 := by rw [offBits_toNat]; omega
  rw [opField_toNat, packJ, packR0_or_toNat _ _ hv]; omega

theorem rdField_packR1 (op : BitVec 6) (d : Reg) : rdField (packR1 op d) = d := by
  apply Fin.ext
  rw [rdField_val, packR1_toNat]; omega

theorem rdField_packR1_or (op : BitVec 6) (d : Reg) (v : Word) (hv : v.toNat < 32) : rdField (packR1 op d ||| v) = d := by
  apply Fin.ext
  rw [rdField_val, packR1_or_toNat _ _ _ hv]; omega

theorem srcBits_lt (s : Reg) : (BitVec.ofNat 16 s.val).toNat < 32 := by
  rw [BitVec.toNat_ofNat]; omega

theorem immBits_lt (imm : Int) : (BitVec.ofInt 16 imm &&& 0x1F).toNat < 32 := by
  rw [immBits_toNat]; omega

theorem rsField_packR2 (op : BitVec 6) (d s : Reg) : rsField (packR2 op d s) = s := by
  apply Fin.ext
  rw [rsField_val, packR2, packR1_or_toNat _ _ _ (srcBits_lt s), BitVec.toNat_ofNat]; omega

theorem immField_packI (op : BitVec 6) (d : Reg) (imm : Int) (h : immInRange imm = true) :
    immField (packI op d imm) = imm := by
  refine immField_eq _ _ ?_ h
  rw [packI, packR1_or_toNat _ _ _ (immBits_lt imm), immBits_toNat]; omega

theorem offField_packJ (op : BitVec 6) (off : Int) (h : offInRange off = true) : offField (packJ op off) = off := by
  refine offField_eq _ _ ?_ h
  have hv : (BitVec.ofInt 16 off &&& 0x3FF).toNat < 1024 := by rw [offBits_toNat]; omega
  rw [packJ, packR0_or_toNat _ _ hv, offBits_toNat]; omega

/-! ## The family EncodingFields -/

/-- The word of a well-formed instruction holds its opcode in bits 15-10, and the operands read back from the fields of its
shape are the instruction's own (R81, R87). -/
def EncodingFields.Statement (i : Instr) : Prop :=
  i.wf = true →
    opField (encode i) = i.mnemonic.opcode ∧
      i.mnemonic.instr (rdField (encode i)) (rsField (encode i)) (immField (encode i)) (offField (encode i)) = i

theorem EncodingFields.halt : EncodingFields.Statement .halt := fun _ => ⟨opField_packR0 _, rfl⟩
theorem EncodingFields.brk : EncodingFields.Statement .brk := fun _ => ⟨opField_packR0 _, rfl⟩
theorem EncodingFields.not (rd : Reg) : EncodingFields.Statement (.not rd) := fun _ => ⟨opField_packR1 _ rd, congrArg Instr.not (rdField_packR1 _ rd)⟩
theorem EncodingFields.push (rd : Reg) : EncodingFields.Statement (.push rd) := fun _ => ⟨opField_packR1 _ rd, congrArg Instr.push (rdField_packR1 _ rd)⟩
theorem EncodingFields.pop (rd : Reg) : EncodingFields.Statement (.pop rd) := fun _ => ⟨opField_packR1 _ rd, congrArg Instr.pop (rdField_packR1 _ rd)⟩
theorem EncodingFields.print (rd : Reg) : EncodingFields.Statement (.print rd) := fun _ => ⟨opField_packR1 _ rd, congrArg Instr.print (rdField_packR1 _ rd)⟩
theorem EncodingFields.read (rd : Reg) : EncodingFields.Statement (.read rd) := fun _ => ⟨opField_packR1 _ rd, congrArg Instr.read (rdField_packR1 _ rd)⟩
theorem EncodingFields.sl (rd rs : Reg) : EncodingFields.Statement (.sl rd rs) := fun _ =>
  ⟨opField_packR1_or _ rd _ (srcBits_lt rs), congrArg₂ Instr.sl (rdField_packR1_or _ rd _ (srcBits_lt rs)) (rsField_packR2 _ rd rs)⟩
theorem EncodingFields.sru (rd rs : Reg) : EncodingFields.Statement (.sru rd rs) := fun _ =>
  ⟨opField_packR1_or _ rd _ (srcBits_lt rs), congrArg₂ Instr.sru (rdField_packR1_or _ rd _ (srcBits_lt rs)) (rsField_packR2 _ rd rs)⟩
theorem EncodingFields.srs (rd rs : Reg) : EncodingFields.Statement (.srs rd rs) := fun _ =>
  ⟨opField_packR1_or _ rd _ (srcBits_lt rs), congrArg₂ Instr.srs (rdField_packR1_or _ rd _ (srcBits_lt rs)) (rsField_packR2 _ rd rs)⟩
theorem EncodingFields.mov (rd rs : Reg) : EncodingFields.Statement (.mov rd rs) := fun _ =>
  ⟨opField_packR1_or _ rd _ (srcBits_lt rs), congrArg₂ Instr.mov (rdField_packR1_or _ rd _ (srcBits_lt rs)) (rsField_packR2 _ rd rs)⟩
theorem EncodingFields.add (rd rs : Reg) : EncodingFields.Statement (.add rd rs) := fun _ =>
  ⟨opField_packR1_or _ rd _ (srcBits_lt rs), congrArg₂ Instr.add (rdField_packR1_or _ rd _ (srcBits_lt rs)) (rsField_packR2 _ rd rs)⟩
theorem EncodingFields.sub (rd rs : Reg) : EncodingFields.Statement (.sub rd rs) := fun _ =>
  ⟨opField_packR1_or _ rd _ (srcBits_lt rs), congrArg₂ Instr.sub (rdField_packR1_or _ rd _ (srcBits_lt rs)) (rsField_packR2 _ rd rs)⟩
theorem EncodingFields.and (rd rs : Reg) : EncodingFields.Statement (.and rd rs) := fun _ =>
  ⟨opField_packR1_or _ rd _ (srcBits_lt rs), congrArg₂ Instr.and (rdField_packR1_or _ rd _ (srcBits_lt rs)) (rsField_packR2 _ rd rs)⟩
theorem EncodingFields.or (rd rs : Reg) : EncodingFields.Statement (.or rd rs) := fun _ =>
  ⟨opField_packR1_or _ rd _ (srcBits_lt rs), congrArg₂ Instr.or (rdField_packR1_or _ rd _ (srcBits_lt rs)) (rsField_packR2 _ rd rs)⟩
theorem EncodingFields.xor (rd rs : Reg) : EncodingFields.Statement (.xor rd rs) := fun _ =>
  ⟨opField_packR1_or _ rd _ (srcBits_lt rs), congrArg₂ Instr.xor (rdField_packR1_or _ rd _ (srcBits_lt rs)) (rsField_packR2 _ rd rs)⟩
theorem EncodingFields.cmp (rd rs : Reg) : EncodingFields.Statement (.cmp rd rs) := fun _ =>
  ⟨opField_packR1_or _ rd _ (srcBits_lt rs), congrArg₂ Instr.cmp (rdField_packR1_or _ rd _ (srcBits_lt rs)) (rsField_packR2 _ rd rs)⟩
theorem EncodingFields.sw (rd rs : Reg) : EncodingFields.Statement (.sw rd rs) := fun _ =>
  ⟨opField_packR1_or _ rd _ (srcBits_lt rs), congrArg₂ Instr.sw (rdField_packR1_or _ rd _ (srcBits_lt rs)) (rsField_packR2 _ rd rs)⟩
theorem EncodingFields.lw (rd rs : Reg) : EncodingFields.Statement (.lw rd rs) := fun _ =>
  ⟨opField_packR1_or _ rd _ (srcBits_lt rs), congrArg₂ Instr.lw (rdField_packR1_or _ rd _ (srcBits_lt rs)) (rsField_packR2 _ rd rs)⟩
theorem EncodingFields.sb (rd rs : Reg) : EncodingFields.Statement (.sb rd rs) := fun _ =>
  ⟨opField_packR1_or _ rd _ (srcBits_lt rs), congrArg₂ Instr.sb (rdField_packR1_or _ rd _ (srcBits_lt rs)) (rsField_packR2 _ rd rs)⟩
theorem EncodingFields.movi (rd : Reg) (imm : Int) : EncodingFields.Statement (.movi rd imm) := fun h =>
  ⟨opField_packR1_or _ rd _ (immBits_lt imm), congrArg₂ Instr.movi (rdField_packR1_or _ rd _ (immBits_lt imm)) (immField_packI _ rd imm h)⟩
theorem EncodingFields.addi (rd : Reg) (imm : Int) : EncodingFields.Statement (.addi rd imm) := fun h =>
  ⟨opField_packR1_or _ rd _ (immBits_lt imm), congrArg₂ Instr.addi (rdField_packR1_or _ rd _ (immBits_lt imm)) (immField_packI _ rd imm h)⟩
theorem EncodingFields.subi (rd : Reg) (imm : Int) : EncodingFields.Statement (.subi rd imm) := fun h =>
  ⟨opField_packR1_or _ rd _ (immBits_lt imm), congrArg₂ Instr.subi (rdField_packR1_or _ rd _ (immBits_lt imm)) (immField_packI _ rd imm h)⟩
theorem EncodingFields.andi (rd : Reg) (imm : Int) : EncodingFields.Statement (.andi rd imm) := fun h =>
  ⟨opField_packR1_or _ rd _ (immBits_lt imm), congrArg₂ Instr.andi (rdField_packR1_or _ rd _ (immBits_lt imm)) (immField_packI _ rd imm h)⟩
theorem EncodingFields.ori (rd : Reg) (imm : Int) : EncodingFields.Statement (.ori rd imm) := fun h =>
  ⟨opField_packR1_or _ rd _ (immBits_lt imm), congrArg₂ Instr.ori (rdField_packR1_or _ rd _ (immBits_lt imm)) (immField_packI _ rd imm h)⟩
theorem EncodingFields.xori (rd : Reg) (imm : Int) : EncodingFields.Statement (.xori rd imm) := fun h =>
  ⟨opField_packR1_or _ rd _ (immBits_lt imm), congrArg₂ Instr.xori (rdField_packR1_or _ rd _ (immBits_lt imm)) (immField_packI _ rd imm h)⟩
theorem EncodingFields.jmp (off : Int) : EncodingFields.Statement (.jmp off) := fun h => ⟨opField_packJ _ off, congrArg Instr.jmp (offField_packJ _ off h)⟩
theorem EncodingFields.jmpeq (off : Int) : EncodingFields.Statement (.jmpeq off) := fun h => ⟨opField_packJ _ off, congrArg Instr.jmpeq (offField_packJ _ off h)⟩
theorem EncodingFields.jmpne (off : Int) : EncodingFields.Statement (.jmpne off) := fun h => ⟨opField_packJ _ off, congrArg Instr.jmpne (offField_packJ _ off h)⟩
theorem EncodingFields.jmpgt (off : Int) : EncodingFields.Statement (.jmpgt off) := fun h => ⟨opField_packJ _ off, congrArg Instr.jmpgt (offField_packJ _ off h)⟩
theorem EncodingFields.jmplt (off : Int) : EncodingFields.Statement (.jmplt off) := fun h => ⟨opField_packJ _ off, congrArg Instr.jmplt (offField_packJ _ off h)⟩
theorem EncodingFields.jmpge (off : Int) : EncodingFields.Statement (.jmpge off) := fun h => ⟨opField_packJ _ off, congrArg Instr.jmpge (offField_packJ _ off h)⟩
theorem EncodingFields.jmple (off : Int) : EncodingFields.Statement (.jmple off) := fun h => ⟨opField_packJ _ off, congrArg Instr.jmple (offField_packJ _ off h)⟩
theorem EncodingFields.lb (rd rs : Reg) : EncodingFields.Statement (.lb rd rs) := fun _ =>
  ⟨opField_packR1_or _ rd _ (srcBits_lt rs), congrArg₂ Instr.lb (rdField_packR1_or _ rd _ (srcBits_lt rs)) (rsField_packR2 _ rd rs)⟩

end Sys2Proof.Laws
end

