-- ==== Sys2Proof/Tests/Slice0.lean ====
section
/-! SUPPORT. Small tests, with expected results from spec/95_test_vectors.md and the rules' own examples, and one witness for the hypotheses of each obligation. -/

namespace Sys2Proof.Tests

open Sys2Proof.Machine Sys2Proof.Claims

/-! ## Helpers -/

/-- The reset state with some registers set. -/
def start (rs : List (Reg × Word)) : State :=
  { State.reset with regs := rs.foldl (fun v p => v.set p.1.val p.2) State.reset.regs }

/-- A state with some bytes of memory set. -/
def withBytes (bs : List Host.Cell) (s : State) : State :=
  { s with mem := bs.foldl (fun m c => m.write c.1 c.2) s.mem }

/-- One step of the word `w` at PC ends in a next state for which `p` holds. -/
def runs (w : Nat) (s : State) (p : State → Bool) : Bool :=
  match step (s.withFetchWord 16 w) with
  | .next t => p t
  | .fault _ | .refused _ => false

/-- The step of `s` ends in a next state for which `p` holds. -/
def stepsTo (s : State) (p : State → Bool) : Bool :=
  match step s with
  | .next t => p t
  | .fault _ | .refused _ => false

/-- The state a step leaves, or the state itself. -/
def after (s : State) : State :=
  match step s with
  | .next t => t
  | .fault _ | .refused _ => s

/-- The state with the word `w` where PC points. -/
def atPc (w : Nat) (s : State) : State := s.withFetchWord 16 w

/-! ## Well-formed terms -/

/-- VX1 and R85: an immediate outside [-16, 15]. -/
theorem test_illFormedRefused :
    (Instr.movi 0 16).wf = false ∧ (Instr.addi 1 (-17)).wf = false ∧ (Instr.subi 1 16).wf = false ∧
    (Instr.andi 1 16).wf = false ∧ (Instr.ori 1 (-17)).wf = false ∧ (Instr.xori 1 16).wf = false := by decide

/-- R86: an offset outside [-512, 511]. -/
theorem test_farJumpRefused :
    (Instr.jmp 512).wf = false ∧ (Instr.jmpeq (-513)).wf = false ∧ (Instr.jmpne 512).wf = false ∧
    (Instr.jmpgt (-513)).wf = false ∧ (Instr.jmplt 512).wf = false ∧ (Instr.jmpge (-513)).wf = false ∧
    (Instr.jmple 512).wf = false := by decide

theorem test_boundsAccepted :
    (Instr.movi 0 (-16)).wf = true ∧ (Instr.movi 0 15).wf = true ∧ (Instr.jmp (-512)).wf = true ∧
    (Instr.jmp 511).wf = true ∧ Instr.halt.wf = true ∧ (Instr.not 31).wf = true ∧ (Instr.sw 31 31).wf = true := by decide

/-! ## Decoding, from words written out from the shapes and the map of R92 -/

theorem test_decodeSystemAndR1 :
    decodeWord 0b0000000000000000 = .ok .halt ∧
    decodeWord 0b0000010000000000 = .ok .brk ∧
    decodeWord 0b0000100001000000 = .ok (.not 2) ∧
    decodeWord 0b0000111111000000 = .ok (.push 30) ∧
    decodeWord 0b0001000000100000 = .ok (.pop 1) ∧
    decodeWord 0b0001010000100000 = .ok (.print 1) ∧
    decodeWord 0b0001100000100000 = .ok (.read 1) := by decide

theorem test_decodeRegisterOperands :
    decodeWord 0b0001110000100010 = .ok (.sl 1 2) ∧
    decodeWord 0b0010000000100010 = .ok (.sru 1 2) ∧
    decodeWord 0b0010010000100010 = .ok (.srs 1 2) ∧
    decodeWord 0b0010100000111101 = .ok (.mov 1 29) ∧
    decodeWord 0b0010110000100010 = .ok (.add 1 2) ∧
    decodeWord 0b0011000000000001 = .ok (.sub 0 1) ∧
    decodeWord 0b0011010000100010 = .ok (.and 1 2) := by decide

theorem test_decodeLogicAndStores :
    decodeWord 0b0011100000100010 = .ok (.or 1 2) ∧
    decodeWord 0b0011110000100001 = .ok (.xor 1 1) ∧
    decodeWord 0b0100000000100010 = .ok (.cmp 1 2) ∧
    decodeWord 0b0100010001000001 = .ok (.sw 2 1) ∧
    decodeWord 0b0100100001000011 = .ok (.lw 2 3) ∧
    decodeWord 0b0100110001000001 = .ok (.sb 2 1) ∧
    decodeWord 0b0101000000010000 = .ok (.movi 0 (-16)) := by decide

theorem test_decodeImmediates :
    decodeWord 0b0101010000111111 = .ok (.addi 1 (-1)) ∧
    decodeWord 0b0101100000000001 = .ok (.subi 0 1) ∧
    decodeWord 0b0101110000111110 = .ok (.andi 1 (-2)) ∧
    decodeWord 0b0110000000101000 = .ok (.ori 1 8) ∧
    decodeWord 0b0110010000111111 = .ok (.xori 1 (-1)) ∧
    decodeWord 0b0110101000000000 = .ok (.jmp (-512)) ∧
    decodeWord 0b0110110000000010 = .ok (.jmpeq 2) := by decide

theorem test_decodeJumpsAndLb :
    decodeWord 0b0111001111111100 = .ok (.jmpne (-4)) ∧
    decodeWord 0b0111010000000010 = .ok (.jmpgt 2) ∧
    decodeWord 0b0111100000000010 = .ok (.jmplt 2) ∧
    decodeWord 0b0111110000000010 = .ok (.jmpge 2) ∧
    decodeWord 0b1000000111111111 = .ok (.jmple 511) ∧
    decodeWord 0b1000010001000100 = .ok (.lb 2 4) := by decide

/-- VE2, VE4, VE15. -/
theorem test_decodeIgnoredBits :
    decodeWord 0x0001 = .ok .halt ∧ decodeWord 0x0BFF = .ok (.not 31) ∧ decodeWord 0x07FF = .ok .brk := by decide

/-- VE13, VE14. -/
theorem test_decodeIllegal :
    decodeWord 0x8800 = .error (.unassignedOpcode 0x22) ∧ decodeWord 0xFC00 = .error (.unassignedOpcode 0x3F) ∧
    decodeBytes [0x50] = .error .truncated := by decide

/-- VE7, VE8, VE10, VE11. -/
theorem test_decodeImmediatesSigned :
    decodeWord 0x500F = .ok (.movi 0 15) ∧ decodeWord 0x503F = .ok (.movi 1 (-1)) ∧ decodeWord 0x69FF = .ok (.jmp 511) ∧
    decodeWord 0x6800 = .ok (.jmp 0) := by decide

theorem test_decodeBytesAndTable :
    decodeBytes [0x6B, 0xFE, 0x00] = .ok (.jmp (-2), [0x00]) ∧ decodeTableWord 16 0x6BFE = some (.jmp (-2)) ∧
    decodeTableWord 16 0x8800 = none := by decide

/-- S2, S3 and the packing check. -/
theorem test_encode :
    encode (.movi 0 5) = 0x5005 ∧ encode (.jmp (-2)) = 0x6BFE ∧ encode (.sub 0 1) = 0x3001 := by decide

/-! ## System instructions -/

/-- S5. -/
theorem test_halt :
    runs 0x0000 (start []) (fun t => t.status == .terminalSuccess && t.pc == 130) := by decide

/-- VF6. -/
theorem test_break :
    runs 0x0400 (start []) (fun t => t.status == .breakpoint && t.pc == 130 && t.st == 0) := by decide

/-! ## Register operands -/

/-- VA1, VA2. -/
theorem test_not :
    runs 0x0840 (start [(2, 0x00F0)]) (fun t => t.reg 2 == 0xFF0F && t.st == 0) = true ∧
    runs 0x0840 (start [(2, 0xFFFF), (31, 2)]) (fun t => t.reg 2 == 0 && t.st == 2) = true := by decide

/-- VA3, VA4. -/
theorem test_sl :
    runs 0x1C22 (start [(1, 1), (2, 15)]) (fun t => t.reg 1 == 0x8000 && t.st == 2) = true ∧
    runs 0x1C22 (start [(1, 1), (2, 16)]) (fun t => t.reg 1 == 0 && t.st == 1) = true := by decide

/-- VA6, VA7. -/
theorem test_sru :
    runs 0x2022 (start [(1, 0x8000), (2, 15)]) (fun t => t.reg 1 == 1 && t.st == 0) = true ∧
    runs 0x2022 (start [(1, 0xFFFF), (2, 100)]) (fun t => t.reg 1 == 0 && t.st == 1) = true := by decide

/-- VA9, VA10. -/
theorem test_srs :
    runs 0x2422 (start [(1, 0xFF00), (2, 4)]) (fun t => t.reg 1 == 0xFFF0 && t.st == 2) = true ∧
    runs 0x2422 (start [(1, 0x8000), (2, 16)]) (fun t => t.reg 1 == 0xFFFF && t.st == 2) = true := by decide

/-- VA12, VA13. -/
theorem test_mov :
    runs 0x2822 (start [(2, 0x1234), (31, 1)]) (fun t => t.reg 1 == 0x1234 && t.st == 1) = true ∧
    runs 0x283D (start [(29, 140)]) (fun t => t.reg 1 == 142 && t.pc == 142) = true := by decide

/-- VA14, VA15. -/
theorem test_add :
    runs 0x2C22 (start [(1, 0xFFFF), (2, 1)]) (fun t => t.reg 1 == 0 && t.st == 1) = true ∧
    runs 0x2C22 (start [(1, 0x7FFF), (2, 1)]) (fun t => t.reg 1 == 0x8000 && t.st == 2) = true := by decide

/-- VA27: the flags overwrite the result's bits. -/
theorem test_addIntoSt :
    runs 0x2FE1 (start [(1, 0x8004)]) (fun t => t.st == 0x8006) := by decide

/-- VA17, VA18. -/
theorem test_sub :
    runs 0x3001 (start [(1, 1)]) (fun t => t.reg 0 == 0xFFFF && t.st == 2) = true ∧
    runs 0x3001 (start [(0, 0x8000), (1, 1)]) (fun t => t.reg 0 == 0x7FFF && t.st == 0) = true := by decide

/-- VA19. -/
theorem test_and :
    runs 0x3422 (start [(1, 0xF0F0), (2, 0x0F0F)]) (fun t => t.reg 1 == 0 && t.st == 1) := by decide

/-- VA20. -/
theorem test_or :
    runs 0x3822 (start [(1, 0x8000), (2, 1)]) (fun t => t.reg 1 == 0x8001 && t.st == 2) := by decide

/-- VA21. -/
theorem test_xor :
    runs 0x3C21 (start [(1, 0xABCD)]) (fun t => t.reg 1 == 0 && t.st == 1) := by decide

/-- VA24, VA25. -/
theorem test_cmp :
    runs 0x4022 (start [(1, 0xFFFF), (2, 1)]) (fun t => t.st == 0 && t.reg 1 == 0xFFFF) = true ∧
    runs 0x4022 (start [(1, 1), (2, 0xFFFF)]) (fun t => t.st == 2 && t.reg 2 == 0xFFFF) = true := by decide

/-- VA26. -/
theorem test_cmpKeepsOtherBits :
    runs 0x4022 (start [(1, 5), (2, 3), (31, 0xFF03)]) (fun t => t.st == 0xFF00) := by decide

/-! ## Stack -/

/-- VK1, VK2. -/
theorem test_push :
    runs 0x0C00 (start [(0, 0x1234)]) (fun t => t.mem.read 1022 == 0x12 && t.mem.read 1023 == 0x34 && t.sp == 1020) = true ∧
    runs 0x0C00 (start [(0, 0xABCD), (30, 0)]) (fun t => t.mem.read 0 == 0xAB && t.mem.read 1 == 0xCD && t.sp == 0xFFFE) = true := by decide

/-- VK3, VK4. -/
theorem test_pushFaults :
    runs 0x0C00 (start [(30, 0xFFFE)]) (fun t => t.status == .terminalFailure .memoryBounds && t.sp == 0xFFFE && t.pc == 130) = true ∧
    runs 0x0C00 (start [(30, 1021)]) (fun t => t.status == .terminalFailure .memoryAlignment && t.sp == 1021) = true := by decide

/-- VK6, VK9. -/
theorem test_pop :
    runs 0x1020 (withBytes [(1022, 0x12), (1023, 0x34)] (start [(30, 1020)])) (fun t => t.reg 1 == 0x1234 && t.sp == 1022) = true ∧
    runs 0x13C0 (withBytes [(1022, 0x02)] (start [(30, 1020)])) (fun t => t.sp == 0x0200) = true := by decide

/-- VK7, VK8: the moved SP stays. -/
theorem test_popFaults :
    runs 0x1020 (start []) (fun t => t.status == .terminalFailure .memoryBounds && t.sp == 1024 && t.reg 1 == 0) = true ∧
    runs 0x1020 (start [(30, 1019)]) (fun t => t.status == .terminalFailure .memoryAlignment && t.sp == 1021) = true := by decide

/-! ## Console -/

/-- VT2, VT3. -/
theorem test_print :
    runs 0x1420 (withBytes [(1023, 7)] (start [(1, 1023)])) (fun t => t.outbuf == [7]) = true ∧
    runs 0x1420 (start [(1, 1024)]) (fun t => t.status == .terminalFailure .memoryBounds && t.outbuf == []) = true := by decide

/-- VT4. -/
theorem test_printDropsOldest :
    runs 0x1420 { start [(1, 512)] with outbuf := 1 :: List.replicate 127 2 }
    (fun t => t.outbuf == List.replicate 127 2 ++ [0]) := by decide

/-- VT7. -/
theorem test_read :
    runs 0x1820 { start [(1, 513)] with inq := [321, 5] } (fun t => t.mem.read 513 == 65 && t.inq == [5]) := by decide

/-- VT6, VT8. -/
theorem test_readEmpty :
    runs 0x1820 (withBytes [(512, 0x55)] (start [(1, 512)])) (fun t => t.mem.read 512 == 0 && t.inq == []) = true ∧
    runs 0x1820 { start [(1, 0xFFFF)] with inq := [1] }
      (fun t => t.status == .terminalFailure .memoryBounds && t.inq == [1]) = true := by decide

/-! ## Loads and stores -/

/-- VL1, VL2. -/
theorem test_sw :
    runs 0x4441 (start [(2, 512), (1, 0xBEEF)]) (fun t => t.mem.read 512 == 0xBE && t.mem.read 513 == 0xEF) = true ∧
    runs 0x4441 (start [(2, 1022), (1, 0x0102)]) (fun t => t.mem.read 1022 == 1 && t.mem.read 1023 == 2) = true := by decide

/-- VL3, VL4. -/
theorem test_swFaults :
    runs 0x4441 (start [(2, 1021)]) (fun t => t.status == .terminalFailure .memoryAlignment && t.mem.read 1021 == 0) = true ∧
    runs 0x4441 (start [(2, 1023)]) (fun t => t.status == .terminalFailure .memoryBounds) = true := by decide

/-- VL6, VL14. -/
theorem test_lw :
    runs 0x4843 (withBytes [(512, 0xBE), (513, 0xEF)] (start [(2, 512)])) (fun t => t.reg 3 == 0xBEEF && t.reg 2 == 512) = true ∧
    runs 0x485D (withBytes [(513, 0xC8)] (start [(2, 512), (29, 140)])) (fun t => t.pc == 200) = true := by decide

/-- VL7. -/
theorem test_lwFault :
    runs 0x4843 (start [(2, 0xFFFF), (3, 9)]) (fun t => t.status == .terminalFailure .memoryBounds && t.reg 3 == 9) := by decide

/-- VL9, VL11. -/
theorem test_sb :
    runs 0x4C41 (start [(2, 513), (1, 0x1234)]) (fun t => t.mem.read 513 == 0x34 && t.mem.read 512 == 0) = true ∧
    runs 0x4C41 (start [(2, 1024)]) (fun t => t.status == .terminalFailure .memoryBounds) = true := by decide

/-- VL12, VL13. -/
theorem test_lb :
    runs 0x8444 (withBytes [(512, 0xFF)] (start [(2, 512)])) (fun t => t.reg 4 == 0x00FF) = true ∧
    runs 0x8444 (withBytes [(1023, 0x80)] (start [(2, 1023)])) (fun t => t.reg 4 == 0x0080) = true := by decide

/-! ## Immediate operands -/

/-- VI1, VI2. -/
theorem test_movi :
    runs 0x5005 (start [(31, 2)]) (fun t => t.reg 0 == 5 && t.st == 2) = true ∧
    runs 0x5010 (start []) (fun t => t.reg 0 == 0xFFF0) = true := by decide

/-- VI5, VI6. -/
theorem test_addi :
    runs 0x543F (start []) (fun t => t.reg 1 == 0xFFFF && t.st == 2) = true ∧
    runs 0x5421 (start [(1, 0xFFFF)]) (fun t => t.reg 1 == 0 && t.st == 1) = true := by decide

/-- VI7, VI8. -/
theorem test_subi :
    runs 0x5801 (start [(0, 1)]) (fun t => t.reg 0 == 0 && t.st == 1) = true ∧
    runs 0x5810 (start []) (fun t => t.reg 0 == 16 && t.st == 0) = true := by decide

/-- VI9, VI10. -/
theorem test_andi :
    runs 0x5C3E (start [(1, 0x8001)]) (fun t => t.reg 1 == 0x8000 && t.st == 2) = true ∧
    runs 0x5C2F (start [(1, 0xFFF0)]) (fun t => t.reg 1 == 0 && t.st == 1) = true := by decide

/-- VI11, VI12. -/
theorem test_ori :
    runs 0x6028 (start [(1, 1)]) (fun t => t.reg 1 == 9 && t.st == 0) = true ∧
    runs 0x6030 (start []) (fun t => t.reg 1 == 0xFFF0 && t.st == 2) = true := by decide

/-- VI13. -/
theorem test_xori :
    runs 0x643F (start [(1, 0x00FF)]) (fun t => t.reg 1 == 0xFF00 && t.st == 2) := by decide

/-! ## Jumps, at address 140 with (Z, S) in ST -/

/-- VJ1, VJ19. -/
theorem test_jmp :
    runs 0x6802 (start [(29, 140), (31, 3)]) (fun t => t.pc == 144 && t.st == 3) = true ∧
    runs 0x6B72 (start [(29, 140), (31, 0)]) (fun t => t.pc == 0 && t.st == 0) = true := by decide

/-- VJ2, VJ3. -/
theorem test_jmpeq :
    runs 0x6C02 (start [(29, 140), (31, 1)]) (fun t => t.pc == 144 && t.st == 1) = true ∧
    runs 0x6C02 (start [(29, 140), (31, 2)]) (fun t => t.pc == 142 && t.st == 2) = true := by decide

/-- VJ4, VJ5. -/
theorem test_jmpne :
    runs 0x7002 (start [(29, 140), (31, 0)]) (fun t => t.pc == 144 && t.st == 0) = true ∧
    runs 0x7002 (start [(29, 140), (31, 1)]) (fun t => t.pc == 142 && t.st == 1) = true := by decide

/-- VJ6, VJ7, VJ8. -/
theorem test_jmpgt :
    runs 0x7402 (start [(29, 140), (31, 2)]) (fun t => t.pc == 144 && t.st == 2) = true ∧
    runs 0x7402 (start [(29, 140), (31, 0)]) (fun t => t.pc == 142 && t.st == 0) = true ∧
    runs 0x7402 (start [(29, 140), (31, 3)]) (fun t => t.pc == 142 && t.st == 3) = true := by decide

/-- VJ9, VJ10. -/
theorem test_jmplt :
    runs 0x7802 (start [(29, 140), (31, 3)]) (fun t => t.pc == 144 && t.st == 3) = true ∧
    runs 0x7802 (start [(29, 140), (31, 0)]) (fun t => t.pc == 142 && t.st == 0) = true := by decide

/-- VJ11, VJ12. -/
theorem test_jmpge :
    runs 0x7C02 (start [(29, 140), (31, 1)]) (fun t => t.pc == 144 && t.st == 1) = true ∧
    runs 0x7C02 (start [(29, 140), (31, 2)]) (fun t => t.pc == 142 && t.st == 2) = true := by decide

/-- VJ13, VJ14, VJ15. -/
theorem test_jmple :
    runs 0x8002 (start [(29, 140), (31, 0)]) (fun t => t.pc == 144 && t.st == 0) = true ∧
    runs 0x8002 (start [(29, 140), (31, 1)]) (fun t => t.pc == 142 && t.st == 1) = true ∧
    runs 0x8002 (start [(29, 140), (31, 3)]) (fun t => t.pc == 144 && t.st == 3) = true := by decide

/-- VJ18. -/
theorem test_jmpWraps :
    runs 0x6A00 (start []) (fun t => t.pc == 0xFE82 && t.status == .ready) := by decide

/-! ## The step and the host -/

/-- VF1, VF2, VF3. -/
theorem test_fetchFaults :
    stepsTo (start [(29, 129)]) (fun t => t.status == .terminalFailure .memoryAlignment && t.pc == 129) = true ∧
    stepsTo (start [(29, 1024)]) (fun t => t.status == .terminalFailure .memoryBounds && t.pc == 1024) = true ∧
    stepsTo (start [(29, 1023)]) (fun t => t.status == .terminalFailure .memoryBounds && t.pc == 1023) = true := by decide

/-- VF4. -/
theorem test_lastWord :
    runs 0x5005 (start [(29, 1022)]) (fun t => t.reg 0 == 5 && t.pc == 1024) := by decide

/-- VF5. -/
theorem test_badOpcode :
    runs 0x8800 (start []) (fun t => t.status == .terminalFailure .badOpcode && t.pc == 130) := by decide

/-- VF7, VF8. -/
theorem test_terminalStops :
    step { start [] with status := .terminalSuccess } = .refused .halted ∧
    step { start [] with status := .terminalFailure .badOpcode } = .fault .badOpcode := ⟨rfl, rfl⟩

/-- VF10, VF11. -/
theorem test_events :
    runs 0x2C22 (start []) (fun t => t.events == [.registerChanged 29, .registerChanged 1, .registerChanged 31]) = true ∧
    runs 0x4441 (start [(2, 512)])
      (fun t => t.events == [.registerChanged 29, .memoryChanged 512, .memoryChanged 513]) = true := by decide

/-- R137: zeroed memory decodes as HALT. -/
theorem test_resetStep :
    stepsTo State.reset (fun t => t.status == .terminalSuccess && t.pc == 130) := by decide

/-- VD1 to VD4. -/
theorem test_loadErrors :
    (loadChars [] State.reset).1 = .emptyCode ∧ (loadChars ['0', '0', '0'] State.reset).1 = .malformedCode ∧
    (loadChars ['0', '0', 'g', '0'] State.reset).1 = .malformedCode ∧
    (loadChars ['0', '0', '0', '0', ' '] State.reset).1 = .malformedCode := by decide

/-- VD5, in both cases of the digits. -/
theorem test_loadWrites :
    (loadChars ['A', 'B', 'c', 'd'] State.reset).2.mem = [(128, 0xAB), (129, 0xCD)] := by decide

/-- VD9. -/
theorem test_loadKeepsTheRest :
    (loadChars ['5', '0', '0', '5'] (withBytes [(130, 7)] State.reset)).2.mem = [(128, 0x50), (129, 0x05), (130, 7)] := by decide

/-- D19 over a run of MOVI r0 5 and HALT. -/
theorem test_runEvents :
    runEvents [] (atPc 0x5005 (start [])) =
    [.registerChanged 29, .registerChanged 0, .registerChanged 29] := by decide

/-- R264: a reset in the gap withdraws no event, and a terminal status has no transition. -/
theorem test_runEventsGap :
    runEvents [[.appendInput [1], .reset]] (start []) = [.inputChanged, .registerChanged 29] ∧
    runEvents [[.appendInput [1]]] { start [] with pause := true } = [.inputChanged] ∧
    runEvents [[.appendInput [1]]] { start [] with status := .terminalSuccess } = [] := by decide

/-- VH1. -/
theorem test_runPaused :
    run { State.reset with pause := true } = .next { State.reset with pause := true, status := .paused } := rfl

/-! ## The assembler -/

/-- S2, S3, VX7, VX8, VX9, VX13. -/
theorem test_assemble :
    assemble .reject "MOVI r0 5" = .ok "5005" ∧ assemble .reject "loop:\nJMP loop" = .ok "6bfe" ∧
    assemble .reject "mov R1 r2 # copy" = .ok "2822" ∧ assemble .reject "JMP end\nend:\nHALT" = .ok "68000000" ∧
    assemble .reject "MOVI r007 3" = .ok "50e3" ∧ assemble .reject "# nothing" = .ok "" := by decide +kernel

/-- S4, VX1, VX3 to VX6, VX10 to VX12. -/
theorem test_assembleErrors :
    assemble .reject "a:\nHALT\na:\nHALT" = .error .duplicateLabel ∧ assemble .reject "MOVI r0 16" = .error .invalidImmediate ∧
    assemble .reject "ADD r32 r0" = .error .invalidRegister ∧ assemble .reject "JMP nowhere" = .error .unknownLabel ∧
    assemble .reject "HALT r0" = .error .syntaxError ∧ assemble .reject "loop: JMP loop" = .error .syntaxError ∧
    assemble .reject "ADD r1, r2" = .error .syntaxError ∧ assemble .reject "FOO r1" = .error .syntaxError ∧
    assemble .reject "a:\nJMP b\na:" = .error .duplicateLabel := by decide +kernel

/-- R16 and R103: the last address a label can have (log entry 11). -/
theorem test_labelRange :
    labelScan [['a', ':']] 65534 [] = .ok [(['a'], 65534)] ∧
    labelScan [['a', ':']] 65536 [] = .error .labelOutOfRange := by decide

/-! ## Witnesses: states and operands that meet the hypotheses of each obligation -/

/-- The state in which `JMP -2` at 128 is about to run again: a step of it changes nothing. -/
def looping : State := { atPc 0x6BFE (start []) with events := [.registerChanged 29, .registerChanged 29] }

/-- `NOT r0` and then a HALT: the states of two steps. -/
def notThenHalt (k : Nat) : State := if k = 0 then atPc 0x0800 (start []) else after (atPc 0x0800 (start []))

theorem looping_step : step looping = .next looping := rfl

theorem looping_inProgress (n : Nat) : InProgressFor n fun _ => looping := fun _ _ => ⟨rfl, looping_step, rfl⟩

theorem witness_EncodeDecodeInverse :
    (Instr.xori 31 (-16)).wf = true ∧ decodeWord 0x67F0 = .ok (.xori 31 (-16)) ∧ decodeWord 0x03FF = .ok .halt := by decide

theorem witness_PackingIsArithmetic :
    Mnemonic.brk.shape = .r0 ∧ Mnemonic.read.shape = .r1 ∧ Mnemonic.lb.shape = .r2 ∧ Mnemonic.movi.shape = .i ∧
      Mnemonic.jmple.shape = .j ∧ ((-17 : Int) < -16 ∨ (15 : Int) < -17) ∧ ((16 : Int) < -16 ∨ (15 : Int) < 16) := by decide

theorem witness_DecoderTotalByOpcode :
    (0x87FF : Word).toNat < 0x8800 ∧ 0x8800 ≤ (0x8800 : Word).toNat ∧ decodeWord 0x0001 = .ok .halt ∧
      (0x0001 : Word) &&& usedBits .r0 = 0x03FF &&& usedBits .r0 := by decide

theorem witness_FieldsSignExtend :
    (0x000F : Word).toNat % 32 < 16 ∧ 16 ≤ (0x0010 : Word).toNat % 32 ∧ (0x01FF : Word).toNat % 1024 < 512 ∧
      512 ≤ (0x0200 : Word).toNat % 1024 ∧
      (decodeWord 0x5010 = .ok (.movi 0 (-16)) ∧ (Instr.movi 0 (-16)).mnemonic.shape = .i) ∧
      (decodeWord 0x6A00 = .ok (.jmp (-512)) ∧ (Instr.jmp (-512)).mnemonic.shape = .j) := by decide

theorem witness_TakenJump :
    (Fetches (atPc 0x69FF (start [])) ∧ (atPc 0x69FF (start [])).mem.readWord 128 = 0x69FF ∧
        decodeWord 0x69FF = .ok (.jmp 511) ∧ jumpOf (.jmp 511) = some (.always, 511) ∧ (511 : Int) % 2 = 1) ∧
      (Fetches (atPc 0x6E00 (start [(31, 1)])) ∧ (atPc 0x6E00 (start [(31, 1)])).mem.readWord 128 = 0x6E00 ∧
        decodeWord 0x6E00 = .ok (.jmpeq (-512)) ∧ jumpOf (.jmpeq (-512)) = some (.eq, -512) ∧
        JumpCond.eq.holds (atPc 0x6E00 (start [(31, 1)])).z (atPc 0x6E00 (start [(31, 1)])).s = true) := by decide

theorem witness_WordsAreBigEndian :
    Memory.wf [] ∧ 1022 + 1 < 1024 ∧
      (atPc 0x1234 (start [(29, 1022)])).mem = Memory.writeWord [] 1022 0x1234 ∧
      (atPc 0x1234 (start [(29, 1022)])).pc.toNat = 1022 ∧ 1022 % 2 = 0 := by decide

theorem witness_StepRunsDecodedInstruction :
    Fetches (atPc 0x5005 (start [(29, 1022)])) ∧
      decodeWord ((atPc 0x5005 (start [(29, 1022)])).mem.readWord (start [(29, 1022)]).pc.toNat) = .ok (.movi 0 5) := by decide

theorem witness_FetchChecksThenReads :
    1022 < (start [(29, 1023)]).pc.toNat ∧
      ((start [(29, 1021)]).pc.toNat ≤ 1022 ∧ (start [(29, 1021)]).pc.toNat % 2 = 1) ∧
      WordAddress (start [(29, 1022)]).pc ∧
      ((start [(29, 1)]).status.enabled = true ∧ (checkWord (start [(29, 1)]).pc = some .memoryAlignment)) := by decide

theorem witness_FetchFault : (start [(29, 1)]).fetch = .error .memoryAlignment := rfl

theorem witness_UnassignedOpcodeRaisesBadOpcode :
    Fetches (atPc 0x8800 (start [])) ∧ 0x8800 ≤ ((atPc 0x8800 (start [])).mem.readWord 128).toNat := by decide

theorem witness_StepOutcomesAreFour :
    stepsTo looping (·.status == .ready) = true ∧ runs 0x0400 (start []) (·.status == .breakpoint) = true ∧
      runs 0x0000 (start []) (·.status == .terminalSuccess) = true ∧
      runs 0x8800 (start []) (·.status == .terminalFailure .badOpcode) = true := by decide

theorem witness_NextPcCases :
    (checkWord (start [(29, 1)]).pc ≠ none ∧ stepsTo (start [(29, 1)]) (fun _ => true) = true) ∧
      (checkWord (start []).pc = none ∧ runs 0x8800 (start []) (·.status == .terminalFailure .badOpcode) = true) ∧
      (decodeWord 0x0800 = .ok (.not 0) ∧ destination (.not 0) ≠ some pcIndex ∧ jumpOf (.not 0) = none ∧
        runs 0x0800 (start []) (fun _ => true) = true) ∧
      (decodeWord 0x6C02 = .ok (.jmpeq 2) ∧ jumpOf (.jmpeq 2) = some (.eq, 2) ∧
        runs 0x6C02 (start []) (fun _ => true) = true) ∧
      (decodeWord 0x485D = .ok (.lw 2 29) ∧ destination (.lw 2 29) = some pcIndex ∧
        runs 0x485D (start [(2, 1022)]) (·.status == .ready) = true) := by decide

theorem witness_FaultsArePrecise :
    stepsTo (start [(29, 1023)]) (·.status == .terminalFailure .memoryBounds) = true ∧
      runs 0x1020 (start []) (·.status == .terminalFailure .memoryBounds) = true ∧
      decodeWord 0x1020 = .ok (.pop 1) ∧
      runs 0x4441 (start [(2, 1)]) (·.status == .terminalFailure .memoryAlignment) = true ∧
      decodeWord 0x4441 = .ok (.sw 2 1) := by decide

theorem witness_HaltEndsTheRun :
    Fetches (atPc 0x03FF (start [])) ∧ ((atPc 0x03FF (start [])).mem.readWord 128).toNat < 0x0400 := by decide

theorem witness_MoviWritesImmediate :
    (((-16 : Int) ≤ -16 ∧ (-16 : Int) ≤ 15) ∧ ((-16 : Int) ≤ 15 ∧ (15 : Int) ≤ 15)) ∧
      exec (.movi pcIndex 14) (start []) = .next (((start []).writeReg pcIndex 14).latch .ready) := ⟨by decide, rfl⟩

theorem witness_LogicIsBitwise : ((-16 : Int) ≤ -16 ∧ (-16 : Int) ≤ 15) ∧ ((-16 : Int) ≤ 15 ∧ (15 : Int) ≤ 15) := by decide

theorem witness_Shifts :
    ((start [(2, 15)]).reg 2).toNat < 16 ∧ 16 ≤ ((start [(2, 16)]).reg 2).toNat ∧ 16 ≤ ((start [(2, 0xFFFF)]).reg 2).toNat := by
  decide

theorem witness_OtherInstructionsKeepStatusRegister :
    exec (.movi 0 5) (start []) = .next (((start []).writeReg 0 5).latch .ready) ∧ updatesFlags (.movi 0 5) = false ∧
      destination (.movi 0 5) ≠ some stIndex := ⟨rfl, rfl, by decide⟩

theorem witness_PushStoresThenDescends :
    ((start []).mem.wf ∧ WordAddress (start []).sp) ∧ WordAddress (start [(30, 0)]).sp := by decide

theorem witness_PopAscendsThenLoads :
    (1022 = ((start [(30, 1020)]).sp.toNat + 2) % 65536 ∧ 1022 ≤ 1022 ∧ 1022 % 2 = 0) ∧
      (0 = ((start [(30, 0xFFFE)]).sp.toNat + 2) % 65536 ∧ 0 ≤ 1022 ∧ 0 % 2 = 0) := by decide

theorem witness_PopFaultKeepsMovedPointer :
    (1024 = ((start []).sp.toNat + 2) % 65536 ∧ (1022 < 1024 ∨ 1024 % 2 = 1)) ∧
      (1 = ((start [(30, 0xFFFF)]).sp.toNat + 2) % 65536 ∧ (1022 < 1 ∨ 1 % 2 = 1)) := by decide

theorem witness_PopUndoesPush : (start [(30, 0)]).mem.wf ∧ WordAddress (start [(30, 0)]).sp := by decide

theorem witness_PrintAppendsByte : ((start [(1, 1023)]).reg 1).toNat ≤ 1023 := by decide

theorem witness_ReadStoresNextCode :
    (start [(1, 1023)]).mem.wf ∧ ((start [(1, 1023)]).reg 1).toNat ≤ 1023 ∧ (start [(1, 1023)]).inq = [] ∧
      { start [(1, 1023)] with inq := [256, 1] }.inq = 256 :: [1] := by decide

theorem witness_ConsoleReachedOnlyByPrintAndRead :
    runs 0x1420 (start [(1, 0)]) (fun t => t.outbuf != []) = true ∧
      runs 0x1820 { start [(1, 0)] with inq := [1] } (fun t => t.inq != [1]) = true := by decide

theorem witness_WordAccesses :
    (start [(2, 1022)]).mem.wf ∧ WordAddress ((start [(2, 1022)]).reg 2) ∧ WordAddress ((start [(2, 0)]).reg 2) := by decide

theorem witness_ByteAccesses :
    (start [(2, 1023)]).mem.wf ∧ ((start [(2, 1023)]).reg 2).toNat ≤ 1023 := by decide

theorem witness_AccessFaultsWriteNothing :
    1022 < ((start [(2, 1023)]).reg 2).toNat ∧
      (((start [(2, 1021)]).reg 2).toNat ≤ 1022 ∧ ((start [(2, 1021)]).reg 2).toNat % 2 = 1) ∧
      1022 < (start [(30, 1023)]).sp.toNat ∧
      ((start [(30, 1)]).sp.toNat ≤ 1022 ∧ (start [(30, 1)]).sp.toNat % 2 = 1) ∧
      1023 < ((start [(2, 1024)]).reg 2).toNat := by decide

theorem witness_ExecuteFaultsOnlyFromAccesses :
    exec (.sb 2 1) (start [(2, 1024)]) = .next ((start [(2, 1024)]).latch (.terminalFailure .memoryBounds)) ∧
      ((start [(2, 1024)]).latch (.terminalFailure .memoryBounds)).status = .terminalFailure .memoryBounds := ⟨rfl, rfl⟩

theorem witness_OnlyStoresWriteMemory :
    exec (.mov 1 2) (start []) = .next (((start []).writeReg 1 0).latch .ready) ∧ storesToMemory (.mov 1 2) = false :=
  ⟨rfl, rfl⟩

theorem witness_OnlyLoadsReadMemory :
    ((start []).mem.wf ∧ Memory.wf [(1022, 7)]) ∧
      (readsMemory (.mov 1 2) = false ∧ exec (.mov 1 2) (start []) = .next (((start []).writeReg 1 0).latch .ready)) :=
  ⟨by decide, rfl, rfl⟩

theorem witness_OnlyLoadsReadMemory_stores :
    (readsMemory (.sw 2 1) = false ∧ storeSpan (.sw 2 1) (start [(2, 1022)]) = (1022, 2) ∧
        exec (.sw 2 1) (start [(2, 1022)]) = .next (((start [(2, 1022)]).storeWord 1022 0).latch .ready)) ∧
      (readsMemory (.sw 2 1) = false ∧ exec (.sw 2 1) (start [(2, 1023)]) =
        .next ((start [(2, 1023)]).latch (.terminalFailure .memoryBounds))) :=
  ⟨⟨rfl, rfl, rfl⟩, rfl, rfl⟩

/-- A state that runs the word `w` at the PC of `s` meets the hypotheses of StoreIsSeenByNextFetch for the instruction `i`. -/
abbrev StoresNext (w : Nat) (i : Instr) (s : State) : Prop :=
  (atPc w s).mem.wf ∧ Fetches (atPc w s) ∧ decodeWord ((atPc w s).mem.readWord s.pc.toNat) = .ok i ∧ s.pc.toNat + 2 ≤ 1022

theorem witness_StoreIsSeenByNextFetch :
    (StoresNext 0x4441 (.sw 2 1) (start [(2, 130)]) ∧ ((start [(2, 130)]).advancePc.reg 2).toNat = 130) ∧
      (StoresNext 0x47A1 (.sw 29 1) (start [(29, 1020)]) ∧ ((start [(29, 1020)]).advancePc.reg 29).toNat = 1022) ∧
      (StoresNext 0x0C20 (.push 1) (start [(30, 130)]) ∧ (start [(30, 130)]).sp.toNat = 130) := by decide

theorem witness_StoreIsSeenByNextFetch_bytes :
    (StoresNext 0x4C41 (.sb 2 1) (start [(2, 130)]) ∧ ((start [(2, 130)]).advancePc.reg 2).toNat = 130) ∧
      (StoresNext 0x4C41 (.sb 2 1) (start [(2, 131)]) ∧ ((start [(2, 131)]).advancePc.reg 2).toNat = 130 + 1) ∧
      (StoresNext 0x1840 (.read 2) (start [(2, 130)]) ∧ ((start [(2, 130)]).advancePc.reg 2).toNat = 130) ∧
      (StoresNext 0x1840 (.read 2) (start [(2, 131)]) ∧ ((start [(2, 131)]).advancePc.reg 2).toNat = 130 + 1) := by decide

theorem witness_JmpIsRelative :
    ((-512 : Int) ≤ -512 ∧ (-512 : Int) ≤ 511) ∧ ((-512 : Int) ≤ 511 ∧ (511 : Int) ≤ 511) ∧ Fetches looping ∧
      looping.mem.readWord looping.pc.toNat = 0x6BFE := by decide

theorem witness_JumpAndMoviEvents :
    exec (.jmp 2) (start []) = .next (((start []).writeReg pcIndex 130).latch .ready) ∧
      jumpOf (.jmp 2) = some (.always, 2) ∧
      exec (.movi 0 5) (start []) = .next (((start []).writeReg 0 5).latch .ready) := ⟨rfl, rfl, rfl⟩

theorem witness_WritingPcRedirectsFetch :
    Fetches (atPc 0x2BA1 (start [(1, 1022)])) ∧ decodeWord 0x2BA1 = .ok (.mov pcIndex 1) ∧
      (atPc 0x2BA1 (start [(1, 1022)])).mem.readWord 128 = 0x2BA1 ∧ destination (.mov pcIndex 1) = some pcIndex ∧
      readsMemory (.mov pcIndex 1) = false ∧
      runs 0x2BA1 (start [(1, 1022)]) (fun t => t.status == .ready && decide (WordAddress t.pc)) = true ∧
      runs 0x2BA1 (start [(1, 1023)]) (fun t => t.status == .ready && decide (¬WordAddress t.pc)) = true := by decide

theorem witness_LoadingPcRedirectsFetch :
    (Fetches (atPc 0x485D (start [(2, 1022)])) ∧ decodeWord 0x485D = .ok (.lw 2 pcIndex) ∧
        WordAddress ((start [(2, 1022)]).advancePc.reg 2)) ∧
      (Fetches (atPc 0x845D (start [(2, 1023)])) ∧ decodeWord 0x845D = .ok (.lb 2 pcIndex) ∧
        ((start [(2, 1023)]).advancePc.reg 2).toNat ≤ 1023) ∧
      (Fetches (atPc 0x13A0 (start [(30, 0xFFFE)])) ∧ decodeWord 0x13A0 = .ok (.pop pcIndex) ∧
        WordAddress ((start [(30, 0xFFFE)]).sp + 2)) := by decide

theorem witness_CompareThenBranch :
    exec (.cmp 1 2) (start []) = .next (((start []).setFlags true false).latch .ready) := rfl

theorem witness_StepKeepsInvariant : (atPc 0x4441 (start [(2, 1022), (1, 1)])).Inv ∧
    runs 0x4441 (start [(2, 1022), (1, 1)]) (fun t => t.mem.length == 3) = true := by decide

theorem witness_HostOperationsKeepInvariant :
    (start []).Inv ∧ hostApply false (.write (.appendInput [65])) (start []) =
      .ok ({ start [] with inq := [65], events := [.inputChanged] }, .done) := ⟨by decide, rfl⟩

theorem witness_StepIgnoresPauseFlag : step looping = .next looping := looping_step

theorem witness_HiddenStateDoesNotLeak :
    looping.regs = { looping with outbuf := [1], pause := true }.regs ∧
      looping.mem = { looping with outbuf := [1], pause := true }.mem ∧
      looping.inq.head? = { looping with outbuf := [1], pause := true }.inq.head? ∧
      looping.inq = { looping with outbuf := [1], pause := true }.inq ∧
      step looping = .next looping ∧
      step { looping with outbuf := [1], pause := true } = .next { looping with outbuf := [1], pause := true } :=
  ⟨rfl, rfl, rfl, rfl, rfl, rfl⟩

theorem witness_RunStepsToLimit_paused :
    { looping with pause := true }.status.enabled = true ∧ { looping with pause := true }.pause = true := by decide

theorem witness_RunStepsToLimit_stops :
    1 < 10000 ∧ (notThenHalt 0).status.enabled = true ∧ InProgressFor 1 notThenHalt ∧ (notThenHalt 1).pause = false ∧
      step (notThenHalt 1) = .next (after (notThenHalt 1)) ∧ (after (notThenHalt 1)).status ≠ .ready := by
  refine ⟨by decide, by decide, fun k hk => ?_, by decide, rfl, by decide⟩
  obtain rfl : k = 0 := by omega
  exact ⟨rfl, rfl, by decide⟩

theorem witness_RunStepsToLimit_limit : looping.status.enabled = true ∧ InProgressFor 10000 fun _ => looping :=
  ⟨rfl, looping_inProgress 10000⟩

theorem witness_HostWritesAreExact :
    9999 < 10000 ∧ looping.status.enabled = true ∧ InProgressFor 9999 fun _ => looping :=
  ⟨by decide, rfl, looping_inProgress 9999⟩

theorem witness_TerminalStatusStaysUntilReset :
    { start [] with status := .terminalSuccess }.status.enabled = false ∧
      { start [] with status := .terminalFailure .stepLimitExceeded }.status.enabled = false ∧
      HostOp.write (.setPause true) ≠ .write .reset ∧
      hostApply false .readOutput { start [] with status := .terminalSuccess } =
        .ok ({ start [] with status := .terminalSuccess }, .output []) := ⟨rfl, rfl, by decide, rfl⟩

theorem witness_ReentrantHostIsRefused : HostOp.step ≠ .readOutput := by decide

theorem digitValue_zero : DigitValue '0' 0 := .inl rfl

theorem digitValue_f : DigitValue 'f' 15 ∧ DigitValue 'F' 15 := ⟨.inl rfl, .inr rfl⟩

theorem not_digitValue_g (n : Nat) : ¬DigitValue 'g' n := by
  intro h
  have mem : 'g' ∈ "0123456789abcdef".toList ∨ 'g' ∈ "0123456789ABCDEF".toList :=
    h.imp List.mem_of_getElem? List.mem_of_getElem?
  exact absurd mem (by decide)

theorem witness_LoadChecksThenWrites :
    (start []).mem.wf ∧ "".toList = [] ∧ ("000".toList ≠ [] ∧ "000".toList.length % 4 ≠ 0) ∧
      ("00g0".toList ≠ [] ∧ ∃ c, c ∈ "00g0".toList ∧ ∀ n, ¬DigitValue c n) :=
  ⟨by decide, by decide, by decide, by decide, 'g', by decide, not_digitValue_g⟩

/-- The text of `k` groups of four zeros. -/
def zeroGroups (k : Nat) : String := String.ofList (List.replicate (4 * k) '0')

theorem zeroGroups_digits (k : Nat) :
    (zeroGroups k).toList.length = 4 * k ∧ ∀ c, c ∈ (zeroGroups k).toList → ∃ n, DigitValue c n := by
  refine ⟨by simp [zeroGroups], fun c hc => ⟨0, ?_⟩⟩
  rw [zeroGroups, String.toList_ofList] at hc
  rw [List.eq_of_mem_replicate hc]
  exact digitValue_zero

theorem witness_LoadLengths :
    ((zeroGroups 257).toList.length % 4 = 0 ∧ (∀ c, c ∈ (zeroGroups 257).toList → ∃ n, DigitValue c n) ∧
        1024 < (zeroGroups 257).toList.length) ∧
      ((zeroGroups 256).toList ≠ [] ∧ (zeroGroups 256).toList.length % 4 = 0 ∧
        (∀ c, c ∈ (zeroGroups 256).toList → ∃ n, DigitValue c n) ∧ (zeroGroups 256).toList.length ≤ 1024 ∧
        (∀ i, i < 4 → (zeroGroups 256).toList[4 * 255 + i]? = some '0')) := by
  obtain ⟨long, digits⟩ := zeroGroups_digits 257
  obtain ⟨full, digits'⟩ := zeroGroups_digits 256
  refine ⟨⟨by omega, digits, by omega⟩, fun e => ?_, by omega, digits', by omega, fun i hi => ?_⟩
  · rw [e] at full; exact absurd full (by decide)
  · rw [zeroGroups, String.toList_ofList, List.getElem?_replicate, if_pos (by omega)]

theorem witness_AssemblerEmitsFourDigitsPerWord : assemble .truncate "BREAK" = .ok "0400" := by decide +kernel

/-- A source of the written form: a comment, a label, an instruction in lower case, and a jump back to the label. -/
def written : List SourceLine := [
  { item := .label ['l', '_', '1'], spelling := [], before := [], gap := [' '], after := [], comment := ['#', 'x'] },
  { item := .plain (.movi 31 (-16)), spelling := ['m', 'o', 'V', 'i'], before := ['\t'], gap := [' ', '\t'], after := [' '],
    comment := [] },
  { item := .jump .jmp ['l', '_', '1'], spelling := ['J', 'M', 'P'], before := [' '], gap := [' '], after := [],
    comment := ['#'] }]

theorem written_text : sourceText written = "l_1:#x\n\tmoVi \tr31 \t-16 \n JMP l_1#\n".toList := by decide

theorem blanks_of {cs : List Char} (h : (cs.all fun c => c == ' ' || c == '\t') = true) : Blanks cs := fun c hc => by
  simpa using List.all_eq_true.mp h c hc

theorem labelName_l_1 : LabelName ['l', '_', '1'] := by
  refine ⟨fun c hc => ?_, 'l', rfl, rfl⟩
  simp only [List.mem_cons, List.not_mem_nil, or_false] at hc
  rcases hc with rfl | rfl | rfl
  · exact .inl rfl
  · exact .inr (.inr rfl)
  · exact .inr (.inl rfl)

theorem written_ok : ∀ l, l ∈ written → l.ok := by
  intro l hl
  simp only [written, List.mem_cons, List.not_mem_nil, or_false] at hl
  rcases hl with rfl | rfl | rfl
  · exact ⟨blanks_of rfl, blanks_of rfl, ⟨blanks_of rfl, by simp⟩, .inr ⟨['x'], rfl, by decide⟩, labelName_l_1⟩
  · exact ⟨blanks_of rfl, blanks_of rfl, ⟨blanks_of rfl, by simp⟩, .inl rfl, rfl, by decide, by decide⟩
  · exact ⟨blanks_of rfl, blanks_of rfl, ⟨blanks_of rfl, by simp⟩, .inr ⟨[], rfl, by decide⟩, rfl, labelName_l_1, by decide⟩

theorem witness_WrittenSource :
    (∀ l, l ∈ written → l.ok) ∧ (labelNames written).Nodup ∧ wordsBefore written written.length ≤ 256 ∧
      (∀ l, l ∈ written → ∀ m name, l.item = .jump m name → name ∈ labelNames written) ∧
      assemble .reject (String.ofList (sourceText written)) = .ok "53f06bfc" := by
  refine ⟨written_ok, by decide, by decide, fun l hl m name h => ?_, by decide +kernel⟩
  simp only [written, List.mem_cons, List.not_mem_nil, or_false] at hl
  rcases hl with rfl | rfl | rfl <;> cases h
  decide

theorem witness_OffsetPolicyIrrelevantWhenLoadable :
    [Instr.jmp (-2)].length ≤ 256 ∧ assembleInstrs .truncate "loop:\nJMP loop".toList = .ok [.jmp (-2)] := by decide +kernel

theorem witness_LoadedProgramDecodesBack :
    (∀ i, i ∈ List.replicate 256 Instr.brk → i.wf = true) ∧ 1 ≤ (List.replicate 256 Instr.brk).length ∧
      (List.replicate 256 Instr.brk).length ≤ 256 ∧ (start []).mem.wf := by
  have full : (List.replicate 256 Instr.brk).length = 256 := List.length_replicate
  refine ⟨fun i hi => ?_, by omega, by omega, by decide⟩
  rw [List.eq_of_mem_replicate hi]
  rfl

end Sys2Proof.Tests
end

/-! ## The invariant of every step (R28, R32) -/

namespace Sys2Proof.Machine

/-- An instruction changes the memory by canonical writes and the output buffer by `keepRecent`, or neither. -/
theorem exec_keepsInv {i : Instr} {s t : State} (hs : s.Inv) (h : exec i s = .next t) : t.Inv := by
  obtain ⟨hmem, hout⟩ := hs
  cases exec_effect h with
  | halt _ e | brk _ e | cmp _ _ _ e => subst e; exact ⟨hmem, hout⟩
  | register _ _ _ _ _ _ _ e | result _ _ _ _ _ _ _ e => subst e; exact ⟨hmem, hout⟩
  | jump _ _ _ _ _ _ e => obtain ⟨-, rfl⟩ | ⟨-, rfl⟩ := e <;> exact ⟨hmem, hout⟩
  | pop _ _ _ _ _ e | popFault _ _ _ _ e | accessFault _ _ _ e => subst e; exact ⟨hmem, hout⟩
  | print _ _ _ e => subst e; exact ⟨hmem, keepRecent_length _⟩
  | push _ _ _ e | storeWord _ _ _ _ e => subst e; exact ⟨State.storeWord_wf hmem _ _, hout⟩
  | readEmpty _ _ _ _ e | storeByte _ _ _ _ e => subst e; exact ⟨State.storeByte_wf hmem _ _, hout⟩
  | readCode _ _ _ _ _ _ e => subst e; exact ⟨State.storeByte_wf (s := State.takeInput s) hmem _ _, hout⟩

/-! ## Registers an instruction does not write (R22, R27) -/

/-- Besides its destination an instruction writes at most PC (a jump), SP (the stack) and ST (a flag update). -/
theorem exec_reg_unwritten {i : Instr} {s t : State} {j : Reg} (h : exec i s = .next t) (hpc : pcIndex ≠ j)
    (hsp : spIndex ≠ j) (hd : destination i ≠ some j) (hst : updatesFlags i = true → stIndex ≠ j) :
    t.reg j = s.reg j := by
  cases exec_effect h with
  | halt _ e | brk _ e | print _ _ _ e | accessFault _ _ _ e => subst e; rfl
  | readEmpty _ _ _ _ e | readCode _ _ _ _ _ _ e | storeWord _ _ _ _ e | storeByte _ _ _ _ e => subst e; rfl
  | register r _ hr _ _ _ _ e =>
    have hne : r ≠ j := fun hrj => hd (hrj ▸ hr)
    simp [e, hne]
  | result r _ hr _ u _ _ e =>
    have hne : r ≠ j := fun hrj => hd (hrj ▸ hr)
    simp [e, hne, hst u]
  | cmp _ _ hi e => simp [e, hst (by rw [hi]; rfl)]
  | jump _ _ _ _ _ _ e => obtain ⟨-, rfl⟩ | ⟨-, rfl⟩ := e <;> simp [hpc]
  | push _ _ _ e | popFault _ _ _ _ e => simp [e, hsp]
  | pop r hi _ _ _ e =>
    have hne : r ≠ j := fun hrj => hd (by rw [hi, ← hrj]; rfl)
    simp [e, hsp, hne]

/-! ## Steps that fetch, and fetches that fault (R130 to R132) -/

/-- Where the fetched word decodes, the step is the instruction's meaning past the pc advance. -/
theorem step_of_fetches {s : State} {i : Instr} (hf : Claims.Fetches s)
    (hi : decodeWord (s.mem.readWord s.pc.toNat) = .ok i) : step s = exec i s.beginStep.advancePc := by
  obtain ⟨hen, hpc⟩ := hf
  have hrun : s.status.stopped = none := Option.isNone_iff_eq_none.mp hen
  simp only [step, hrun, State.beginStep_fetch, State.fetch_of_ok ((checkWord_eq_none s.pc).mpr hpc),
    decodeAndExec, hi]

/-- A PC that is no word address faults at the fetch: the step latches a failure and leaves PC where it was. -/
theorem step_of_not_wordAddress {s : State} (hrun : s.status.stopped = none) (hpc : ¬Claims.WordAddress s.pc) :
    ∃ k, step s = .next (s.beginStep.latch (.terminalFailure k)) := by
  obtain ⟨k, hk⟩ := Option.ne_none_iff_exists'.mp (mt (checkWord_eq_none s.pc).mp hpc)
  refine ⟨k, ?_⟩
  simp only [step, hrun, State.beginStep_fetch, State.fetch_of_fault hk]
  exact (raise_eq_next _ _ _).mpr rfl

/-! ## Instructions with a destination -/

/-- The access of an instruction that reads memory into a register fails with `k` (R251). -/
inductive LoadFails (s : State) (k : Fault) : Instr → Prop
  | lw (rd rs : Reg) (h : checkWord (s.reg rd) = some k) : LoadFails s k (.lw rd rs)
  | lb (rd rs : Reg) (h : checkByte (s.reg rd) = some k) : LoadFails s k (.lb rd rs)
  | pop (rd : Reg) (h : checkWord (s.sp + 2) = some k) : LoadFails s k (.pop rd)

/-- An instruction with a destination other than ST, which a flag update changes after the write, leaves its value there
and keeps the memory, unless its access fails. -/
theorem exec_destination {i : Instr} {s t : State} {r : Reg} (h : exec i s = .next t) (hd : destination i = some r)
    (hr : stIndex ≠ r) :
    (t.status = .ready ∧ writtenValue i s = some (t.reg r) ∧ t.mem = s.mem) ∨
      ∃ k, LoadFails s k i ∧ t.status = .terminalFailure k := by
  cases exec_effect h with
  | register _ _ hd' w _ _ _ e | result _ _ hd' w _ _ _ e =>
    obtain rfl : _ = r := Option.some.inj (hd'.symm.trans hd)
    subst e
    exact .inl ⟨rfl, by simp [w, hr], rfl⟩
  | pop _ hi _ _ w e =>
    subst hi e
    obtain rfl := Option.some.inj hd
    exact .inl ⟨rfl, by simp [w], rfl⟩
  | popFault rd hi k hc e => subst hi e; exact .inr ⟨k, .pop rd hc, rfl⟩
  | accessFault k _ hf e =>
    subst e
    obtain ⟨rd, rs, rfl | rfl, hc⟩ | ⟨rd, rs, rfl | rfl | rfl | rfl, hc⟩ | ⟨rd, rfl, -⟩ := hf
    case inl.inr => exact .inr ⟨k, .lw rd rs hc, rfl⟩
    case inr.inl.inr.inl => exact .inr ⟨k, .lb rd rs hc, rfl⟩
    all_goals cases hd
  | jump _ _ _ _ d => rw [d] at hd; cases hd
  | halt hi | brk hi | cmp _ _ hi | push _ hi | print _ hi => subst hi; cases hd
  | readEmpty _ hi | readCode _ hi | storeWord _ _ hi | storeByte _ _ hi => subst hi; cases hd

/-- The written value depends on the registers and the memory only. -/
theorem writtenValue_congr (i : Instr) {s t : State} (hr : ∀ j, s.reg j = t.reg j) (hm : s.mem = t.mem) :
    writtenValue i s = writtenValue i t := by
  cases i <;> simp only [writtenValue, State.sp_eq, hr, hm]

/-! ## Two runs of a step side by side (R30, R33, R34) -/

/-- Two relations between states, `R` before an instruction and `S` after it, which its operations carry along. `S` has the
two states agree on the registers and the memory, and `R` on the queue's head too, which only READ looks at and takes. -/
structure Simulation (R S : State → State → Prop) : Prop where
  weaken : ∀ {s s'}, R s s' → S s s'
  head : ∀ {s s'}, R s s' → s.inq.head? = s'.inq.head?
  beginStep : ∀ {s s'}, R s s' → R s.beginStep s'.beginStep
  advancePc : ∀ {s s'}, R s s' → R s.advancePc s'.advancePc
  takeInput : ∀ {s s'}, R s s' → S s.takeInput s'.takeInput
  reg : ∀ {s s'}, S s s' → ∀ j, s.reg j = s'.reg j
  mem : ∀ {s s'}, S s s' → s.mem = s'.mem
  writeReg : ∀ {s s'}, S s s' → ∀ i v, S (s.writeReg i v) (s'.writeReg i v)
  storeByte : ∀ {s s'}, S s s' → ∀ a v, S (s.storeByte a v) (s'.storeByte a v)
  appendOutput : ∀ {s s'}, S s s' → ∀ b, S (s.appendOutput b) (s'.appendOutput b)
  latch : ∀ {s s'}, S s s' → ∀ st, S (s.latch st) (s'.latch st)

/-- Both outcomes are next states, related by `S`, with the same status. -/
def BothNext (S : State → State → Prop) (o o' : StepOutcome) : Prop :=
  ∃ t t', o = .next t ∧ o' = .next t' ∧ S t t' ∧ t.status = t'.status

namespace Simulation

variable {R S : State → State → Prop} {s s' : State}

theorem pc (sim : Simulation R S) (h : S s s') : s.pc = s'.pc := sim.reg h pcIndex
theorem sp (sim : Simulation R S) (h : S s s') : s.sp = s'.sp := sim.reg h spIndex
theorem st (sim : Simulation R S) (h : S s s') : s.st = s'.st := sim.reg h stIndex

theorem setFlags (sim : Simulation R S) (h : S s s') (z sg : Bool) : S (s.setFlags z sg) (s'.setFlags z sg) := by
  simp only [State.setFlags, sim.st h]
  exact sim.writeReg h _ _

theorem storeWord (sim : Simulation R S) (h : S s s') (a : Nat) (v : Word) : S (s.storeWord a v) (s'.storeWord a v) :=
  sim.storeByte (sim.storeByte h _ _) _ _

theorem finish (sim : Simulation R S) (h : S s s') (e : ExecutionStatus) :
    BothNext S (Machine.finish e s) (Machine.finish e s') :=
  ⟨_, _, rfl, rfl, sim.latch h _, rfl⟩

theorem withWordAt (sim : Simulation R S) (h : S s s') (a : Word) {go go' : Nat → StepOutcome}
    (hgo : ∀ n, BothNext S (go n) (go' n)) : BothNext S (Machine.withWordAt a s go) (Machine.withWordAt a s' go') := by
  cases hc : checkWord a with
  | none => rw [withWordAt_ok hc, withWordAt_ok hc]; exact hgo _
  | some k => rw [withWordAt_fault hc, withWordAt_fault hc]; exact sim.finish h _

theorem withByteAt (sim : Simulation R S) (h : S s s') (a : Word) {go go' : Nat → StepOutcome}
    (hgo : ∀ n, BothNext S (go n) (go' n)) : BothNext S (Machine.withByteAt a s go) (Machine.withByteAt a s' go') := by
  cases hc : checkByte a with
  | none => rw [withByteAt_ok hc, withByteAt_ok hc]; exact hgo _
  | some k => rw [withByteAt_fault hc, withByteAt_fault hc]; exact sim.finish h _

theorem write (sim : Simulation R S) (h : S s s') (rd : Reg) (v : Word) :
    BothNext S (complete (s.writeReg rd v)) (complete (s'.writeReg rd v)) :=
  sim.finish (sim.writeReg h _ _) _

theorem writeResult (sim : Simulation R S) (h : S s s') (rd : Reg) (r : Word) :
    BothNext S (s.writeResult rd r) (s'.writeResult rd r) :=
  sim.finish (sim.setFlags (sim.writeReg h _ _) _ _) _

theorem jumpIf (sim : Simulation R S) (h : S s s') (c : JumpCond) (off : Int) :
    BothNext S (s.jumpIf c off) (s'.jumpIf c off) := by
  have hz : s.z = s'.z := congrArg zOf (sim.st h)
  have hs : s.s = s'.s := congrArg sOf (sim.st h)
  simp only [State.jumpIf, hz, hs, sim.pc h]
  by_cases hc : c.holds s'.z s'.s = true
  · rw [if_pos hc, if_pos hc]; exact sim.write h _ _
  · rw [if_neg hc, if_neg hc]; exact sim.finish h _

/-- READ takes the same code from both queues, or finds both empty. -/
theorem execRead (sim : Simulation R S) (h : R s s') (rd : Reg) :
    BothNext S (Machine.execRead rd s) (Machine.execRead rd s') := by
  have hS := sim.weaken h
  have hhead := sim.head h
  simp only [Machine.execRead, sim.reg hS]
  refine sim.withByteAt hS _ fun a => ?_
  cases hq : s.inq <;> cases hq' : s'.inq <;> rw [hq, hq'] at hhead <;> cases hhead
  · exact sim.finish (sim.storeByte hS _ _) _
  · exact sim.finish (sim.storeByte (sim.takeInput h) _ _) _

/-- POP moves SP up, then loads through it. -/
theorem execPop (sim : Simulation R S) (h : S s s') (rd : Reg) :
    BothNext S (Machine.execPop rd s) (Machine.execPop rd s') := by
  have hup := sim.writeReg h spIndex (s'.sp + 2)
  simp only [Machine.execPop, sim.sp h, sim.sp hup, sim.mem hup]
  exact sim.withWordAt hup _ fun a => sim.write hup _ _

/-- An instruction run from related states ends in related states with the same status. -/
theorem exec (sim : Simulation R S) (h : R s s') (i : Instr) : BothNext S (Machine.exec i s) (Machine.exec i s') := by
  have hS := sim.weaken h
  have hreg := sim.reg hS
  cases i <;> simp only [Machine.exec]
  case halt | brk => exact sim.finish hS _
  case not | mov | movi => simp only [execNot, execMov, execMovi, hreg]; exact sim.write hS _ _
  case sl | sru | srs => simp only [execSl, execSru, execSrs, hreg]; exact sim.writeResult hS _ _
  case add | sub => simp only [execAdd, execSub, hreg]; exact sim.writeResult hS _ _
  case and | or | xor => simp only [execAnd, execOr, execXor, hreg]; exact sim.writeResult hS _ _
  case addi | subi => simp only [execAddi, execSubi, hreg]; exact sim.writeResult hS _ _
  case andi | ori | xori => simp only [execAndi, execOri, execXori, hreg]; exact sim.writeResult hS _ _
  case cmp => simp only [execCmp, hreg]; exact sim.finish (sim.setFlags hS _ _) _
  case jmp | jmpeq | jmpne | jmpgt | jmplt | jmpge | jmple => exact sim.jumpIf hS _ _
  case push =>
    simp only [execPush, sim.sp hS, hreg]
    exact sim.withWordAt hS _ fun a => sim.write (sim.storeWord hS _ _) _ _
  case pop => exact sim.execPop hS _
  case print =>
    simp only [execPrint, hreg, sim.mem hS]
    exact sim.withByteAt hS _ fun a => sim.finish (sim.appendOutput hS _) _
  case read => exact sim.execRead h _
  case sw => simp only [execSw, hreg]; exact sim.withWordAt hS _ fun a => sim.finish (sim.storeWord hS _ _) _
  case sb => simp only [execSb, hreg]; exact sim.withByteAt hS _ fun a => sim.finish (sim.storeByte hS _ _) _
  case lw => simp only [execLw, hreg, sim.mem hS]; exact sim.withWordAt hS _ fun a => sim.write hS _ _
  case lb => simp only [execLb, hreg, sim.mem hS]; exact sim.withByteAt hS _ fun a => sim.write hS _ _

/-- A step from related states in which both are enabled ends in related states with the same status. -/
theorem step (sim : Simulation R S) (h : R s s') (hs : s.status.stopped = none) (hs' : s'.status.stopped = none) :
    BothNext S (Machine.step s) (Machine.step s') := by
  have hbegin := sim.beginStep h
  have hS := sim.weaken hbegin
  have hadv := sim.advancePc hbegin
  have hfetch : s.beginStep.fetch = s'.beginStep.fetch := by simp only [State.fetch, sim.pc hS, sim.mem hS]
  simp only [Machine.step, hs, hs', hfetch]
  split
  · exact sim.finish hS _
  · unfold decodeAndExec
    split
    · exact sim.finish (sim.weaken hadv) _
    · exact sim.exec hadv _

end Simulation

/-! ### The two relations of the statements -/

/-- `s'` is `s` with its pause flag `b` in place of `p`. -/
def DifferInPause (p b : Bool) (s s' : State) : Prop := s.pause = p ∧ s' = { s with pause := b }

/-- No operation of an instruction reads or writes the pause flag (R30). -/
theorem simulation_differInPause (p b : Bool) : Simulation (DifferInPause p b) (DifferInPause p b) where
  weaken h := h
  head := by rintro _ _ ⟨-, rfl⟩; rfl
  beginStep := by rintro _ _ ⟨hp, rfl⟩; exact ⟨hp, rfl⟩
  advancePc := by rintro _ _ ⟨hp, rfl⟩; exact ⟨hp, rfl⟩
  takeInput := by rintro _ _ ⟨hp, rfl⟩; exact ⟨hp, rfl⟩
  reg := by rintro _ _ ⟨-, rfl⟩ j; rfl
  mem := by rintro _ _ ⟨-, rfl⟩; rfl
  writeReg := by rintro _ _ ⟨hp, rfl⟩ i v; exact ⟨hp, rfl⟩
  storeByte := by rintro _ _ ⟨hp, rfl⟩ a v; exact ⟨hp, rfl⟩
  appendOutput := by rintro _ _ ⟨hp, rfl⟩ c; exact ⟨hp, rfl⟩
  latch := by rintro _ _ ⟨hp, rfl⟩ st; exact ⟨hp, rfl⟩

/-- The states agree on registers and memory, and on the whole queue where `q` says so. -/
structure AgreeAfter (q : Prop) (s s' : State) : Prop where
  regs : s.regs = s'.regs
  mem : s.mem = s'.mem
  queue : q → s.inq = s'.inq

/-- The states agree on the head of the queue too: on all that a program can learn (R34). -/
structure AgreeBefore (q : Prop) (s s' : State) : Prop extends AgreeAfter q s s' where
  head : s.inq.head? = s'.inq.head?

theorem AgreeAfter.writeReg {q : Prop} {s s' : State} (h : AgreeAfter q s s') (i : Reg) (v : Word) :
    AgreeAfter q (s.writeReg i v) (s'.writeReg i v) :=
  ⟨congrArg (fun regs => regs.set i.val v) h.regs, h.mem, h.queue⟩

/-- No operation of an instruction reads more than registers, memory and the queue's head (R34). -/
theorem simulation_agree (q : Prop) : Simulation (AgreeBefore q) (AgreeAfter q) where
  weaken h := h.toAgreeAfter
  head h := h.head
  beginStep h := ⟨⟨h.regs, h.mem, h.queue⟩, h.head⟩
  advancePc {s s'} h := by
    have hpc : s.pc = s'.pc := congrArg (·[pcIndex]) h.regs
    simp only [State.advancePc, hpc]
    exact ⟨h.toAgreeAfter.writeReg _ _, h.head⟩
  takeInput h := ⟨h.regs, h.mem, fun hq => congrArg List.tail (h.queue hq)⟩
  reg h j := congrArg (·[j]) h.regs
  mem h := h.mem
  writeReg h := h.writeReg
  storeByte h a v := ⟨h.regs, congrArg (·.write a v) h.mem, h.queue⟩
  appendOutput h _ := ⟨h.regs, h.mem, h.queue⟩
  latch h _ := ⟨h.regs, h.mem, h.queue⟩

end Sys2Proof.Machine

/-! ## The statements of 10_state.md settled -/

namespace Sys2Proof.Proofs

open Sys2Proof.Machine Sys2Proof.Claims

/-- Settles O48: a step latches a status, moves PC, or runs an instruction, and each keeps the invariant. -/
theorem stepKeepsInvariant : Obligations.StepKeepsInvariant := by
  intro s t hs h
  obtain ⟨-, ⟨k, -, rfl⟩ | ⟨-, ⟨e, -, rfl⟩ | ⟨i, -, hi⟩⟩⟩ := step_cases h
  · exact hs
  · exact hs
  · exact exec_keepsInv (s := s.beginStep.advancePc) hs hi

/-- Settles O26: ST is neither PC nor SP, so only a destination or a flag update writes it. -/
theorem otherInstructionsKeepStatusRegister : Obligations.OtherInstructionsKeepStatusRegister :=
  fun _ _ _ h hu hd => exec_reg_unwritten h pcIndex_ne_stIndex spIndex_ne_stIndex hd (by simp [hu])

/-- Settles O46: the instruction fails at its own load or leaves its value in PC, which only the next fetch checks. -/
theorem writingPcRedirectsFetch : Obligations.WritingPcRedirectsFetch := by
  intro s i hf hi hd
  obtain ⟨u, hu⟩ := exec_total i s.beginStep.advancePc
  have hstep : step s = .next u := (step_of_fetches hf hi).trans hu
  have hcases := exec_destination hu hd stIndex_ne_pcIndex
  have hreg : ∀ j, s.beginStep.advancePc.reg j = s.advancePc.reg j := fun _ => by simp
  have hsp : s.beginStep.advancePc.sp = s.sp := by simp [State.sp_eq]
  have completes (hn : ∀ k, ¬LoadFails s.beginStep.advancePc k i) : ∃ t, step s = .next t ∧ t.status = .ready :=
    hcases.elim (fun hok => ⟨u, hstep, hok.1⟩) fun ⟨k, hk, _⟩ => absurd hk (hn k)
  refine ⟨fun hm => completes fun k hk => ?noLoad, ?lw, ?lb, ?pop, fun t ht hready => ?lands⟩
  case noLoad => cases hk <;> cases hm
  case lw =>
    rintro rd rfl ha
    refine completes fun k (.lw _ _ hc) => ?_
    rw [hreg, (checkWord_eq_none _).mpr ha] at hc
    cases hc
  case lb =>
    rintro rd rfl ha
    refine completes fun k (.lb _ _ hc) => ?_
    rw [hreg, (checkByte_eq_none _).mpr (Nat.lt_succ_of_le ha)] at hc
    cases hc
  case pop =>
    rintro rfl ha
    refine completes fun k (.pop _ hc) => ?_
    rw [hsp, (checkWord_eq_none _).mpr ha] at hc
    cases hc
  case lands =>
    obtain rfl : u = t := Host.Outcome.next.inj (hstep.symm.trans ht)
    obtain ⟨-, hvalue, hmem⟩ | ⟨k, -, hfail⟩ := hcases
    · refine ⟨(writtenValue_congr i hreg rfl).symm.trans hvalue, fun hpc => ?_, fun hpc => ?_⟩
      · rw [State.fetch_of_ok ((checkWord_eq_none _).mpr hpc), hmem, State.advancePc_mem, State.beginStep_mem]
      · obtain ⟨k, hk⟩ := step_of_not_wordAddress (by rw [hready]; rfl) hpc
        exact ⟨k, _, hk, rfl, rfl⟩
    · rw [hready] at hfail; cases hfail

/-- Settles O51: the simulation of states that differ in the pause flag. -/
theorem stepIgnoresPauseFlag : Obligations.StepIgnoresPauseFlag := by
  intro s t b h
  obtain ⟨hrun, -⟩ := step_cases h
  obtain ⟨u, u', hu, hu', ⟨hp, rfl⟩, -⟩ :=
    (simulation_differInPause s.pause b).step (s' := { s with pause := b }) ⟨rfl, rfl⟩ hrun hrun
  obtain rfl : u = t := Host.Outcome.next.inj (hu.symm.trans h)
  exact ⟨hp, hu'⟩

/-- Settles O52: the simulation of states that agree on what a program can learn. -/
theorem hiddenStateDoesNotLeak : Obligations.HiddenStateDoesNotLeak := by
  intro s s' t t' hregs hmem hhead h h'
  obtain ⟨hrun, -⟩ := step_cases h
  obtain ⟨hrun', -⟩ := step_cases h'
  obtain ⟨u, u', hu, hu', hagree, hstatus⟩ :=
    (simulation_agree (s.inq = s'.inq)).step ⟨⟨hregs, hmem, id⟩, hhead⟩ hrun hrun'
  obtain rfl : u = t := Host.Outcome.next.inj (hu.symm.trans h)
  obtain rfl : u' = t' := Host.Outcome.next.inj (hu'.symm.trans h')
  exact ⟨hagree.regs, hagree.mem, hstatus, hagree.queue⟩

/-- Settles O7: the host's reset answers the reset state, whose fields are read off. -/
theorem resetValues : Obligations.ResetValues := by
  intro s
  refine ⟨State.reset, rfl, ?_, ?_, fun r hpc hsp => ?_, fun _ => rfl, rfl, rfl, rfl, rfl, rfl, rfl⟩
  · rw [State.pc_eq, State.reset_reg]; rfl
  · rw [State.sp_eq, State.reset_reg]; rfl
  · rw [State.reset_reg, if_neg hpc, if_neg hsp]

/-- Settles O49: reset leaves the empty memory and an empty output buffer. -/
theorem resetMeetsInvariant : Obligations.ResetMeetsInvariant := ⟨Memory.wf_nil, Nat.zero_le _⟩

end Sys2Proof.Proofs

/-! ## Memory: the bytes of a word, and reads beside a write (R50, R51) -/

namespace Sys2Proof.Machine

theorem highByte_toNat (v : Word) : (highByte v).toNat = v.toNat / 256 := by
  have := v.isLt
  simp only [highByte, BitVec.extractLsb'_toNat, Nat.shiftRight_eq_div_pow]
  omega

theorem lowByte_toNat (v : Word) : (lowByte v).toNat = v.toNat % 256 := by
  simp only [lowByte, BitVec.extractLsb'_toNat, Nat.shiftRight_zero]

theorem wordOfBytes_toNat (hi lo : Byte) : (wordOfBytes hi lo).toNat = hi.toNat * 256 + lo.toNat := by
  rw [wordOfBytes, BitVec.toNat_append, ← Nat.shiftLeft_add_eq_or_of_lt lo.isLt, Nat.shiftLeft_eq]

/-- Canonical memory lists no address outside the address space (R28). -/
theorem Memory.read_outside {m : Memory} (hm : m.wf) {a : Nat} (ha : ¬a < Config.memSize) :
    m.read a = Memory.unlisted := by
  obtain ⟨-, hcells⟩ := hm
  induction m with
  | nil => rfl
  | cons c rest ih =>
    have hc := (hcells c (by simp)).1
    simp only [Memory.read]
    rw [if_neg (by omega)]
    exact ih fun d hd => hcells d (by simp [hd])

/-- A byte write leaves every other address alone, whether or not its own is inside the memory. -/
theorem Memory.read_write_ne {m : Memory} (hm : m.wf) {a b : Nat} (v : Byte) (h : b ≠ a) :
    (m.write a v).read b = m.read b := by
  by_cases ha : a < Config.memSize
  · rw [Memory.read_write m hm a b v ha, if_neg h]
  · rw [Memory.write_outside m a v ha]

/-- What stands at the address of a byte write does not depend on the memory written to. -/
theorem Memory.read_write_congr {m n : Memory} (hm : m.wf) (hn : n.wf) (a : Nat) (v : Byte) :
    (m.write a v).read a = (n.write a v).read a := by
  by_cases ha : a < Config.memSize
  · rw [Memory.read_write m hm a a v ha, Memory.read_write n hn a a v ha, if_pos rfl, if_pos rfl]
  · rw [Memory.write_outside m a v ha, Memory.write_outside n a v ha, Memory.read_outside hm ha,
      Memory.read_outside hn ha]

theorem Memory.read_writeWord_ne {m : Memory} (hm : m.wf) {a b : Nat} (v : Word) (h : b ≠ a) (h' : b ≠ a + 1) :
    (m.writeWord a v).read b = m.read b := by
  rw [Memory.writeWord, Memory.read_write_ne (Memory.write_wf hm _ _) _ h', Memory.read_write_ne hm _ h]

/-- The two bytes of a word write do not depend on the memory written to. -/
theorem Memory.read_writeWord_congr {m n : Memory} (hm : m.wf) (hn : n.wf) {a b : Nat} (v : Word)
    (h : b = a ∨ b = a + 1) : (m.writeWord a v).read b = (n.writeWord a v).read b := by
  have hm' := Memory.write_wf hm a (highByte v)
  have hn' := Memory.write_wf hn a (highByte v)
  obtain rfl | rfl := h
  · have hb : b ≠ b + 1 := by omega
    rw [Memory.writeWord, Memory.writeWord, Memory.read_write_ne hm' _ hb, Memory.read_write_ne hn' _ hb]
    exact Memory.read_write_congr hm hn _ _
  · exact Memory.read_write_congr hm' hn' _ _

/-- A byte stored at the high place of a word (R51). -/
theorem Memory.readWord_write_high {m : Memory} (hm : m.wf) {a : Nat} (v : Byte) (ha : a < Config.memSize) :
    (m.write a v).readWord a = wordOfBytes v (m.read (a + 1)) := by
  rw [Memory.readWord, Memory.read_write m hm a a v ha, if_pos rfl, Memory.read_write_ne hm v (by omega)]

/-- A byte stored at the low place of a word (R51). -/
theorem Memory.readWord_write_low {m : Memory} (hm : m.wf) {a : Nat} (v : Byte) (ha : a + 1 < Config.memSize) :
    (m.write (a + 1) v).readWord a = wordOfBytes (m.read a) v := by
  rw [Memory.readWord, Memory.read_write_ne hm v (by omega), Memory.read_write m hm _ _ v ha, if_pos rfl]

/-! ## What an instruction stores (R50, R190, R201, R211, R213) -/

/-- Memory `m` after the store of `i`, with its operands read from `s`; `m` itself where `i` stores nothing. -/
def storeInto (i : Instr) (s : State) (m : Memory) : Memory :=
  match i with
  | .sw rd rs => m.writeWord (s.reg rd).toNat (s.reg rs)
  | .push rd => m.writeWord s.sp.toNat (s.reg rd)
  | .sb rd rs => m.write (s.reg rd).toNat (lowByte (s.reg rs))
  | .read rd => m.write (s.reg rd).toNat (codeByte (s.inq.headD 0))
  | _ => m

theorem storeInto_of_not_stores {i : Instr} (h : storesToMemory i = false) (s : State) (m : Memory) :
    storeInto i s m = m := by
  cases i
  case sw | push | sb | read => cases h
  all_goals rfl

/-- The operands of a store come from the registers and the input queue. -/
theorem storeInto_otherMemory (i : Instr) (s : State) (m n : Memory) :
    storeInto i { s with mem := m } n = storeInto i s n := by
  cases i <;> rfl

/-- A store leaves every byte outside its span alone. -/
theorem read_storeInto_outside {m : Memory} (hm : m.wf) (i : Instr) (s : State) {a : Nat}
    (ha : a < (storeSpan i s).1 ∨ (storeSpan i s).1 + (storeSpan i s).2 ≤ a) :
    (storeInto i s m).read a = m.read a := by
  cases i
  case sw | push =>
    simp only [storeSpan] at ha
    exact Memory.read_writeWord_ne hm _ (by omega) (by omega)
  case sb | read =>
    simp only [storeSpan] at ha
    exact Memory.read_write_ne hm _ (by omega)
  all_goals rfl

/-- Inside its span a store leaves the same bytes in every memory. -/
theorem read_storeInto_inside {m n : Memory} (hm : m.wf) (hn : n.wf) (i : Instr) (s : State) {a : Nat}
    (hlo : (storeSpan i s).1 ≤ a) (hhi : a < (storeSpan i s).1 + (storeSpan i s).2) :
    (storeInto i s m).read a = (storeInto i s n).read a := by
  cases i <;> simp only [storeSpan] at hlo hhi
  case sw | push => exact Memory.read_writeWord_congr hm hn _ (by omega)
  case sb rd _ | read rd =>
    obtain rfl : a = (s.reg rd).toNat := by omega
    exact Memory.read_write_congr hm hn _ _
  all_goals omega

/-- An instruction that raises a fault leaves the memory as it was, and any other leaves it with its store. -/
theorem exec_memory {i : Instr} {s t : State} (h : exec i s = .next t) :
    (∃ k, t.status = .terminalFailure k ∧ t.mem = s.mem) ∨
      ((∀ k, t.status ≠ .terminalFailure k) ∧ t.mem = storeInto i s s.mem) := by
  cases exec_effect h with
  | popFault _ _ k _ e | accessFault k _ _ e => subst e; exact .inl ⟨k, rfl, rfl⟩
  | register _ _ _ _ _ _ p e | result _ _ _ _ _ _ p e =>
    subst e
    exact .inr ⟨nofun, (storeInto_of_not_stores p s _).symm⟩
  | jump _ _ _ _ _ p e =>
    rw [storeInto_of_not_stores p]
    obtain ⟨-, rfl⟩ | ⟨-, rfl⟩ := e <;> exact .inr ⟨nofun, rfl⟩
  | halt hi e | brk hi e | cmp _ _ hi e | pop _ hi _ _ _ e | print _ hi _ e =>
    subst hi e
    exact .inr ⟨nofun, rfl⟩
  | push _ hi _ e | storeWord _ _ hi _ e | storeByte _ _ hi _ e => subst hi e; exact .inr ⟨nofun, rfl⟩
  | readEmpty _ hi q _ e | readCode _ hi _ _ q _ e =>
    subst hi e
    exact .inr ⟨nofun, by simp only [storeInto, q]; rfl⟩

theorem exec_mem_of_fault {i : Instr} {s t : State} {k : Fault} (h : exec i s = .next t)
    (hk : t.status = .terminalFailure k) : t.mem = s.mem := by
  obtain ⟨-, -, hmem⟩ | ⟨hok, -⟩ := exec_memory h
  · exact hmem
  · exact absurd hk (hok k)

theorem exec_mem_of_no_fault {i : Instr} {s t : State} (h : exec i s = .next t)
    (hok : ∀ k, t.status ≠ .terminalFailure k) : t.mem = storeInto i s s.mem := by
  obtain ⟨k, hk, -⟩ | ⟨-, hmem⟩ := exec_memory h
  · exact absurd hk (hok k)
  · exact hmem

/-! ## Instructions that read no memory (R50, R63) -/

/-- `s'` is `s` with another memory in place of its own. -/
def DifferInMemory (s s' : State) : Prop := ∃ m, s' = { s with mem := m }

namespace DifferInMemory

variable {s s' : State}

theorem finish (h : DifferInMemory s s') (e : ExecutionStatus) :
    BothNext DifferInMemory (Machine.finish e s) (Machine.finish e s') := by
  obtain ⟨m, rfl⟩ := h
  exact ⟨_, _, rfl, rfl, ⟨m, rfl⟩, rfl⟩

theorem jumpIf (h : DifferInMemory s s') (c : JumpCond) (off : Int) :
    BothNext DifferInMemory (s.jumpIf c off) (s'.jumpIf c off) := by
  obtain ⟨m, rfl⟩ := h
  have hz : State.z { s with mem := m } = s.z := rfl
  have hs : State.s { s with mem := m } = s.s := rfl
  simp only [State.jumpIf, hz, hs]
  split <;> exact finish ⟨m, rfl⟩ _

theorem withWordAt (h : DifferInMemory s s') (a : Word) {go go' : Nat → StepOutcome}
    (hgo : ∀ n, BothNext DifferInMemory (go n) (go' n)) :
    BothNext DifferInMemory (Machine.withWordAt a s go) (Machine.withWordAt a s' go') := by
  cases hc : checkWord a with
  | none => rw [withWordAt_ok hc, withWordAt_ok hc]; exact hgo _
  | some k => rw [withWordAt_fault hc, withWordAt_fault hc]; exact h.finish _

theorem withByteAt (h : DifferInMemory s s') (a : Word) {go go' : Nat → StepOutcome}
    (hgo : ∀ n, BothNext DifferInMemory (go n) (go' n)) :
    BothNext DifferInMemory (Machine.withByteAt a s go) (Machine.withByteAt a s' go') := by
  cases hc : checkByte a with
  | none => rw [withByteAt_ok hc, withByteAt_ok hc]; exact hgo _
  | some k => rw [withByteAt_fault hc, withByteAt_fault hc]; exact h.finish _

/-- READ takes its code from the queue, whatever memory holds. -/
theorem execRead (h : DifferInMemory s s') (rd : Reg) :
    BothNext DifferInMemory (Machine.execRead rd s) (Machine.execRead rd s') := by
  have hreg : s'.reg rd = s.reg rd := by obtain ⟨m, rfl⟩ := h; rfl
  have hinq : s'.inq = s.inq := by obtain ⟨m, rfl⟩ := h; rfl
  simp only [Machine.execRead, hreg, hinq]
  refine h.withByteAt _ fun a => ?_
  cases s.inq <;> obtain ⟨m, rfl⟩ := h <;> exact finish ⟨_, rfl⟩ _

/-- An instruction that reads no memory ends in the same state but for the memory. -/
theorem exec (h : DifferInMemory s s') {i : Instr} (hi : readsMemory i = false) :
    BothNext DifferInMemory (Machine.exec i s) (Machine.exec i s') := by
  obtain ⟨m, rfl⟩ := h
  cases i <;> simp only [Machine.exec]
  case lw | lb | pop | print => cases hi
  case jmp | jmpeq | jmpne | jmpgt | jmplt | jmpge | jmple => exact jumpIf ⟨m, rfl⟩ _ _
  case push | sw => exact withWordAt ⟨m, rfl⟩ _ fun _ => finish ⟨_, rfl⟩ _
  case sb => exact withByteAt ⟨m, rfl⟩ _ fun _ => finish ⟨_, rfl⟩ _
  case read => exact execRead ⟨m, rfl⟩ _
  all_goals exact finish ⟨m, rfl⟩ _

end DifferInMemory

/-! ## Accesses that fail, and stores that complete (R53 to R55) -/

/-- A failed access raises its fault before anything is written. -/
theorem exec_of_accessFails {i : Instr} {s : State} {k : Fault} (h : AccessFails i s k) : exec i s = raise k s := by
  obtain ⟨rd, rs, rfl | rfl, hc⟩ | ⟨rd, rs, rfl | rfl | rfl | rfl, hc⟩ | ⟨rd, rfl, hc⟩ := h <;>
    simp only [exec]
  case inl.inl | inl.inr | inr.inr => exact withWordAt_fault hc _ _
  all_goals exact withByteAt_fault hc _ _

/-- `i` completes at `s` with PC as it was and memory `m`. -/
def CompletesWithMemory (i : Instr) (s : State) (m : Memory) : Prop :=
  ∃ t, exec i s = .next t ∧ t.status = .ready ∧ t.pc = s.pc ∧ t.mem = m

theorem sw_completesWithMemory {s : State} {rd : Reg} (rs : Reg) (h : checkWord (s.reg rd) = none) :
    CompletesWithMemory (.sw rd rs) s (storeInto (.sw rd rs) s s.mem) := by
  simp only [CompletesWithMemory, exec, execSw, withWordAt_ok h]
  exact ⟨_, rfl, rfl, rfl, rfl⟩

theorem push_completesWithMemory {s : State} (rd : Reg) (h : checkWord s.sp = none) :
    CompletesWithMemory (.push rd) s (storeInto (.push rd) s s.mem) := by
  simp only [CompletesWithMemory, exec, execPush, withWordAt_ok h]
  exact ⟨_, rfl, rfl, by simp [State.pc_eq], rfl⟩

theorem sb_completesWithMemory {s : State} {rd : Reg} (rs : Reg) (h : checkByte (s.reg rd) = none) :
    CompletesWithMemory (.sb rd rs) s (storeInto (.sb rd rs) s s.mem) := by
  simp only [CompletesWithMemory, exec, execSb, withByteAt_ok h]
  exact ⟨_, rfl, rfl, rfl, rfl⟩

theorem read_completesWithMemory {s : State} {rd : Reg} (h : checkByte (s.reg rd) = none) :
    CompletesWithMemory (.read rd) s (storeInto (.read rd) s s.mem) := by
  simp only [CompletesWithMemory, exec, execRead, withByteAt_ok h, storeInto]
  cases s.inq <;> exact ⟨_, rfl, rfl, rfl, rfl⟩

/-- Where the fetch reads a word, the step decodes and runs it past the pc advance. -/
theorem step_of_fetch {s : State} {w : Word} (hrun : s.status.stopped = none) (hw : s.fetch = .ok w) :
    step s = decodeAndExec w s.beginStep.advancePc := by
  simp only [step, hrun, State.beginStep_fetch, hw]

end Sys2Proof.Machine

/-! ## The statements of 20_memory.md settled -/

namespace Sys2Proof.Proofs

open Sys2Proof.Machine Sys2Proof.Claims

/-- Settles O40: memory changes by the instruction's store only, and no other instruction has one. -/
theorem onlyStoresWriteMemory : Obligations.OnlyStoresWriteMemory := by
  intro i s t h hi
  obtain ⟨-, -, hmem⟩ | ⟨-, hmem⟩ := exec_memory h
  · exact hmem
  · rw [hmem, storeInto_of_not_stores hi]

/-- Settles O41: the two runs end alike but for the memory, and each memory keeps its bytes or takes the same store. -/
theorem onlyLoadsReadMemory : Obligations.OnlyLoadsReadMemory := by
  intro i s t m hs hm hi h
  obtain ⟨t', u, ht, hu, ⟨n, rfl⟩, -⟩ := DifferInMemory.exec (s := s) ⟨m, rfl⟩ hi
  obtain rfl : t' = t := Host.Outcome.next.inj (ht.symm.trans h)
  refine ⟨_, hu, rfl, rfl, rfl, rfl, rfl, rfl,
    fun ⟨k, hk⟩ => ⟨exec_mem_of_fault h hk, exec_mem_of_fault hu hk⟩, fun hok a => ?_⟩
  rw [exec_mem_of_no_fault h hok, exec_mem_of_no_fault hu hok, storeInto_otherMemory]
  exact ⟨read_storeInto_inside hm hs i s,
    fun ha => ⟨read_storeInto_outside hs i s ha, read_storeInto_outside hm i s ha⟩⟩

/-- A store that completes is what the next step fetches: it reads the word at the advanced PC from the new memory. -/
theorem runsNext_of_completes {s : State} {i : Instr} {m : Memory} (hf : Fetches s)
    (hi : decodeWord (s.mem.readWord s.pc.toNat) = .ok i) (hn : s.pc.toNat + 2 ≤ 1022)
    (hx : CompletesWithMemory i s.beginStep.advancePc m) :
    RunsNext (step s) (s.pc.toNat + 2) (m.readWord (s.pc.toNat + 2)) := by
  obtain ⟨t, ht, hready, hpc, rfl⟩ := hx
  have hnext : t.pc.toNat = s.pc.toNat + 2 := by
    rw [hpc, State.advancePc_pc, State.beginStep_pc, BitVec.toNat_add]
    simp only [BitVec.reduceToNat]
    omega
  have ⟨_, _, heven⟩ := hf
  have hfetch : t.fetch = .ok (t.mem.readWord (s.pc.toNat + 2)) := by
    rw [State.fetch_of_ok ((checkWord_eq_none _).mpr (by omega)), hnext]
  refine ⟨t, (step_of_fetches hf hi).trans ht, hready, hnext, hfetch, ?_⟩
  rw [step_of_fetch (by rw [hready]; rfl) hfetch, decodeAndExec]
  cases decodeWord (t.mem.readWord (s.pc.toNat + 2)) <;> rfl

/-- A word stored at the next PC is fetched there. -/
theorem runsNext_of_wordStore {s : State} {i : Instr} {a v : Word} (hs : s.mem.wf) (hf : Fetches s)
    (hi : decodeWord (s.mem.readWord s.pc.toNat) = .ok i) (hn : s.pc.toNat + 2 ≤ 1022)
    (hx : checkWord a = none → CompletesWithMemory i s.beginStep.advancePc (s.mem.writeWord a.toNat v))
    (ha : a.toNat = s.pc.toNat + 2) : RunsNext (step s) (s.pc.toNat + 2) v := by
  have ⟨_, _, heven⟩ := hf
  have hstore := hx ((checkWord_eq_none a).mpr (by omega))
  rw [ha] at hstore
  have hruns := runsNext_of_completes hf hi hn hstore
  rwa [Memory.readWord_writeWord s.mem hs _ v (show _ < 1024 by omega)] at hruns

/-- A byte stored at either place of the next word is fetched there, beside the byte that stood at the other place. -/
theorem runsNext_of_byteStore {s : State} {i : Instr} {a : Nat} {v : Byte} (hs : s.mem.wf) (hf : Fetches s)
    (hi : decodeWord (s.mem.readWord s.pc.toNat) = .ok i) (hn : s.pc.toNat + 2 ≤ 1022)
    (hx : a < 1024 → CompletesWithMemory i s.beginStep.advancePc (s.mem.write a v)) :
    (a = s.pc.toNat + 2 →
      RunsNext (step s) (s.pc.toNat + 2) (wordOfBytes v (s.mem.read (s.pc.toNat + 2 + 1)))) ∧
    (a = s.pc.toNat + 2 + 1 →
      RunsNext (step s) (s.pc.toNat + 2) (wordOfBytes (s.mem.read (s.pc.toNat + 2)) v)) := by
  constructor
  · rintro rfl
    rw [← Memory.readWord_write_high hs v (show _ < 1024 by omega)]
    exact runsNext_of_completes hf hi hn (hx (by omega))
  · rintro rfl
    rw [← Memory.readWord_write_low hs v (show _ < 1024 by omega)]
    exact runsNext_of_completes hf hi hn (hx (by omega))

/-- Settles O42: each of the four stores completes, and the next fetch reads the memory it left. -/
theorem storeIsSeenByNextFetch : Obligations.StoreIsSeenByNextFetch := by
  rintro s i _ hs hf hi rfl hn
  refine ⟨?sw, ?push, ?sb, ?read⟩
  case sw =>
    rintro rd rs rfl
    exact runsNext_of_wordStore hs hf hi hn (sw_completesWithMemory (s := s.beginStep.advancePc) rs)
  case push =>
    rintro rd rfl
    have hsp : s.beginStep.advancePc.sp = s.sp := by simp [State.sp_eq]
    rw [← hsp]
    exact runsNext_of_wordStore hs hf hi hn (push_completesWithMemory (s := s.beginStep.advancePc) rd)
  case sb =>
    rintro rd rs rfl
    exact runsNext_of_byteStore hs hf hi hn fun ha =>
      sb_completesWithMemory (s := s.beginStep.advancePc) rs ((checkByte_eq_none _).mpr ha)
  case read =>
    rintro rd rfl
    exact runsNext_of_byteStore hs hf hi hn fun ha =>
      read_completesWithMemory (s := s.beginStep.advancePc) ((checkByte_eq_none _).mpr ha)

/-- Settles O6: a word write leaves its high byte at the lower address, and every read puts the bytes together so. -/
theorem wordsAreBigEndian : Obligations.WordsAreBigEndian := by
  intro m a v hm ha
  have hword := Memory.readWord_writeWord m hm a v ha
  refine ⟨?_, ?_, wordOfBytes_toNat _ _, hword, fun b h h' => Memory.read_writeWord_ne hm v h h',
    fun s hmem hpc heven => ?_⟩
  · rw [Memory.read_writeWord m hm a a v ha, if_pos rfl, highByte_toNat]
  · rw [Memory.read_writeWord m hm a (a + 1) v ha, if_neg (by omega), if_pos rfl, lowByte_toNat]
  · rw [State.fetch_of_ok ((checkWord_eq_none _).mpr (by omega)), hmem, hpc, hword]

/-- A failed access latches its fault, and nothing else changes. -/
theorem raisesUnchanged_of_accessFails {i : Instr} {s : State} {k : Fault} (h : AccessFails i s k) :
    RaisesUnchanged (exec i s) s k :=
  ⟨_, exec_of_accessFails h, rfl, ⟨fun _ _ => rfl, fun _ => rfl, rfl, rfl, rfl⟩, rfl⟩

/-- Settles O38: each condition is a failed check of the instruction's address. -/
theorem accessFaultsWriteNothing : Obligations.AccessFaultsWriteNothing := by
  intro s rd rs
  have word {k : Fault} (hc : checkWord (s.reg rd) = some k) :
      RaisesUnchanged (exec (.sw rd rs) s) s k ∧ RaisesUnchanged (exec (.lw rd rs) s) s k :=
    ⟨raisesUnchanged_of_accessFails (.inl ⟨rd, rs, .inl rfl, hc⟩),
      raisesUnchanged_of_accessFails (.inl ⟨rd, rs, .inr rfl, hc⟩)⟩
  have push {k : Fault} (hc : checkWord s.sp = some k) : RaisesUnchanged (exec (.push rd) s) s k :=
    raisesUnchanged_of_accessFails (.inr (.inr ⟨rd, rfl, hc⟩))
  have byte {i : Instr} (hi : i = .sb rd rs ∨ i = .lb rd rs ∨ i = .print rd ∨ i = .read rd)
      (h : 1023 < (s.reg rd).toNat) : RaisesUnchanged (exec i s) s .memoryBounds :=
    raisesUnchanged_of_accessFails (.inr (.inl ⟨rd, rs, hi, (checkByte_eq_bounds _).mpr h⟩))
  refine ⟨fun h => word ((checkWord_eq_bounds _).mpr h), fun h hodd => word ((checkWord_eq_alignment _).mpr ⟨h, hodd⟩),
    fun h => push ((checkWord_eq_bounds _).mpr h), fun h hodd => push ((checkWord_eq_alignment _).mpr ⟨h, hodd⟩),
    fun h => ⟨byte (.inl rfl) h, byte (.inr (.inl rfl)) h, byte (.inr (.inr (.inl rfl))) h,
      byte (.inr (.inr (.inr rfl))) h⟩⟩

end Sys2Proof.Proofs

/-! ## The encoding: mnemonics, shapes and operands (R81 to R96) -/

namespace Sys2Proof.Laws

open Sys2Proof.Claims (usedBits)

@[simp] theorem mnemonic_instr (m : Mnemonic) (rd rs : Reg) (imm off : Int) :
    (m.instr rd rs imm off).mnemonic = m := by cases m <;> rfl

theorem ofOpcode_opcode (m : Mnemonic) : Mnemonic.ofOpcode m.opcode = some m := by cases m <;> rfl

theorem ofOpcode_eq_some {op : BitVec 6} {m : Mnemonic} : Mnemonic.ofOpcode op = some m ↔ m.opcode = op :=
  ⟨fun h => by simpa using List.find?_some h, fun h => h ▸ ofOpcode_opcode m⟩

/-- The default map assigns the opcodes below 34 (R92, D1). -/
theorem ofOpcode_eq_none (op : BitVec 6) : Mnemonic.ofOpcode op = none ↔ 34 ≤ op.toNat := by
  revert op; decide

/-- An instruction is made of the operands of its shape only (R81, R95). -/
theorem instr_congr {m : Mnemonic} {rd rd' rs rs' : Reg} {imm imm' off off' : Int}
    (hrd : m.shape ≠ .r0 → m.shape ≠ .j → rd = rd') (hrs : m.shape = .r2 → rs = rs')
    (himm : m.shape = .i → imm = imm') (hoff : m.shape = .j → off = off') :
    m.instr rd rs imm off = m.instr rd' rs' imm' off' := by
  cases m <;> simp_all [Mnemonic.shape, Mnemonic.instr]

theorem wf_instr (m : Mnemonic) (rd rs : Reg) (imm off : Int) :
    (m.instr rd rs imm off).wf = true ↔
      (m.shape = .i → immInRange imm = true) ∧ (m.shape = .j → offInRange off = true) := by
  cases m <;> simp [Mnemonic.shape, Mnemonic.instr, Instr.wf]

/-- The packing of a shape (R87). -/
def pack (sh : Shape) (op : BitVec 6) (rd rs : Reg) (imm off : Int) : Word :=
  match sh with
  | .r0 => packR0 op
  | .r1 => packR1 op rd
  | .r2 => packR2 op rd rs
  | .i => packI op rd imm
  | .j => packJ op off

theorem encode_instr (m : Mnemonic) (rd rs : Reg) (imm off : Int) :
    encode (m.instr rd rs imm off) = pack m.shape m.opcode rd rs imm off := by cases m <;> rfl

theorem packR2_toNat (op : BitVec 6) (rd rs : Reg) :
    (packR2 op rd rs).toNat = op.toNat * 1024 + rd.val * 32 + rs.val := by
  rw [packR2, packR1_or_toNat _ _ _ (srcBits_lt rs), BitVec.toNat_ofNat]
  omega

theorem packI_toNat (op : BitVec 6) (rd : Reg) (imm : Int) :
    ((packI op rd imm).toNat : Int) = op.toNat * 1024 + rd.val * 32 + imm % 32 := by
  rw [packI, packR1_or_toNat _ _ _ (immBits_lt imm), immBits_toNat]
  omega

theorem packJ_toNat (op : BitVec 6) (off : Int) : ((packJ op off).toNat : Int) = op.toNat * 1024 + off % 1024 := by
  have hv : (BitVec.ofInt 16 off &&& 0x3FF).toNat < 1024 := by rw [offBits_toNat]; omega
  rw [packJ, packR0_or_toNat _ _ hv, offBits_toNat]
  omega

/-! ### The fields of a word (R85, R86) -/

theorem immField_cases (w : Word) :
    (w.toNat % 32 < 16 ∧ immField w = w.toNat % 32) ∨ (16 ≤ w.toNat % 32 ∧ immField w = (w.toNat % 32 : Int) - 32) := by
  simp only [immField, BitVec.toInt_eq_toNat_cond, BitVec.extractLsb'_toNat, Nat.shiftRight_zero]
  split <;> omega

theorem offField_cases (w : Word) :
    (w.toNat % 1024 < 512 ∧ offField w = w.toNat % 1024) ∨
      (512 ≤ w.toNat % 1024 ∧ offField w = (w.toNat % 1024 : Int) - 1024) := by
  simp only [offField, BitVec.toInt_eq_toNat_cond, BitVec.extractLsb'_toNat, Nat.shiftRight_zero]
  split <;> omega

theorem immInRange_iff (imm : Int) : immInRange imm = true ↔ -16 ≤ imm ∧ imm ≤ 15 := by
  simp [immInRange, Config.immMin, Config.immMax]

theorem offInRange_iff (off : Int) : offInRange off = true ↔ -512 ≤ off ∧ off ≤ 511 := by
  simp [offInRange, Config.offMin, Config.offMax]

theorem immInRange_immField (w : Word) : immInRange (immField w) = true := by
  have := immField_cases w
  rw [immInRange_iff]
  omega

theorem offInRange_offField (w : Word) : offInRange (offField w) = true := by
  have := offField_cases w
  rw [offInRange_iff]
  omega

theorem toNat_and_0xFC00 (w : Word) : (w &&& 0xFC00).toNat = w.toNat / 1024 * 1024 := by
  have h : w &&& (0xFC00 : Word) = (w >>> 10) <<< 10 := by
    ext b hb
    interval_cases b <;> simp
  have := w.isLt
  rw [h, BitVec.toNat_shiftLeft, BitVec.toNat_ushiftRight, Nat.shiftLeft_eq, Nat.shiftRight_eq_div_pow]
  omega

theorem toNat_and_0xFFE0 (w : Word) : (w &&& 0xFFE0).toNat = w.toNat / 32 * 32 := by
  have h : w &&& (0xFFE0 : Word) = (w >>> 5) <<< 5 := by
    ext b hb
    interval_cases b <;> simp
  have := w.isLt
  rw [h, BitVec.toNat_shiftLeft, BitVec.toNat_ushiftRight, Nat.shiftLeft_eq, Nat.shiftRight_eq_div_pow]
  omega

theorem and_0xFFFF (w : Word) : w &&& 0xFFFF = w := BitVec.and_allOnes

/-- Packing the fields of a word gives its used bits (R88). -/
theorem pack_fields (sh : Shape) (w : Word) :
    pack sh (opField w) (rdField w) (rsField w) (immField w) (offField w) = w &&& usedBits sh := by
  have hw := w.isLt
  apply BitVec.eq_of_toNat_eq
  cases sh <;> simp only [pack, usedBits]
  case r0 => rw [packR0_toNat, opField_toNat, toNat_and_0xFC00]; omega
  case r1 => rw [packR1_toNat, opField_toNat, rdField_val, toNat_and_0xFFE0]; omega
  case r2 => rw [packR2_toNat, opField_toNat, rdField_val, rsField_val, and_0xFFFF]; omega
  case i =>
    have := immField_cases w
    rw [and_0xFFFF]
    zify
    rw [packI_toNat, opField_toNat, rdField_val]
    omega
  case j =>
    have := offField_cases w
    rw [and_0xFFFF]
    zify
    rw [packJ_toNat, opField_toNat]
    omega

/-- Every shape uses the opcode bits. -/
theorem opField_and_usedBits (w : Word) (sh : Shape) : opField (w &&& usedBits sh) = opField w := by
  apply BitVec.eq_of_toNat_eq
  rw [opField_toNat, opField_toNat]
  cases sh <;> simp only [usedBits]
  case r0 => rw [toNat_and_0xFC00]; omega
  case r1 => rw [toNat_and_0xFFE0]; omega
  all_goals rw [and_0xFFFF]

/-! ### Decoding (R93 to R96) -/

theorem decodeWord_eq_ok {w : Word} {i : Instr} :
    decodeWord w = .ok i ↔ i.mnemonic.opcode = opField w ∧
      i.mnemonic.instr (rdField w) (rsField w) (immField w) (offField w) = i := by
  unfold decodeWord
  cases hop : Mnemonic.ofOpcode (opField w) with
  | none =>
    refine ⟨nofun, fun ⟨h, _⟩ => ?_⟩
    rw [ofOpcode_eq_some.mpr h] at hop
    cases hop
  | some m =>
    constructor
    · intro h
      cases h
      simpa using ofOpcode_eq_some.mp hop
    · rintro ⟨h, hi⟩
      obtain rfl : i.mnemonic = m := Option.some.inj ((ofOpcode_eq_some.mpr h).symm.trans hop)
      exact congrArg Except.ok hi

/-- Below 0x8800 the opcode is assigned (D1). -/
theorem decodeWord_of_lt {w : Word} (h : w.toNat < 0x8800) : ∃ i, decodeWord w = .ok i := by
  have hop : Mnemonic.ofOpcode (opField w) ≠ none := by
    rw [Ne, ofOpcode_eq_none, opField_toNat]
    omega
  obtain ⟨m, hm⟩ := Option.ne_none_iff_exists'.mp hop
  exact ⟨_, by rw [decodeWord, hm]⟩

theorem decodeWord_of_ge {w : Word} (h : 0x8800 ≤ w.toNat) :
    decodeWord w = .error (.unassignedOpcode (opField w)) := by
  have hop : Mnemonic.ofOpcode (opField w) = none := by
    have := w.isLt
    rw [ofOpcode_eq_none, opField_toNat]
    omega
  rw [decodeWord, hop]

theorem decodeWord_wf {w : Word} {i : Instr} (h : decodeWord w = .ok i) : i.wf = true := by
  rw [← (decodeWord_eq_ok.mp h).2, wf_instr]
  exact ⟨fun _ => immInRange_immField w, fun _ => offInRange_offField w⟩

theorem encode_of_decodeWord {w : Word} {i : Instr} (h : decodeWord w = .ok i) :
    encode i = w &&& usedBits i.mnemonic.shape := by
  obtain ⟨hop, hi⟩ := decodeWord_eq_ok.mp h
  rw [← pack_fields, ← hop, ← encode_instr, hi]

/-- The family EncodingFields holds of every instruction. -/
theorem EncodingFields.holds (i : Instr) : EncodingFields.Statement i := by
  cases i
  exacts [halt, brk, not _, push _, pop _, print _, read _, sl _ _, sru _ _, srs _ _,
    mov _ _, add _ _, sub _ _, and _ _, or _ _, xor _ _, cmp _ _, sw _ _, lw _ _, sb _ _,
    movi _ _, addi _ _, subi _ _, andi _ _, ori _ _, xori _ _, jmp _, jmpeq _, jmpne _, jmpgt _,
    jmplt _, jmpge _, jmple _, lb _ _]

theorem decodeWord_encode {i : Instr} (h : i.wf = true) : decodeWord (encode i) = .ok i := by
  obtain ⟨hop, hi⟩ := EncodingFields.holds i h
  exact decodeWord_eq_ok.mpr ⟨hop.symm, hi⟩

/-- The bits a shape does not use take no part in decoding (R95, D7). -/
theorem decodeWord_congr {w v : Word} {i : Instr} (h : decodeWord w = .ok i)
    (hv : w &&& usedBits i.mnemonic.shape = v &&& usedBits i.mnemonic.shape) : decodeWord v = .ok i := by
  obtain ⟨hop, -⟩ := decodeWord_eq_ok.mp h
  have hsame : opField v = opField w := by
    rw [← opField_and_usedBits v i.mnemonic.shape, ← hv, opField_and_usedBits]
  have hj : decodeWord v =
      .ok (i.mnemonic.instr (rdField v) (rsField v) (immField v) (offField v)) :=
    decodeWord_eq_ok.mpr ⟨by rw [mnemonic_instr, hop, hsame], by rw [mnemonic_instr]⟩
  have henc := encode_of_decodeWord hj
  rw [mnemonic_instr, ← hv, ← encode_of_decodeWord h] at henc
  have hback := decodeWord_encode (decodeWord_wf hj)
  rw [henc, decodeWord_encode (decodeWord_wf h)] at hback
  rw [hj, hback]

theorem decodeBytes_bytesOfWord {w : Word} {i : Instr} (h : decodeWord w = .ok i) (rest : List Byte) :
    decodeBytes (bytesOfWord w ++ rest) = .ok (i, rest) := by
  simp only [bytesOfWord, List.cons_append, List.nil_append, decodeBytes, Machine.wordOfBytes_highByte_lowByte, h]

end Sys2Proof.Laws

/-! ## Steps that take a jump, and steps with no instruction (R90, R94, R230) -/

namespace Sys2Proof.Machine

/-- A jump's arm of `exec` is the common rule of the J shape (R230). -/
theorem exec_of_jumpOf {i : Instr} {c : JumpCond} {off : Int} (h : jumpOf i = some (c, off)) (s : State) :
    exec i s = s.jumpIf c off := by
  cases i <;> cases h <;> rfl

theorem jumpOf_instr {m : Mnemonic} {rd rs : Reg} {imm off o : Int} {c : JumpCond}
    (h : jumpOf (m.instr rd rs imm off) = some (c, o)) : o = off := by
  cases m <;> cases h <;> rfl

theorem immWord_immField (w : Word) :
    (w.toNat % 32 < 16 → (immWord (immField w)).toNat = w.toNat % 32) ∧
      (16 ≤ w.toNat % 32 → (immWord (immField w)).toNat = w.toNat % 32 + 65504) := by
  have := Laws.immField_cases w
  rw [immWord, BitVec.toNat_ofInt]
  omega

theorem offWord_offField (w : Word) :
    (w.toNat % 1024 < 512 → (offWord (offField w)).toNat = w.toNat % 1024) ∧
      (512 ≤ w.toNat % 1024 → (offWord (offField w)).toNat = w.toNat % 1024 + 64512) := by
  have := Laws.offField_cases w
  rw [offWord, BitVec.toNat_ofInt]
  omega

/-- The advanced PC of a step that fetches does not wrap. -/
theorem advancePc_pc_toNat {s : State} (hf : Claims.Fetches s) :
    s.beginStep.advancePc.pc.toNat = s.pc.toNat + 2 := by
  obtain ⟨-, hpc, -⟩ := hf
  rw [State.advancePc_pc, State.beginStep_pc, BitVec.toNat_add]
  simp only [BitVec.reduceToNat]
  omega

/-- A word with an unassigned opcode raises BadOpcode past the pc advance (R94, R132). -/
theorem step_of_unassigned {s : State} (hf : Claims.Fetches s) (h : 0x8800 ≤ (s.mem.readWord s.pc.toNat).toNat) :
    step s = raise .badOpcode s.beginStep.advancePc := by
  obtain ⟨hen, hpc⟩ := hf
  rw [step_of_fetch (Option.isNone_iff_eq_none.mp hen) (State.fetch_of_ok ((checkWord_eq_none s.pc).mpr hpc)),
    decodeAndExec, Laws.decodeWord_of_ge h]

/-- A step that takes a jump completes at the advanced PC plus the offset (R90, R230). -/
theorem step_of_takenJump {s : State} {i : Instr} {c : JumpCond} {off : Int} (hf : Claims.Fetches s)
    (hi : decodeWord (s.mem.readWord s.pc.toNat) = .ok i) (hj : jumpOf i = some (c, off))
    (hc : c.holds s.z s.s = true) :
    ∃ t, step s = .next t ∧ t.status = .ready ∧ t.pc = jumpTarget s.beginStep.advancePc.pc off := by
  have hflags : c.holds s.beginStep.advancePc.z s.beginStep.advancePc.s = true := by
    simpa [State.z, State.s, State.st_eq] using hc
  rw [step_of_fetches hf hi, exec_of_jumpOf hj, State.jumpIf, if_pos hflags]
  exact ⟨_, (complete_eq_next _ _).mpr rfl, rfl, by simp [State.pc_eq]⟩

end Sys2Proof.Machine

/-! ## The statements of 30_encoding.md settled -/

namespace Sys2Proof.Proofs

open Sys2Proof.Machine Sys2Proof.Claims Sys2Proof.Laws

/-- Settles O2: the fields read back what was packed, and packing the fields gives the used bits. -/
theorem encodeDecodeInverse : Obligations.EncodeDecodeInverse :=
  ⟨fun _ h => ⟨decodeWord_encode h, decodeBytes_bytesOfWord (decodeWord_encode h)⟩,
    fun _ _ h => ⟨decodeWord_wf h, encode_of_decodeWord h⟩⟩

/-- Settles O4: the opcodes below 34 are the assigned ones, and words with the same used bits decode alike. -/
theorem decoderTotalByOpcode : Obligations.DecoderTotalByOpcode := by
  refine fun w => ⟨fun h => ?_, decodeWord_of_ge, fun v i => decodeWord_congr⟩
  obtain ⟨i, hi⟩ := decodeWord_of_lt h
  refine ⟨i, hi, ?_, decodeWord_wf hi⟩
  rw [(decodeWord_eq_ok.mp hi).1, opField_toNat]
  omega

/-- Settles O1: each written word is decoded. -/
theorem writtenWordsDecode : Obligations.WrittenWordsDecode := by
  unfold Obligations.WrittenWordsDecode
  decide

/-- Settles O3: each shape's packing is a sum of disjoint fields. -/
theorem packingIsArithmetic : Obligations.PackingIsArithmetic := by
  intro m rd rs imm off
  rw [encode_instr]
  refine ⟨?r0, ?r1, ?r2, ?i, ?j, fun h hout => ?outOfRange⟩
  case outOfRange =>
    rw [Bool.eq_false_iff, Ne, wf_instr]
    exact fun hwf => absurd ((immInRange_iff imm).mp (hwf.1 h)) (by omega)
  all_goals
    intro h
    rw [h]
  case r0 => exact packR0_toNat _
  case r1 => exact packR1_toNat _ _
  case r2 => exact packR2_toNat _ _ _
  case i => exact packI_toNat _ _ _
  case j => exact packJ_toNat _ _

/-- Settles O5: a decoded operand is its word's field, and a jump to an odd address is left to the next fetch. -/
theorem fieldsSignExtend : Obligations.FieldsSignExtend := by
  constructor
  · intro w
    refine ⟨immWord_immField w, offWord_offField w, fun i h => ?_⟩
    obtain ⟨-, hi⟩ := decodeWord_eq_ok.mp h
    constructor
    · intro hsh
      exact ⟨rdField w, hi.symm.trans (instr_congr (by simp) (by simp [hsh]) (by simp) (by simp [hsh]))⟩
    · intro hsh
      exact hi.symm.trans (instr_congr (by simp [hsh]) (by simp [hsh]) (by simp [hsh]) (by simp))
  · intro s i c off hf hi hj hc
    obtain ⟨t, ht, hready, hpc⟩ := step_of_takenJump hf hi hj hc
    have hoff : off = offField (s.mem.readWord s.pc.toNat) :=
      jumpOf_instr (by rw [(decodeWord_eq_ok.mp hi).2]; exact hj)
    have htarget : t.pc.toNat = (s.pc.toNat + 2 + (offWord off).toNat) % 65536 := by
      rw [hpc, jumpTarget, BitVec.toNat_add, advancePc_pc_toNat hf]
    refine ⟨t, ht, hready, hoff ▸ htarget, fun hodd => ?_⟩
    have hnot : ¬WordAddress t.pc := by
      obtain ⟨-, -, heven⟩ := hf
      rw [offWord, BitVec.toNat_ofInt] at htarget
      omega
    obtain ⟨k, hk⟩ := step_of_not_wordAddress (by rw [hready]; rfl) hnot
    exact ⟨k, _, hk, rfl, rfl⟩

/-- Settles O10: the decoder rejects the word, and the fault is latched past the pc advance. -/
theorem unassignedOpcodeRaisesBadOpcode : Obligations.UnassignedOpcodeRaisesBadOpcode := by
  intro s hf h
  refine ⟨_, step_of_unassigned hf h, rfl, advancePc_pc_toNat hf, fun r hr => ?_, fun _ => rfl, rfl, rfl, rfl⟩
  have hne : pcIndex ≠ r := fun e => hr (e ▸ List.mem_singleton_self _)
  simp [hne]

end Sys2Proof.Proofs

/-! ## What each part of the assembler can answer (R101 to R109) -/

namespace Sys2Proof.Machine

theorem bind_eq_ok {ε α β : Type} {x : Except ε α} {f : α → Except ε β} {b : β} :
    (x >>= f) = .ok b ↔ ∃ a, x = .ok a ∧ f a = .ok b := by
  cases x with
  | error e => exact ⟨nofun, nofun⟩
  | ok a => exact ⟨fun h => ⟨a, rfl, h⟩, fun ⟨_, rfl, h⟩ => h⟩

/-- How many of the lines are instruction lines, which take an address each (R103). -/
def instrLines (lines : List (List Char)) : Nat := lines.countP fun l => (labelDef l).isNone

theorem instrLines_label {l name : List Char} (h : labelDef l = some name) (rest : List (List Char)) :
    instrLines (l :: rest) = instrLines rest := by simp [instrLines, h]

theorem instrLines_instr {l : List Char} (h : labelDef l = none) (rest : List (List Char)) :
    instrLines (l :: rest) = instrLines rest + 1 := by simp [instrLines, h]

/-! ### Pass 1 -/

theorem LabelTable.mem_of_find {t : LabelTable} {name : List Char} {x : Word} (h : t.find name = some x) :
    (name, x) ∈ t := by
  induction t with
  | nil => cases h
  | cons e rest ih =>
    simp only [LabelTable.find] at h
    split at h
    · next hn => subst hn; cases h; exact List.mem_cons_self
    · exact List.mem_cons_of_mem _ (ih h)

theorem labelScan_label {l name : List Char} (h : labelDef l = some name) {t : LabelTable}
    (hn : t.find name = none) {a : Nat} (ha : a < 65536) (rest : List (List Char)) :
    labelScan (l :: rest) a t = labelScan rest a ((name, BitVec.ofNat 16 a) :: t) := by
  simp only [labelScan, h, hn, labelAddress, if_pos ha]
  rfl

theorem labelScan_instr {l : List Char} (h : labelDef l = none) (t : LabelTable) (a : Nat) (rest : List (List Char)) :
    labelScan (l :: rest) a t = labelScan rest (a + 2) t := by simp only [labelScan, h]

/-- A label scan that succeeds records a label at the running address, or passes an instruction line. -/
theorem labelScan_cons {l : List Char} {rest : List (List Char)} {a : Nat} {t t' : LabelTable}
    (h : labelScan (l :: rest) a t = .ok t') :
    (∃ name x, labelDef l = some name ∧ x.toNat = a ∧ labelScan rest a ((name, x) :: t) = .ok t') ∨
      (labelDef l = none ∧ labelScan rest (a + 2) t = .ok t') := by
  cases hl : labelDef l with
  | none => exact .inr ⟨rfl, labelScan_instr hl t a rest ▸ h⟩
  | some name =>
    simp only [labelScan, hl] at h
    split at h
    · cases h
    · obtain ⟨x, hx, h⟩ := bind_eq_ok.mp h
      exact .inl ⟨name, x, rfl, labelAddress_ok hx, h⟩

/-- No label stands past the last instruction line (R103). -/
theorem labelScan_le (lines : List (List Char)) {a : Nat} {t t' : LabelTable} (h : labelScan lines a t = .ok t')
    (ht : ∀ e, e ∈ t → e.2.toNat ≤ a + 2 * instrLines lines) : ∀ e, e ∈ t' → e.2.toNat ≤ a + 2 * instrLines lines := by
  induction lines generalizing a t with
  | nil => cases h; exact ht
  | cons l rest ih =>
    obtain ⟨name, x, hl, hx, h⟩ | ⟨hl, h⟩ := labelScan_cons h
    · rw [instrLines_label hl] at ht ⊢
      refine ih h fun e he => ?_
      obtain rfl | he := List.mem_cons.mp he
      · simp only [hx]; omega
      · exact ht e he
    · rw [instrLines_instr hl] at ht ⊢
      rw [show a + 2 * (instrLines rest + 1) = a + 2 + 2 * instrLines rest by omega] at ht ⊢
      exact ih h ht

/-! ### Pass 2 -/

theorem encodePass_label {l name : List Char} (h : labelDef l = some name) (policy : OffsetPolicy) (t : LabelTable)
    (rest : List (List Char)) (a : Nat) : encodePass policy t (l :: rest) a = encodePass policy t rest a := by
  simp only [encodePass, h]

theorem encodePass_instr {l : List Char} (h : labelDef l = none) (policy : OffsetPolicy) (t : LabelTable)
    (rest : List (List Char)) (a : Nat) :
    encodePass policy t (l :: rest) a = (do
      let i ← assembleLine policy t a l
      let is ← encodePass policy t rest (a + 2)
      return i :: is) := by
  simp only [encodePass, h]

/-- A pass 2 that succeeds passes a label, or assembles the line and goes on behind it. -/
theorem encodePass_cons {policy : OffsetPolicy} {t : LabelTable} {l : List Char} {rest : List (List Char)} {a : Nat}
    {is : List Instr} (h : encodePass policy t (l :: rest) a = .ok is) :
    (∃ name, labelDef l = some name ∧ encodePass policy t rest a = .ok is) ∨
      (labelDef l = none ∧ ∃ i js, assembleLine policy t a l = .ok i ∧
        encodePass policy t rest (a + 2) = .ok js ∧ is = i :: js) := by
  cases hl : labelDef l with
  | some name => exact .inl ⟨name, rfl, encodePass_label hl policy t rest a ▸ h⟩
  | none =>
    rw [encodePass_instr hl] at h
    obtain ⟨i, hi, h⟩ := bind_eq_ok.mp h
    obtain ⟨js, hjs, h⟩ := bind_eq_ok.mp h
    cases h
    exact .inr ⟨rfl, i, js, hi, hjs, rfl⟩

theorem encodePass_length {policy : OffsetPolicy} {t : LabelTable} {lines : List (List Char)} {a : Nat}
    {is : List Instr} (h : encodePass policy t lines a = .ok is) : is.length = instrLines lines := by
  induction lines generalizing a is with
  | nil => cases h; rfl
  | cons l rest ih =>
    obtain ⟨name, hl, hrest⟩ | ⟨hl, i, js, -, hrest, rfl⟩ := encodePass_cons h
    · rw [instrLines_label hl, ih hrest]
    · rw [instrLines_instr hl, List.length_cons, ih hrest]

theorem packedOffset_of_inRange {off : Int} (h : offInRange off = true) (policy : OffsetPolicy) :
    packedOffset policy off = .ok off := if_pos h

/-- Either policy leaves an offset that fits its field (R106). -/
theorem packedOffset_inRange {policy : OffsetPolicy} {off o : Int} (h : packedOffset policy off = .ok o) :
    offInRange o = true := by
  unfold packedOffset at h
  split at h
  · next hin => cases h; exact hin
  · split at h
    · cases h
      have := BitVec.toInt_lt (x := BitVec.ofInt 10 off)
      have := BitVec.le_toInt (x := BitVec.ofInt 10 off)
      rw [Laws.offInRange_iff]
      omega
    · cases h

/-- A line that assembles gives a well-formed instruction (R104). -/
theorem assembleLine_wf {policy : OffsetPolicy} {t : LabelTable} {a : Nat} {l : List Char} {i : Instr}
    (h : assembleLine policy t a l = .ok i) : i.wf = true := by
  unfold assembleLine at h
  split at h
  · cases h
  split at h
  · cases h
  split at h
  case h_1 hsh _ => cases h; exact (Laws.wf_instr ..).mpr (by simp [hsh])
  case h_2 hsh _ =>
    split at h
    · cases h
    · obtain ⟨rd, -, h⟩ := bind_eq_ok.mp h
      cases h
      exact (Laws.wf_instr ..).mpr (by simp [hsh])
  case h_3 hsh _ =>
    split at h
    · obtain ⟨rd, -, h⟩ := bind_eq_ok.mp h
      obtain ⟨rs, -, h⟩ := bind_eq_ok.mp h
      cases h
      exact (Laws.wf_instr ..).mpr (by simp [hsh])
    · cases h
  case h_4 hsh _ =>
    split at h
    · obtain ⟨rd, -, h⟩ := bind_eq_ok.mp h
      split at h
      · next himm => cases h; exact (Laws.wf_instr ..).mpr (by simp [hsh, himm])
      · cases h
    · cases h
  case h_5 hsh _ =>
    split at h
    · split at h
      · cases h
      · obtain ⟨off, hoff, h⟩ := bind_eq_ok.mp h
        cases h
        exact (Laws.wf_instr ..).mpr (by simp [hsh, packedOffset_inRange hoff])
    · cases h
  case h_6 => cases h

theorem encodePass_wf {policy : OffsetPolicy} {t : LabelTable} {lines : List (List Char)} {a : Nat}
    {is : List Instr} (h : encodePass policy t lines a = .ok is) : ∀ i, i ∈ is → i.wf = true := by
  induction lines generalizing a is with
  | nil => cases h; nofun
  | cons l rest ih =>
    obtain ⟨name, -, hrest⟩ | ⟨-, i, js, hi, hrest, rfl⟩ := encodePass_cons h
    · exact ih hrest
    · exact List.forall_mem_cons.mpr ⟨assembleLine_wf hi, ih hrest⟩

/-! ### The offset policy (R106) -/

/-- The policy is asked for the offsets to the table's labels only. -/
theorem assembleLine_congr {p q : OffsetPolicy} {t : LabelTable} {a : Nat}
    (h : ∀ name target, t.find name = some target →
      packedOffset p (jumpOffset target a) = packedOffset q (jumpOffset target a)) (l : List Char) :
    assembleLine p t a l = assembleLine q t a l := by
  unfold assembleLine
  split
  · rfl
  split
  · rfl
  split
  case h_5 =>
    split
    · split
      · rfl
      · next hfind => rw [h _ _ hfind]
    · rfl
  all_goals rfl

/-- Between the first and the last address of a loadable program every jump has an offset in range. -/
theorem jumpOffset_inRange {target : Word} {a : Nat} (hlo : 128 ≤ target.toNat) (hhi : target.toNat ≤ 640)
    (ha : 128 ≤ a) (ha' : a + 2 ≤ 640) : offInRange (jumpOffset target a) = true := by
  rw [Laws.offInRange_iff, jumpOffset]
  omega

theorem encodePass_congr {t : LabelTable} (p q : OffsetPolicy)
    (ht : ∀ name target, t.find name = some target → 128 ≤ target.toNat ∧ target.toNat ≤ 640)
    (lines : List (List Char)) {a : Nat} (ha : 128 ≤ a) (ha' : a + 2 * instrLines lines ≤ 640) :
    encodePass p t lines a = encodePass q t lines a := by
  induction lines generalizing a with
  | nil => rfl
  | cons l rest ih =>
    cases hl : labelDef l with
    | some name =>
      rw [instrLines_label hl] at ha'
      rw [encodePass_label hl, encodePass_label hl, ih ha ha']
    | none =>
      rw [instrLines_instr hl] at ha'
      have hline := assembleLine_congr (p := p) (q := q) (t := t) (a := a) (fun name target hf => by
        obtain ⟨hlo, hhi⟩ := ht name target hf
        have hin := jumpOffset_inRange hlo hhi ha (by omega)
        rw [packedOffset_of_inRange hin, packedOffset_of_inRange hin]) l
      rw [encodePass_instr hl, encodePass_instr hl, hline, ih (by omega) (by omega)]

/-! ### Both passes -/

theorem assembleInstrs_eq_ok {policy : OffsetPolicy} {src : List Char} {is : List Instr} :
    assembleInstrs policy src = .ok is ↔ ∃ t, labelScan (filteredLines src) 128 [] = .ok t ∧
      encodePass policy t (filteredLines src) 128 = .ok is :=
  bind_eq_ok

theorem assembleInstrs_wf {policy : OffsetPolicy} {src : List Char} {is : List Instr}
    (h : assembleInstrs policy src = .ok is) : ∀ i, i ∈ is → i.wf = true := by
  obtain ⟨t, -, h⟩ := assembleInstrs_eq_ok.mp h
  exact encodePass_wf h

/-- A loadable program assembles alike under either policy (R106, D20). -/
theorem assembleInstrs_otherPolicy {p : OffsetPolicy} {src : List Char} {is : List Instr}
    (h : assembleInstrs p src = .ok is) (hlen : is.length ≤ 256) (q : OffsetPolicy) :
    assembleInstrs q src = .ok is := by
  obtain ⟨t, ht, h⟩ := assembleInstrs_eq_ok.mp h
  have hcount := encodePass_length h
  refine assembleInstrs_eq_ok.mpr ⟨t, ht, ?_⟩
  rw [← h]
  refine encodePass_congr q p (fun name target hf => ?_) _ (Nat.le_refl _) (by omega)
  have hmem := LabelTable.mem_of_find hf
  have hlo := (labelScan_addresses _ _ _ _ ⟨rfl, Nat.le_refl _⟩ (List.forall_mem_nil _) ht _ hmem).2
  have hhi := labelScan_le _ ht (List.forall_mem_nil _) _ hmem
  exact ⟨hlo, by simp only at hhi; omega⟩

/-! ### The output and its loading (R109, R291, R292) -/

theorem hexText_length (is : List Instr) : (hexText is).length = 4 * is.length := by
  induction is with
  | nil => rfl
  | cons i is ih => simp only [hexText, List.length_append, wordHex, List.length_cons, List.length_nil, ih]; omega

theorem hexGroups_hexText (is : List Instr) : hexGroups (hexText is) = some (is.map encode) := by
  induction is with
  | nil => rfl
  | cons i is ih => rw [hexText, hexGroup_wordHex, ih]; rfl

theorem hexDigit_mem (x : BitVec 4) : hexDigit x.toNat ∈ "0123456789abcdef".toList := by
  have h : ∀ n : Fin 16, hexDigit n.val ∈ "0123456789abcdef".toList := by decide
  exact h x.toFin

theorem hexText_digits (is : List Instr) : ∀ c, c ∈ hexText is → c ∈ "0123456789abcdef".toList := by
  induction is with
  | nil => nofun
  | cons i is ih =>
    refine List.forall_mem_append.mpr ⟨fun c hc => ?_, ih⟩
    simp only [wordHex, List.mem_cons, List.not_mem_nil, or_false] at hc
    obtain rfl | rfl | rfl | rfl := hc <;> exact hexDigit_mem _

theorem assemble_eq (policy : OffsetPolicy) (src : String) :
    assemble policy src = (assembleInstrs policy src.toList).map fun is => String.ofList (hexText is) := by
  rw [assemble]
  cases assembleInstrs policy src.toList <;> rfl

/-- Load takes the text of 1 to 256 instructions and places their words from address 128. -/
theorem load_hexText {is : List Instr} (h1 : 1 ≤ is.length) (h256 : is.length ≤ 256) (s : State) :
    load (String.ofList (hexText is)) s =
      (.ok, { s with mem := s.mem.writeWords Config.codeBase (is.map encode) }) := by
  have hne : hexText is ≠ [] := List.ne_nil_of_length_pos (by rw [hexText_length]; omega)
  rw [load, String.toList_ofList, loadChars, if_neg hne, hexGroups_hexText]
  exact if_neg (Nat.not_lt.mpr (by rwa [List.length_map]))

end Sys2Proof.Machine

namespace Sys2Proof.Proofs

open Sys2Proof.Machine Sys2Proof.Claims Sys2Proof.Laws

/-- Settles O60: load places the words the assembler writes, and each decodes to its instruction. -/
theorem loadedProgramDecodesBack : Obligations.LoadedProgramDecodesBack := by
  intro is s hwf h1 h256 hs
  refine ⟨_, load_hexText h1 h256 s, fun k i hk => ?_⟩
  have hfits : 128 + 2 * (is.map encode).length ≤ 1024 := by rw [List.length_map]; omega
  rw [Memory.readWord_writeWords (is.map encode) 128 k (encode i) hs hfits (by rw [List.getElem?_map, hk]; rfl)]
  exact decodeWord_encode (hwf i (List.mem_of_getElem? hk))

/-- Settles O59: up to 256 instructions every offset to a label fits its field. -/
theorem offsetPolicyIrrelevantWhenLoadable : Obligations.OffsetPolicyIrrelevantWhenLoadable :=
  fun _ _ hlen => ⟨fun h => assembleInstrs_otherPolicy h hlen _, fun h => assembleInstrs_otherPolicy h hlen _⟩

end Sys2Proof.Proofs

/-! ## Source text of the written form (R100 to R102, R110 to R112) -/

namespace Sys2Proof.Machine

open Sys2Proof.Claims

/-! ### Characters and tokens -/

/-- A character of a mnemonic, an operand or a label name. -/
def isTokenChar (c : Char) : Bool := c.isAlphanum || c == '_' || c == '-'

/-- A space or a tab. -/
def isBlank (c : Char) : Bool := c == ' ' || c == '\t'

/-- A token as the written form has it. -/
def IsToken (cs : List Char) : Prop := cs ≠ [] ∧ ∀ c, c ∈ cs → isTokenChar c = true

theorem isTokenChar_of_isAlpha {c : Char} (h : c.isAlpha = true) : isTokenChar c = true := by
  simp [isTokenChar, Char.isAlphanum, h]

theorem isTokenChar_of_isDigit {c : Char} (h : c.isDigit = true) : isTokenChar c = true := by
  simp [isTokenChar, Char.isAlphanum, h]

theorem ne_of_isTokenChar {c d : Char} (h : isTokenChar c = true) (hd : isTokenChar d = false) : c ≠ d :=
  fun e => by rw [e, hd] at h; cases h

theorem not_isWhitespace_of_isTokenChar {c : Char} (h : isTokenChar c = true) : c.isWhitespace = false := by
  have hsp := ne_of_isTokenChar h (d := ' ') rfl
  have htab := ne_of_isTokenChar h (d := '\t') rfl
  have hcr := ne_of_isTokenChar h (d := '\r') rfl
  have hlf := ne_of_isTokenChar h (d := '\n') rfl
  simp [Char.isWhitespace, hsp, htab, hcr, hlf]

theorem not_isBlank_of_isTokenChar {c : Char} (h : isTokenChar c = true) : isBlank c = false := by
  simp [isBlank, ne_of_isTokenChar h (d := ' ') rfl, ne_of_isTokenChar h (d := '\t') rfl]

theorem isBlank_of_blanks {cs : List Char} (h : Blanks cs) {c : Char} (hc : c ∈ cs) : isBlank c = true := by
  obtain rfl | rfl := h c hc <;> rfl

theorem isWhitespace_of_blanks {cs : List Char} (h : Blanks cs) {c : Char} (hc : c ∈ cs) : c.isWhitespace = true := by
  obtain rfl | rfl := h c hc <;> rfl

theorem isToken_of_labelName {name : List Char} (h : LabelName name) : IsToken name := by
  obtain ⟨hall, c, hc, -⟩ := h
  refine ⟨List.ne_nil_of_mem (List.mem_of_mem_head? hc), fun d hd => ?_⟩
  obtain ha | hn | rfl := hall d hd
  · exact isTokenChar_of_isAlpha ha
  · exact isTokenChar_of_isDigit hn
  · rfl

/-- The label names are the identifiers of R112. -/
theorem isIdent_of_labelName {name : List Char} (h : LabelName name) : isIdent name = true := by
  obtain ⟨hall, c, hc, hdigit⟩ := h
  obtain ⟨rest, rfl⟩ := List.head?_eq_some_iff.mp hc
  have hstart : isIdentStart c = true := by simpa [isIdentStart, hdigit] using hall c List.mem_cons_self
  simp only [isIdent, hstart, Bool.true_and, List.all_eq_true]
  intro d hd
  simpa [isIdentStart, or_right_comm, or_assoc] using hall d (List.mem_cons_of_mem _ hd)

theorem name_isUpper (m : Mnemonic) : m.name.toList ≠ [] ∧ m.name.toList.all Char.isUpper = true := by
  cases m <;> exact ⟨by decide, by decide⟩

theorem isToken_of_spelling {m : Mnemonic} {cs : List Char} (h : cs.map Char.toUpper = m.name.toList) :
    IsToken cs := by
  obtain ⟨hne, hupper⟩ := name_isUpper m
  refine ⟨fun e => hne (by rw [← h, e]; rfl), fun c hc => isTokenChar_of_isAlpha ?_⟩
  rw [← Char.isUpper_toUpper_eq_isAlpha]
  exact List.all_eq_true.mp hupper _ (h ▸ List.mem_map_of_mem hc)

/-- A mnemonic is known by its name in either case (R102). -/
theorem mnemonicOf_spelling {m : Mnemonic} {cs : List Char} (h : cs.map Char.toUpper = m.name.toList) :
    mnemonicOf cs = some m := by
  rw [mnemonicOf, h]
  cases m <;> decide

/-! ### Operands -/

theorem toDigits_isDigit (n : Nat) : ∀ c, c ∈ Nat.toDigits 10 n → c.isDigit = true :=
  fun _ => Nat.isDigit_of_mem_toDigits (by decide) (by decide)

theorem isToken_toDigits (n : Nat) : IsToken (Nat.toDigits 10 n) :=
  ⟨Nat.toDigits_ne_nil, fun c hc => isTokenChar_of_isDigit (toDigits_isDigit n c hc)⟩

theorem IsToken.cons {c : Char} {cs : List Char} (hc : isTokenChar c = true) (h : IsToken cs) : IsToken (c :: cs) :=
  ⟨List.cons_ne_nil c cs, List.forall_mem_cons.mpr ⟨hc, h.2⟩⟩

theorem decimal_toDigits (n : Nat) : decimal (Nat.toDigits 10 n) = some n := by
  have hguard : (Nat.toDigits 10 n != [] && (Nat.toDigits 10 n).all Char.isDigit) = true := by
    simpa [Nat.toDigits_ne_nil] using toDigits_isDigit n
  rw [decimal, if_pos hguard, ← Nat.ofDigitChars_eq_foldl, Nat.ofDigitChars_ten_toDigits]

theorem registerNumber_registerText (r : Reg) : registerNumber (registerText r) = some r.val := decimal_toDigits r.val

theorem registerOf_val (r : Reg) : registerOf r.val = .ok r := dif_pos r.isLt

theorem isToken_registerText (r : Reg) : IsToken (registerText r) := (isToken_toDigits r.val).cons rfl

theorem isToken_immediateText (v : Int) : IsToken (immediateText v) := by
  unfold immediateText
  split
  · exact (isToken_toDigits _).cons rfl
  · exact isToken_toDigits _

/-- Digits without a sign are read as they stand (R111). -/
theorem immediateNumber_toDigits (n : Nat) : immediateNumber (Nat.toDigits 10 n) = some (n : Int) := by
  have hsign {c : Char} {ds : List Char} (e : Nat.toDigits 10 n = c :: ds) (hc : c.isDigit = false) : False := by
    have := toDigits_isDigit n c (e ▸ List.mem_cons_self)
    rw [hc] at this
    cases this
  unfold immediateNumber
  split
  · next e => exact (hsign e rfl).elim
  · next e => exact (hsign e rfl).elim
  · rw [decimal_toDigits]; rfl

theorem immediateNumber_immediateText (v : Int) : immediateNumber (immediateText v) = some v := by
  unfold immediateText
  split
  · have hneg : -((v.natAbs : Nat) : Int) = v := by omega
    rw [immediateNumber, decimal_toDigits]
    exact congrArg some hneg
  · rw [immediateNumber_toDigits]
    exact congrArg some (by omega)

/-- The operands of a shape that is no jump's, as they are written (R102). -/
def shapeOperands (sh : Shape) (rd rs : Reg) (imm : Int) : List (List Char) :=
  match sh with
  | .r0 | .j => []
  | .r1 => [registerText rd]
  | .r2 => [registerText rd, registerText rs]
  | .i => [registerText rd, immediateText imm]

theorem operandTexts_instr (m : Mnemonic) (rd rs : Reg) (imm off : Int) :
    operandTexts (m.instr rd rs imm off) = shapeOperands m.shape rd rs imm := by cases m <;> rfl

theorem isToken_shapeOperands (sh : Shape) (rd rs : Reg) (imm : Int) :
    ∀ o, o ∈ shapeOperands sh rd rs imm → IsToken o := by
  cases sh <;> simp [shapeOperands, isToken_registerText, isToken_immediateText]

/-- A well-formed instruction is its mnemonic's, with some operands in range. -/
theorem exists_instr {i : Instr} (h : i.wf = true) : ∃ rd rs imm off, i.mnemonic.instr rd rs imm off = i :=
  ⟨_, _, _, _, (Laws.EncodingFields.holds i h).2⟩

theorem isToken_operandTexts {i : Instr} (h : i.wf = true) : ∀ o, o ∈ operandTexts i → IsToken o := by
  obtain ⟨rd, rs, imm, off, hi⟩ := exists_instr h
  rw [← hi, operandTexts_instr]
  exact isToken_shapeOperands _ _ _ _

/-! ### One instruction line (R104, R105) -/

theorem assembleLine_plain {i : Instr} {line tok : List Char} (hwf : i.wf = true) (hsh : i.mnemonic.shape ≠ .j)
    (htok : tokens line = tok :: operandTexts i) (hm : mnemonicOf tok = some i.mnemonic)
    (policy : OffsetPolicy) (t : LabelTable) (a : Nat) : assembleLine policy t a line = .ok i := by
  obtain ⟨rd, rs, imm, off, hi⟩ := exists_instr hwf
  rw [← hi, operandTexts_instr] at htok
  rw [← hi, Laws.wf_instr] at hwf
  rw [← hi]
  generalize i.mnemonic = m at *
  simp only [assembleLine, htok, hm]
  cases hs : m.shape <;>
    simp only [shapeOperands, registerNumber_registerText, immediateNumber_immediateText, registerOf_val]
  case r0 => exact congrArg _ (Laws.instr_congr (by simp [hs]) (by simp [hs]) (by simp [hs]) (by simp [hs]))
  case r1 => exact congrArg _ (Laws.instr_congr (by simp) (by simp [hs]) (by simp [hs]) (by simp [hs]))
  case r2 => exact congrArg _ (Laws.instr_congr (by simp) (by simp) (by simp [hs]) (by simp [hs]))
  case i =>
    simp only [bind, Except.bind, if_pos (hwf.1 hs)]
    exact congrArg _ (Laws.instr_congr (by simp) (by simp [hs]) (by simp) (by simp [hs]))
  case j => exact absurd hs hsh

theorem assembleLine_jump {m : Mnemonic} {line tok name : List Char} {t : LabelTable} {a : Nat} {target : Word}
    (hsh : m.shape = .j) (htok : tokens line = [tok, name]) (hm : mnemonicOf tok = some m)
    (hname : isIdent name = true) (hfind : t.find name = some target)
    (hoff : offInRange (jumpOffset target a) = true) (policy : OffsetPolicy) :
    assembleLine policy t a line = .ok (m.instr 0 0 0 (jumpOffset target a)) := by
  simp only [assembleLine, htok, hm, hsh, hname, if_true, hfind, packedOffset_of_inRange hoff]
  rfl

/-! ### Cutting text into tokens and lines -/

theorem splitAtAll_eq_splitOnP (p : Char → Bool) (cs : List Char) : splitAtAll p cs = cs.splitOnP p := by
  induction cs with
  | nil => rfl
  | cons c cs ih =>
    rw [splitAtAll, List.splitOnP_cons_eq_if_modifyHead, ih]
    split
    · rfl
    · obtain ⟨l, ls, e⟩ := List.exists_cons_of_ne_nil (List.splitOnP_ne_nil p cs)
      rw [e]
      rfl

theorem tokens_eq (line : List Char) : tokens line = (line.splitOnP isBlank).filter (· != []) := by
  rw [tokens, splitAtAll_eq_splitOnP]
  rfl

theorem tokens_blanks_append {gap : List Char} (h : Blanks gap) (line : List Char) :
    tokens (gap ++ line) = tokens line := by
  induction gap with
  | nil => rfl
  | cons c gap ih =>
    have hc := isBlank_of_blanks h (c := c) List.mem_cons_self
    rw [List.cons_append, tokens_eq, List.splitOnP_cons_eq_if_modifyHead, if_pos hc, ← ih fun d hd =>
      h d (List.mem_cons_of_mem _ hd), tokens_eq]
    rfl

theorem tokens_token {tok : List Char} (h : IsToken tok) : tokens tok = [tok] := by
  obtain ⟨hne, hall⟩ := h
  rw [tokens_eq, List.splitOnP_eq_singleton fun c hc => not_isBlank_of_isTokenChar (hall c hc)]
  simp [hne]

theorem tokens_token_append {tok gap : List Char} (h : IsToken tok) (hgap : Blanks gap) (hne : gap ≠ [])
    (line : List Char) : tokens (tok ++ (gap ++ line)) = tok :: tokens line := by
  rw [← tokens_blanks_append hgap line]
  cases gap with
  | nil => exact absurd rfl hne
  | cons c gap =>
    have hc := isBlank_of_blanks hgap (c := c) List.mem_cons_self
    rw [List.cons_append, tokens_eq, tokens_eq, List.splitOnP_append_cons_of_forall_mem
      (fun d hd => not_isBlank_of_isTokenChar (h.2 d hd)) c hc, List.splitOnP_cons_eq_if_modifyHead, if_pos hc]
    simp [h.1]

/-- A token and its operands, each behind the gap: an instruction line's body. -/
def spaced (gap tok : List Char) (ops : List (List Char)) : List Char := tok ++ ops.flatMap (gap ++ ·)

theorem spaced_cons (gap tok o : List Char) (ops : List (List Char)) :
    spaced gap tok (o :: ops) = tok ++ (gap ++ spaced gap o ops) := by simp [spaced]

theorem tokens_spaced {gap tok : List Char} {ops : List (List Char)} (hgap : Blanks gap) (hne : gap ≠ [])
    (htok : IsToken tok) (hops : ∀ o, o ∈ ops → IsToken o) : tokens (spaced gap tok ops) = tok :: ops := by
  induction ops generalizing tok with
  | nil => rw [spaced, List.flatMap_nil, List.append_nil, tokens_token htok]
  | cons o ops ih =>
    obtain ⟨ho, hops⟩ := List.forall_mem_cons.mp hops
    rw [spaced_cons, tokens_token_append htok hgap hne, ih ho hops]

/-- The body of a line: it begins and ends with no white space, and has no line feed or comment sign. -/
structure IsBody (b : List Char) : Prop where
  headChar : ∃ c, b.head? = some c ∧ c.isWhitespace = false
  lastChar : ∃ c, b.getLast? = some c ∧ c.isWhitespace = false
  plain : ∀ c, c ∈ b → c ≠ '\n' ∧ c ≠ '#'

theorem IsToken.headChar {tok : List Char} (h : IsToken tok) : ∃ c, tok.head? = some c ∧ isTokenChar c = true := by
  obtain ⟨hne, hall⟩ := h
  exact ⟨_, List.head?_eq_some_head hne, hall _ (List.head_mem hne)⟩

theorem IsToken.lastChar {tok : List Char} (h : IsToken tok) : ∃ c, tok.getLast? = some c ∧ isTokenChar c = true := by
  obtain ⟨hne, hall⟩ := h
  exact ⟨_, List.getLast?_eq_some_getLast hne, hall _ (List.getLast_mem hne)⟩

theorem ne_of_isTokenChar_or_blank {c : Char} (h : isTokenChar c = true ∨ isBlank c = true) : c ≠ '\n' ∧ c ≠ '#' := by
  constructor <;> rintro rfl <;> exact absurd h (by decide)

theorem spaced_last {gap tok : List Char} {ops : List (List Char)} (htok : IsToken tok)
    (hops : ∀ o, o ∈ ops → IsToken o) : ∃ c, (spaced gap tok ops).getLast? = some c ∧ isTokenChar c = true := by
  induction ops generalizing tok with
  | nil => simpa [spaced] using htok.lastChar
  | cons o ops ih =>
    obtain ⟨ho, hops⟩ := List.forall_mem_cons.mp hops
    obtain ⟨c, hc, htc⟩ := ih ho hops
    exact ⟨c, by rw [spaced_cons, List.getLast?_append, List.getLast?_append, hc]; rfl, htc⟩

theorem isBody_spaced {gap tok : List Char} {ops : List (List Char)} (hgap : Blanks gap)
    (htok : IsToken tok) (hops : ∀ o, o ∈ ops → IsToken o) : IsBody (spaced gap tok ops) where
  headChar := by
    obtain ⟨c, hc, htc⟩ := htok.headChar
    exact ⟨c, by rw [spaced, List.head?_append, hc]; rfl, not_isWhitespace_of_isTokenChar htc⟩
  lastChar := by
    obtain ⟨c, hc, htc⟩ := spaced_last (gap := gap) htok hops
    exact ⟨c, hc, not_isWhitespace_of_isTokenChar htc⟩
  plain c hc := by
    refine ne_of_isTokenChar_or_blank ?_
    simp only [spaced, List.mem_append, List.mem_flatMap] at hc
    obtain hc | ⟨o, ho, hc | hc⟩ := hc
    · exact .inl (htok.2 c hc)
    · exact .inr (isBlank_of_blanks hgap hc)
    · exact .inl ((hops o ho).2 c hc)

theorem isBody_label {name : List Char} (h : IsToken name) : IsBody (name ++ [':']) where
  headChar := by
    obtain ⟨c, hc, htc⟩ := h.headChar
    exact ⟨c, by rw [List.head?_append, hc]; rfl, not_isWhitespace_of_isTokenChar htc⟩
  lastChar := ⟨':', by simp, rfl⟩
  plain := List.forall_mem_append.mpr
    ⟨fun c hc => ne_of_isTokenChar_or_blank (.inl (h.2 c hc)), by simp⟩

theorem dropWhile_of_head {p : Char → Bool} {cs : List Char} (h : ∃ c, cs.head? = some c ∧ p c = false) :
    cs.dropWhile p = cs := by
  obtain ⟨c, hc, hp⟩ := h
  obtain ⟨rest, rfl⟩ := List.head?_eq_some_iff.mp hc
  exact List.dropWhile_cons_of_neg (by simp [hp])

/-- Blanks around a body are trimmed off (R100). -/
theorem trim_body {b before after : List Char} (h : IsBody b) (hb : Blanks before) (ha : Blanks after) :
    trim (before ++ (b ++ after)) = b := by
  obtain ⟨c, hc, hws⟩ := h.headChar
  have hfirst : (b ++ after).dropWhile Char.isWhitespace = b ++ after :=
    dropWhile_of_head ⟨c, by rw [List.head?_append, hc]; rfl, hws⟩
  have hlast : b.reverse.dropWhile Char.isWhitespace = b.reverse :=
    dropWhile_of_head (by rw [List.head?_reverse]; exact h.lastChar)
  rw [trim, List.dropWhile_append_of_pos fun c hc => isWhitespace_of_blanks hb hc, hfirst, List.reverse_append,
    List.dropWhile_append_of_pos fun c hc => isWhitespace_of_blanks ha (List.mem_reverse.mp hc), hlast,
    List.reverse_reverse]

theorem filteredLines_cons {text body : List Char} (htext : '\n' ∉ text) (hne : body ≠ [])
    (hbody : trim (text.takeWhile (· != '#')) = body) (rest : List Char) :
    filteredLines (text ++ '\n' :: rest) = body :: filteredLines rest := by
  have hcut : ∀ c, c ∈ text → (c == '\n') = false := fun c hc => by
    simpa using fun e : c = '\n' => htext (e ▸ hc)
  simp only [filteredLines, splitAtAll_eq_splitOnP]
  rw [List.splitOnP_append_cons_of_forall_mem hcut '\n' rfl, List.map_cons, hbody, List.filter_cons_of_pos (by simpa)]

/-! ### A source line and its body -/

theorem item_cases (l : SourceLine) : (∃ name, l.item = .label name) ∨ ∀ name, l.item ≠ .label name := by
  cases l.item with
  | label name => exact .inl ⟨name, rfl⟩
  | plain i => exact .inr nofun
  | jump m name => exact .inr nofun

theorem body_label {l : SourceLine} {name : List Char} (h : l.item = .label name) : l.body = name ++ [':'] := by
  simp only [SourceLine.body, h]

theorem body_plain {l : SourceLine} {i : Instr} (h : l.item = .plain i) :
    l.body = spaced l.gap l.spelling (operandTexts i) := by
  simp only [SourceLine.body, h, spaced]

theorem body_jump {l : SourceLine} {m : Mnemonic} {name : List Char} (h : l.item = .jump m name) :
    l.body = spaced l.gap l.spelling [name] := by
  simp [SourceLine.body, h, spaced]

theorem labelName_of_ok {l : SourceLine} (h : l.ok) {name : List Char} (hi : l.item = .label name) : LabelName name := by
  obtain ⟨-, -, -, -, h⟩ := h
  rwa [hi] at h

theorem plain_of_ok {l : SourceLine} (h : l.ok) {i : Instr} (hi : l.item = .plain i) :
    i.wf = true ∧ i.mnemonic.shape ≠ .j ∧ l.spelling.map Char.toUpper = i.mnemonic.name.toList := by
  obtain ⟨-, -, -, -, h⟩ := h
  rwa [hi] at h

theorem jump_of_ok {l : SourceLine} (h : l.ok) {m : Mnemonic} {name : List Char} (hi : l.item = .jump m name) :
    m.shape = .j ∧ LabelName name ∧ l.spelling.map Char.toUpper = m.name.toList := by
  obtain ⟨-, -, -, -, h⟩ := h
  rwa [hi] at h

/-- The mnemonic and the operands of an instruction line are tokens. -/
theorem exists_spaced_of_ok {l : SourceLine} (h : l.ok) (hi : ∀ name, l.item ≠ .label name) :
    ∃ ops, l.body = spaced l.gap l.spelling ops ∧ IsToken l.spelling ∧ ∀ o, o ∈ ops → IsToken o := by
  cases hl : l.item with
  | label name => exact absurd hl (hi name)
  | plain i =>
    obtain ⟨hwf, -, hsp⟩ := plain_of_ok h hl
    exact ⟨_, body_plain hl, isToken_of_spelling hsp, isToken_operandTexts hwf⟩
  | jump m name =>
    obtain ⟨-, hname, hsp⟩ := jump_of_ok h hl
    exact ⟨_, body_jump hl, isToken_of_spelling hsp, by simpa using isToken_of_labelName hname⟩

theorem labelDef_label {l : SourceLine} (h : l.ok) {name : List Char} (hi : l.item = .label name) :
    labelDef l.body = some name := by
  rw [body_label hi, labelDef, List.reverse_append]
  simp [isIdent_of_labelName (labelName_of_ok h hi)]

/-- An instruction line ends with no colon, so it defines no label (R101). -/
theorem labelDef_instr {l : SourceLine} (h : l.ok) (hi : ∀ name, l.item ≠ .label name) : labelDef l.body = none := by
  obtain ⟨ops, hbody, htok, hops⟩ := exists_spaced_of_ok h hi
  obtain ⟨c, hc, htc⟩ := spaced_last (gap := l.gap) htok hops
  rw [← hbody, List.getLast?_eq_head?_reverse] at hc
  unfold labelDef
  split
  · next e =>
    rw [e] at hc
    cases hc
    cases htc
  · rfl

theorem isBody_of_ok {l : SourceLine} (h : l.ok) : IsBody l.body := by
  obtain ⟨name, hi⟩ | hi := item_cases l
  · rw [body_label hi]
    exact isBody_label (isToken_of_labelName (labelName_of_ok h hi))
  · obtain ⟨ops, hbody, htok, hops⟩ := exists_spaced_of_ok h hi
    obtain ⟨-, -, ⟨hgap, -⟩, -⟩ := h
    rw [hbody]
    exact isBody_spaced hgap htok hops

/-- The filtered lines of a source text are the bodies of its lines (R100). -/
theorem filteredLines_sourceText {ls : List SourceLine} (h : ∀ l, l ∈ ls → l.ok) :
    filteredLines (sourceText ls) = ls.map SourceLine.body := by
  induction ls with
  | nil => rfl
  | cons l ls ih =>
    obtain ⟨hl, hls⟩ := List.forall_mem_cons.mp h
    have hbody := isBody_of_ok hl
    obtain ⟨hbefore, hafter, -, hcomment, -⟩ := hl
    have hvisible : ∀ c, c ∈ l.before ++ (l.body ++ l.after) → c ≠ '\n' ∧ c ≠ '#' :=
      List.forall_mem_append.mpr ⟨fun c hc => ne_of_isTokenChar_or_blank (.inr (isBlank_of_blanks hbefore hc)),
        List.forall_mem_append.mpr ⟨hbody.plain,
          fun c hc => ne_of_isTokenChar_or_blank (.inr (isBlank_of_blanks hafter hc))⟩⟩
    have htext : '\n' ∉ (l.before ++ (l.body ++ l.after)) ++ l.comment := by
      intro hmem
      obtain hmem | hmem := List.mem_append.mp hmem
      · exact (hvisible _ hmem).1 rfl
      · obtain e | ⟨c, e, hc⟩ := hcomment <;> rw [e] at hmem
        · cases hmem
        · exact hc (List.mem_of_ne_of_mem (by decide) hmem)
    have hcut : ((l.before ++ (l.body ++ l.after)) ++ l.comment).takeWhile (· != '#') =
        l.before ++ (l.body ++ l.after) := by
      rw [List.takeWhile_append_of_pos fun c hc => by simpa using (hvisible c hc).2]
      obtain e | ⟨c, e, -⟩ := hcomment <;> simp [e]
    have hne : l.body ≠ [] := by
      obtain ⟨c, hc, -⟩ := hbody.headChar
      exact fun e => by rw [e] at hc; cases hc
    have hsplit : sourceText (l :: ls) = ((l.before ++ (l.body ++ l.after)) ++ l.comment) ++ '\n' :: sourceText ls := by
      simp [sourceText]
    rw [hsplit, filteredLines_cons htext hne (by rw [hcut]; exact trim_body hbody hbefore hafter), ih hls, List.map_cons]

/-! ### Addresses of source lines (R103) -/

theorem labelNames_label {l : SourceLine} {name : List Char} (h : l.item = .label name) (ls : List SourceLine) :
    labelNames (l :: ls) = name :: labelNames ls := by
  rw [labelNames, List.filterMap_cons]
  simp only [h]
  rfl

theorem labelNames_instr {l : SourceLine} (h : ∀ name, l.item ≠ .label name) (ls : List SourceLine) :
    labelNames (l :: ls) = labelNames ls := by
  rw [labelNames, List.filterMap_cons]
  cases hl : l.item with
  | label name => exact absurd hl (h name)
  | plain i => rfl
  | jump m name => rfl

theorem exists_of_mem_labelNames {ls : List SourceLine} {name : List Char} (h : name ∈ labelNames ls) :
    ∃ (q : Nat) (l : SourceLine), ls[q]? = some l ∧ l.item = .label name := by
  obtain ⟨l, hl, hname⟩ := List.mem_filterMap.mp h
  obtain ⟨q, hq⟩ := List.getElem?_of_mem hl
  refine ⟨q, l, hq, ?_⟩
  split at hname <;> cases hname
  assumption

theorem wordsBefore_zero (ls : List SourceLine) : wordsBefore ls 0 = 0 := rfl

theorem wordsBefore_label {l : SourceLine} {name : List Char} (h : l.item = .label name) (ls : List SourceLine)
    (p : Nat) : wordsBefore (l :: ls) (p + 1) = wordsBefore ls p := by
  rw [wordsBefore, List.take_succ_cons, List.countP_cons_of_neg (by simp [h])]
  rfl

theorem wordsBefore_instr {l : SourceLine} (h : ∀ name, l.item ≠ .label name) (ls : List SourceLine) (p : Nat) :
    wordsBefore (l :: ls) (p + 1) = wordsBefore ls p + 1 := by
  rw [wordsBefore, List.take_succ_cons, List.countP_cons_of_pos]
  · rfl
  · cases hl : l.item with
    | label name => exact absurd hl (h name)
    | plain i => rfl
    | jump m name => rfl

theorem wordsBefore_le (ls : List SourceLine) (p : Nat) : wordsBefore ls p ≤ wordsBefore ls ls.length := by
  rw [wordsBefore, wordsBefore, List.take_length]
  exact (List.take_sublist p ls).countP_le

theorem wordsBefore_lt {ls : List SourceLine} {p : Nat} {l : SourceLine} (hp : ls[p]? = some l)
    (h : ∀ name, l.item ≠ .label name) : wordsBefore ls p < wordsBefore ls ls.length := by
  induction ls generalizing p with
  | nil => cases hp
  | cons k ks ih =>
    rw [List.length_cons]
    cases p with
    | zero =>
      cases hp
      rw [wordsBefore_zero, wordsBefore_instr h]
      exact Nat.succ_pos _
    | succ p =>
      obtain ⟨name, hk⟩ | hk := item_cases k
      · rw [wordsBefore_label hk, wordsBefore_label hk]
        exact ih hp
      · rw [wordsBefore_instr hk, wordsBefore_instr hk]
        exact Nat.succ_lt_succ (ih hp)

/-- The instruction lines of a source text are those that take an address. -/
theorem instrLines_bodies {ls : List SourceLine} (h : ∀ l, l ∈ ls → l.ok) :
    instrLines (ls.map SourceLine.body) = wordsBefore ls ls.length := by
  induction ls with
  | nil => rfl
  | cons l ls ih =>
    obtain ⟨hl, hls⟩ := List.forall_mem_cons.mp h
    rw [List.map_cons, List.length_cons]
    obtain ⟨name, hi⟩ | hi := item_cases l
    · rw [instrLines_label (labelDef_label hl hi), wordsBefore_label hi, ih hls]
    · rw [instrLines_instr (labelDef_instr hl hi), wordsBefore_instr hi, ih hls]

/-! ### The two passes over source lines (R103 to R105) -/

theorem LabelTable.find_cons_ne {t : LabelTable} {n name : List Char} (h : n ≠ name) (x : Word) :
    LabelTable.find ((n, x) :: t) name = t.find name := if_neg h

theorem LabelTable.find_cons_self (t : LabelTable) (name : List Char) (x : Word) :
    LabelTable.find ((name, x) :: t) name = some x := if_pos rfl

/-- Pass 1 over distinct labels records each at its address, and nothing else. -/
theorem labelScan_bodies {ls : List SourceLine} {a : Nat} {t : LabelTable} (hok : ∀ l, l ∈ ls → l.ok)
    (hdistinct : (labelNames ls).Nodup) (hnew : ∀ name, name ∈ labelNames ls → t.find name = none)
    (ha : a + 2 * wordsBefore ls ls.length < 65536) :
    ∃ t', labelScan (ls.map SourceLine.body) a t = .ok t' ∧
      (∀ name, name ∉ labelNames ls → t'.find name = t.find name) ∧
      ∀ (q : Nat) (l : SourceLine) (name : List Char), ls[q]? = some l → l.item = .label name →
        t'.find name = some (BitVec.ofNat 16 (a + 2 * wordsBefore ls q)) := by
  induction ls generalizing a t with
  | nil => exact ⟨t, rfl, fun _ _ => rfl, fun _ _ _ hq _ => nomatch hq⟩
  | cons l ls ih =>
    obtain ⟨hl, hls⟩ := List.forall_mem_cons.mp hok
    rw [List.length_cons] at ha
    rw [List.map_cons]
    obtain ⟨name, hi⟩ | hi := item_cases l
    · rw [wordsBefore_label hi] at ha
      rw [labelNames_label hi] at hdistinct hnew ⊢
      obtain ⟨hfresh, hdistinct⟩ := List.nodup_cons.mp hdistinct
      have hnew' : ∀ n, n ∈ labelNames ls →
          LabelTable.find ((name, BitVec.ofNat 16 a) :: t) n = none := fun n hn => by
        have hne : name ≠ n := fun e => hfresh (e ▸ hn)
        rw [LabelTable.find_cons_ne hne]
        exact hnew n (List.mem_cons_of_mem _ hn)
      obtain ⟨t', hscan, hother, hlabel⟩ := ih hls hdistinct hnew' ha
      refine ⟨t', ?_, fun n hn => ?_, fun q k n hq hk => ?_⟩
      · rw [labelScan_label (labelDef_label hl hi) (hnew name List.mem_cons_self) (by omega), hscan]
      · rw [hother n (List.not_mem_of_not_mem_cons hn), LabelTable.find_cons_ne (List.ne_of_not_mem_cons hn).symm]
      · cases q with
        | zero =>
          cases hq
          obtain rfl : name = n := SourceItem.label.inj (hi.symm.trans hk)
          rw [hother name hfresh, LabelTable.find_cons_self]
          rfl
        | succ q => rw [hlabel q k n hq hk, wordsBefore_label hi]
    · rw [wordsBefore_instr hi] at ha
      rw [labelNames_instr hi] at hdistinct hnew ⊢
      obtain ⟨t', hscan, hother, hlabel⟩ := ih (a := a + 2) hls hdistinct hnew (by omega)
      refine ⟨t', by rw [labelScan_instr (labelDef_instr hl hi), hscan], hother, fun q k n hq hk => ?_⟩
      cases q with
      | zero => cases hq; exact absurd hk (hi n)
      | succ q => rw [hlabel q k n hq hk, wordsBefore_instr hi, Nat.mul_succ, Nat.add_comm (2 * _), Nat.add_assoc]

/-- The instruction of a source item at address `a`, with the labels of `t`. -/
def instrAt (t : LabelTable) (a : Nat) (item : SourceItem) : Option Instr :=
  match item with
  | .label _ => none
  | .plain i => some i
  | .jump m name => (t.find name).map fun target => m.instr 0 0 0 (jumpOffset target a)

/-- A line of the written form assembles to its instruction where that is well formed. -/
theorem assembleLine_body {l : SourceLine} (h : l.ok) {t : LabelTable} {a : Nat} {i : Instr}
    (hi : instrAt t a l.item = some i) (hwf : i.wf = true) (policy : OffsetPolicy) :
    assembleLine policy t a l.body = .ok i := by
  have ⟨_, _, ⟨hgap, hne⟩, _⟩ := h
  cases hl : l.item with
  | label name => rw [hl] at hi; cases hi
  | plain j =>
    rw [hl] at hi
    cases hi
    obtain ⟨-, hsh, hsp⟩ := plain_of_ok h hl
    have htok := tokens_spaced hgap hne (isToken_of_spelling hsp) (isToken_operandTexts hwf)
    exact assembleLine_plain hwf hsh (body_plain hl ▸ htok) (mnemonicOf_spelling hsp) policy t a
  | jump m name =>
    rw [hl] at hi
    obtain ⟨target, hfind, rfl⟩ := Option.map_eq_some_iff.mp hi
    obtain ⟨hsh, hname, hsp⟩ := jump_of_ok h hl
    have htok := tokens_spaced (ops := [name]) hgap hne (isToken_of_spelling hsp)
      (by simpa using isToken_of_labelName hname)
    exact assembleLine_jump hsh (body_jump hl ▸ htok) (mnemonicOf_spelling hsp) (isIdent_of_labelName hname) hfind
      (((Laws.wf_instr ..).mp hwf).2 hsh) policy

/-- Pass 2 gives the instruction of each instruction line in its place. -/
theorem encodePass_bodies {ls : List SourceLine} {a : Nat} {t : LabelTable} (policy : OffsetPolicy)
    (hok : ∀ l, l ∈ ls → l.ok)
    (hmean : ∀ (p : Nat) (l : SourceLine), ls[p]? = some l → (∀ name, l.item ≠ .label name) →
      ∃ i, instrAt t (a + 2 * wordsBefore ls p) l.item = some i ∧ i.wf = true) :
    ∃ is, encodePass policy t (ls.map SourceLine.body) a = .ok is ∧
      ∀ (p : Nat) (l : SourceLine) (i : Instr), ls[p]? = some l →
        instrAt t (a + 2 * wordsBefore ls p) l.item = some i → is[wordsBefore ls p]? = some i := by
  induction ls generalizing a with
  | nil => exact ⟨[], rfl, fun _ _ _ hp _ => nomatch hp⟩
  | cons l ls ih =>
    obtain ⟨hl, hls⟩ := List.forall_mem_cons.mp hok
    rw [List.map_cons]
    obtain ⟨name, hi⟩ | hi := item_cases l
    · have hshift := wordsBefore_label hi ls
      obtain ⟨is, hpass, his⟩ := ih (a := a) hls fun p k hk hki => hshift p ▸ hmean (p + 1) k hk hki
      refine ⟨is, by rw [encodePass_label (labelDef_label hl hi), hpass], fun p k i hk hki => ?_⟩
      cases p with
      | zero => cases hk; rw [hi] at hki; cases hki
      | succ p => rw [hshift] at hki ⊢; exact his p k i hk hki
    · have hshift (p : Nat) : a + 2 * wordsBefore (l :: ls) (p + 1) = a + 2 + 2 * wordsBefore ls p := by
        rw [wordsBefore_instr hi]; omega
      obtain ⟨i₀, hi₀ : instrAt t a l.item = some i₀, hwf₀⟩ := hmean 0 l rfl hi
      obtain ⟨is, hpass, his⟩ := ih (a := a + 2) hls fun p k hk hki => hshift p ▸ hmean (p + 1) k hk hki
      refine ⟨i₀ :: is, ?_, fun p k i hk hki => ?_⟩
      · rw [encodePass_instr (labelDef_instr hl hi), assembleLine_body hl hi₀ hwf₀, hpass]
        rfl
      · cases p with
        | zero => cases hk; exact hi₀.symm.trans hki
        | succ p =>
          rw [hshift] at hki
          rw [wordsBefore_instr hi]
          exact his p k i hk hki

/-- No label of a loadable program has an address that wraps. -/
theorem toNat_labelWord {ls : List SourceLine} (h256 : wordsBefore ls ls.length ≤ 256) (q : Nat) :
    (BitVec.ofNat 16 (128 + 2 * wordsBefore ls q)).toNat = 128 + 2 * wordsBefore ls q := by
  have := wordsBefore_le ls q
  rw [BitVec.toNat_ofNat, Nat.mod_eq_of_lt (by omega)]

/-- A source of the written form with at most 256 instructions assembles, each line to its instruction. -/
theorem assembleInstrs_sourceText (policy : OffsetPolicy) {ls : List SourceLine} (hok : ∀ l, l ∈ ls → l.ok)
    (hdistinct : (labelNames ls).Nodup)
    (hjumps : ∀ l, l ∈ ls → ∀ m name, l.item = .jump m name → name ∈ labelNames ls)
    (h256 : wordsBefore ls ls.length ≤ 256) :
    ∃ t is, assembleInstrs policy (sourceText ls) = .ok is ∧ is.length = wordsBefore ls ls.length ∧
      (∀ (q : Nat) (l : SourceLine) (name : List Char), ls[q]? = some l → l.item = .label name →
        t.find name = some (BitVec.ofNat 16 (128 + 2 * wordsBefore ls q))) ∧
      ∀ (p : Nat) (l : SourceLine) (i : Instr), ls[p]? = some l →
        instrAt t (128 + 2 * wordsBefore ls p) l.item = some i → is[wordsBefore ls p]? = some i := by
  obtain ⟨t, hscan, -, hlabel⟩ := labelScan_bodies (a := 128) (t := []) hok hdistinct (fun _ _ => rfl) (by omega)
  have hmean : ∀ (p : Nat) (l : SourceLine), ls[p]? = some l → (∀ name, l.item ≠ .label name) →
      ∃ i, instrAt t (128 + 2 * wordsBefore ls p) l.item = some i ∧ i.wf = true := by
    intro p l hp hi
    have hmem := List.mem_of_getElem? hp
    have hlast := wordsBefore_lt hp hi
    cases hl : l.item with
    | label name => exact absurd hl (hi name)
    | plain i => exact ⟨i, rfl, (plain_of_ok (hok l hmem) hl).1⟩
    | jump m name =>
      obtain ⟨q, k, hq, hk⟩ := exists_of_mem_labelNames (hjumps l hmem m name hl)
      have htarget := toNat_labelWord h256 q
      have hle := wordsBefore_le ls q
      refine ⟨_, by rw [instrAt, hlabel q k name hq hk]; rfl, (Laws.wf_instr ..).mpr ⟨fun _ => rfl, fun _ => ?_⟩⟩
      exact jumpOffset_inRange (by omega) (by omega) (by omega) (by omega)
  obtain ⟨is, hpass, his⟩ := encodePass_bodies policy hok hmean
  have hlen := encodePass_length hpass
  rw [instrLines_bodies hok] at hlen
  rw [← filteredLines_sourceText hok] at hscan hpass
  exact ⟨t, is, assembleInstrs_eq_ok.mpr ⟨t, hscan, hpass⟩, hlen, hlabel, his⟩

end Sys2Proof.Machine

namespace Sys2Proof.Proofs

open Sys2Proof.Machine Sys2Proof.Claims

/-- Settles O58: the output is the text of what the two passes give, and they read the written form line by line. -/
theorem assemblerEmitsFourDigitsPerWord : Obligations.AssemblerEmitsFourDigitsPerWord := by
  constructor
  · intro policy src out h
    rw [assemble_eq] at h
    cases his : assembleInstrs policy src.toList with
    | error e => rw [his] at h; cases h
    | ok is =>
      rw [his] at h
      cases h
      refine ⟨is, rfl, assembleInstrs_wf his, ?_⟩
      rw [String.toList_ofList]
      exact ⟨hexText_length is, hexText_digits is, hexGroups_hexText is⟩
  · intro policy ls hok hdistinct hjumps h256
    obtain ⟨t, is, hasm, hlen, hlabel, his⟩ := assembleInstrs_sourceText policy hok hdistinct hjumps h256
    refine ⟨is, hasm, by rw [assemble_eq, String.toList_ofList, hasm]; rfl, hlen, fun p l hp => ⟨?plain, ?jump⟩⟩
    case plain =>
      intro i hi
      exact his p l i hp (by rw [hi]; rfl)
    case jump =>
      intro m name hi q k hq hk
      refine his p l _ hp ?_
      rw [hi, instrAt, hlabel q k name hq hk, Option.map_some, jumpOffset, toNat_labelWord h256]
      push_cast
      rfl

end Sys2Proof.Proofs

/-! ## Which statuses a step starts from, and how it ends (R133, R135) -/

namespace Sys2Proof.Machine

theorem Status.stopped_eq_fault (st : Status) (k : Fault) :
    st.stopped = some (.fault k) ↔ st = .terminalFailure k := by
  cases st <;> simp [Status.stopped]

theorem Status.stopped_eq_refused (st : Status) (r : Refusal) :
    st.stopped = some (.refused r) ↔ st = .terminalSuccess ∧ r = .halted := by
  cases st <;> simp [Status.stopped, eq_comm]

theorem Status.enabled_eq_false {st : Status} : st.enabled = false ↔ ∃ o, st.stopped = some o := by
  rw [Status.enabled, Option.isNone_eq_false_iff, Option.isSome_iff_exists]

theorem step_of_stopped {s : State} {o : StepOutcome} (h : s.status.stopped = some o) : step s = o := by
  simp only [step, h]

theorem run_of_stopped {s : State} {o : StepOutcome} (h : s.status.stopped = some o) : run s = o := by
  simp only [run, runWith, h]

theorem step_eq_next_iff (s : State) : (∃ t, step s = .next t) ↔ s.status.stopped = none :=
  ⟨fun ⟨_, h⟩ => (step_cases h).1, step_total s⟩

/-- An answer that is no next state is the stop of a terminal status (R135). -/
theorem step_eq_stop_iff {s : State} {o : StepOutcome} (ho : ∀ t, o ≠ .next t) :
    step s = o ↔ s.status.stopped = some o := by
  refine ⟨fun h => ?_, step_of_stopped⟩
  cases hst : s.status.stopped with
  | none =>
    obtain ⟨t, ht⟩ := step_total s hst
    exact absurd (h.symm.trans ht) (ho t)
  | some o' => rw [← h, step_of_stopped hst]

/-- The host finds the state unchanged where there is no transition (R135, D14). -/
theorem hostStatus_of_stopped {s : State} {o : StepOutcome} (h : s.status.stopped = some o) :
    hostStatus s o = (s, .status s.status.returned) := by
  cases o with
  | next t => exact absurd rfl (Status.stopped_ne_next _ _ h t)
  | fault _ | refused _ => rfl

theorem hostApply_step (s : State) : hostApply false .step s = .ok (hostStatus s (step s)) := rfl

theorem hostApply_run (s : State) : hostApply false .run s = .ok (hostStatus s (run s)) := rfl

/-- The state a host write leaves, whatever it returns (R263). -/
theorem hostApply_write {w : HostWrite} {s t : State} {r : HostReply}
    (h : hostApply false (.write w) s = .ok (t, r)) : t = w.apply s := by
  cases w <;> cases h <;> rfl

/-- Load leaves the status as it is, whatever it answers (R292). -/
theorem load_status (hex : String) (s : State) : (load hex s).2.status = s.status := by
  unfold load loadChars
  split
  · rfl
  · split
    · rfl
    · split <;> rfl

/-- Of the host's writes only reset changes the status (R256, R263). -/
theorem HostWrite.apply_status {w : HostWrite} (h : w ≠ .reset) (s : State) : (w.apply s).status = s.status := by
  cases w with
  | reset => exact absurd rfl h
  | load hex => exact load_status hex s
  | setPause _ | appendInput _ => rfl

/-- No address check raises the run controller's fault (R53, R54). -/
theorem checkWord_ne_stepLimitExceeded (a : Word) : checkWord a ≠ some .stepLimitExceeded := by
  obtain h | h | h := checkWord_cases a <;> simp [h]

theorem checkByte_ne_stepLimitExceeded (a : Word) : checkByte a ≠ some .stepLimitExceeded := by
  obtain h | h := checkByte_cases a <;> simp [h]

theorem AccessFails.ne_stepLimitExceeded {i : Instr} {s : State} {k : Fault} (h : AccessFails i s k) :
    k ≠ .stepLimitExceeded := by
  rintro rfl
  obtain ⟨_, _, -, hc⟩ | ⟨_, _, -, hc⟩ | ⟨_, -, hc⟩ := h
  · exact checkWord_ne_stepLimitExceeded _ hc
  · exact checkByte_ne_stepLimitExceeded _ hc
  · exact checkWord_ne_stepLimitExceeded _ hc

/-- How an instruction ends (R133): it completes, it is BREAK or HALT, or it raises a fault of its own access,
with PC as it was. -/
theorem exec_outcome {i : Instr} {s t : State} (h : exec i s = .next t) :
    t.status = .ready ∨ (t.status = .breakpoint ∧ i = .brk) ∨ (t.status = .terminalSuccess ∧ i = .halt) ∨
      ∃ k, t.status = .terminalFailure k ∧ k ≠ .stepLimitExceeded ∧ t.pc = s.pc := by
  cases exec_effect h with
  | halt hi e => subst e; exact .inr (.inr (.inl ⟨rfl, hi⟩))
  | brk hi e => subst e; exact .inr (.inl ⟨rfl, hi⟩)
  | popFault _ _ k hc e =>
    subst e
    refine .inr (.inr (.inr ⟨k, rfl, ?_, by simp [State.pc_eq]⟩))
    rintro rfl
    exact checkWord_ne_stepLimitExceeded _ hc
  | accessFault k _ hf e => subst e; exact .inr (.inr (.inr ⟨k, rfl, hf.ne_stepLimitExceeded, rfl⟩))
  | jump _ _ _ _ _ _ e => obtain ⟨-, rfl⟩ | ⟨-, rfl⟩ := e <;> exact .inl rfl
  | register _ _ _ _ _ _ _ e | result _ _ _ _ _ _ _ e | cmp _ _ _ e => subst e; exact .inl rfl
  | push _ _ _ e | pop _ _ _ _ _ e | print _ _ _ e => subst e; exact .inl rfl
  | readEmpty _ _ _ _ e | readCode _ _ _ _ _ _ e => subst e; exact .inl rfl
  | storeWord _ _ _ _ e | storeByte _ _ _ _ e => subst e; exact .inl rfl

/-! ## What an instruction does to PC (R136) -/

theorem exec_pc_of_fault {i : Instr} {s t : State} {k : Fault} (h : exec i s = .next t)
    (hk : t.status = .terminalFailure k) : t.pc = s.pc := by
  obtain hst | ⟨hst, -⟩ | ⟨hst, -⟩ | ⟨_, -, -, hpc⟩ := exec_outcome h
  case inr.inr.inr => exact hpc
  all_goals rw [hst] at hk; cases hk

/-- An instruction that neither jumps nor has PC as its destination leaves PC alone: the stack writes SP, a flag
update ST. -/
theorem exec_pc_of_no_write {i : Instr} {s t : State} (h : exec i s = .next t) (hd : destination i ≠ some pcIndex)
    (hj : jumpOf i = none) : t.pc = s.pc := by
  cases exec_effect h with
  | halt _ e | brk _ e | print _ _ _ e | accessFault _ _ _ e => subst e; rfl
  | readEmpty _ _ _ _ e | readCode _ _ _ _ _ _ e | storeWord _ _ _ _ e | storeByte _ _ _ _ e => subst e; rfl
  | register r _ hr _ _ _ _ e | result r _ hr _ _ _ _ e =>
    have hne : r ≠ pcIndex := fun hrj => hd (hrj ▸ hr)
    simp [e, State.pc_eq, hne]
  | cmp _ _ _ e | push _ _ _ e | popFault _ _ _ _ e => simp [e, State.pc_eq]
  | pop r hi _ _ _ e =>
    have hne : r ≠ pcIndex := fun hrj => hd (by rw [hi, ← hrj]; rfl)
    simp [e, State.pc_eq, hne]
  | jump _ _ hjump => rw [hj] at hjump; cases hjump

/-- A jump goes to its target where its condition holds, and leaves PC alone elsewhere (R230). -/
theorem exec_pc_of_jump {i : Instr} {s t : State} {c : JumpCond} {off : Int} (h : exec i s = .next t)
    (hj : jumpOf i = some (c, off)) : t.pc = if c.holds s.z s.s then jumpTarget s.pc off else s.pc := by
  rw [exec_of_jumpOf hj] at h
  obtain ⟨hc, rfl⟩ | ⟨hc, rfl⟩ := State.jumpIf_next h <;> simp [hc, State.pc_eq]

theorem exec_writtenValue_pc {i : Instr} {s t : State} (h : exec i s = .next t) (hd : destination i = some pcIndex)
    (hok : ∀ k, t.status ≠ .terminalFailure k) : writtenValue i s = some t.pc := by
  obtain ⟨-, hv, -⟩ | ⟨k, -, hk⟩ := exec_destination h hd stIndex_ne_pcIndex
  · exact hv
  · exact absurd hk (hok k)

/-! ## The state past the pc advance, and the first words -/

@[simp] theorem State.advancePc_z (s : State) : s.advancePc.z = s.z := by simp [State.z, State.st_eq]
@[simp] theorem State.advancePc_s (s : State) : s.advancePc.s = s.s := by simp [State.s, State.st_eq]
@[simp] theorem State.beginStep_z (s : State) : s.beginStep.z = s.z := rfl
@[simp] theorem State.beginStep_s (s : State) : s.beginStep.s = s.s := rfl

/-- A fetch that faults ends the step before PC moves (R130). -/
theorem step_of_fetch_fault {s : State} {k : Fault} (hrun : s.status.stopped = none) (hk : s.fetch = .error k) :
    step s = raise k s.beginStep := by
  simp only [step, hrun, State.beginStep_fetch, hk]

/-- Every word with opcode 0 is HALT, whatever its other bits (R95, D7). -/
theorem decodeWord_of_lt_0x0400 {w : Word} (h : w.toNat < 0x0400) : decodeWord w = .ok .halt := by
  refine Laws.decodeWord_eq_ok.mpr ⟨BitVec.eq_of_toNat_eq ?_, rfl⟩
  rw [Laws.opField_toNat]
  simp only [Instr.mnemonic, Mnemonic.opcode, BitVec.reduceToNat]
  omega

end Sys2Proof.Machine

/-! ## The statements of 40_engine_system.md settled -/

namespace Sys2Proof.Proofs

open Sys2Proof.Machine Sys2Proof.Claims

/-- Settles O11: a step answers a next state, or the stop of its status. -/
theorem stepEnabledUnlessTerminal : Obligations.StepEnabledUnlessTerminal := fun s =>
  ⟨(step_eq_next_iff s).trans s.status.stopped_eq_none,
    fun k => (step_eq_stop_iff (o := .fault k) nofun).trans (s.status.stopped_eq_fault k),
    fun r => (step_eq_stop_iff (o := .refused r) nofun).trans (s.status.stopped_eq_refused r)⟩

/-- Settles O12: the fetch and the decoder raise faults of their own, and the other ends are the instruction's. -/
theorem stepOutcomesAreFour : Obligations.StepOutcomesAreFour := by
  intro s t h
  obtain ⟨-, ⟨k, hk, rfl⟩ | ⟨-, ⟨e, -, rfl⟩ | ⟨i, hi, hx⟩⟩⟩ := step_cases h
  · exact .inr (.inr (.inr ⟨k, rfl, fun e => checkWord_ne_stepLimitExceeded _ (e ▸ hk)⟩))
  · exact .inr (.inr (.inr ⟨.badOpcode, rfl, nofun⟩))
  · rw [hi]
    obtain hready | ⟨hbrk, rfl⟩ | ⟨hhalt, rfl⟩ | ⟨k, hk, hne, -⟩ := exec_outcome hx
    · exact .inl hready
    · exact .inr (.inl ⟨hbrk, rfl⟩)
    · exact .inr (.inr (.inl ⟨hhalt, rfl⟩))
    · exact .inr (.inr (.inr ⟨k, hk, hne⟩))

/-- Settles O13: past the fetch PC is advanced, and what the instruction does to it is read off its effect. -/
theorem nextPcCases : Obligations.NextPcCases := by
  intro s t h
  obtain ⟨-, ⟨k, hk, rfl⟩ | ⟨hck, ⟨e, he, rfl⟩ | ⟨i, hi, hx⟩⟩⟩ := step_cases h
  case inl => exact ⟨fun _ => rfl, fun hck => by rw [hk] at hck; cases hck⟩
  all_goals refine ⟨fun hne => absurd hck hne, fun _ => ?_⟩
  case inr.inl =>
    refine ⟨fun _ => by simp, fun i hi => ?_⟩
    rw [he] at hi
    cases hi
  case inr.inr =>
    have hadv : s.beginStep.advancePc.pc = s.pc + 2 := by simp
    refine ⟨fun ⟨k, hk⟩ => (exec_pc_of_fault hx hk).trans hadv, fun i' hi' => ?_⟩
    obtain rfl : i = i' := Except.ok.inj (hi.symm.trans hi')
    refine ⟨fun hd hj => (exec_pc_of_no_write hx hd hj).trans hadv, fun c off hj => ?_, fun hd hok => ?_⟩
    · simpa using exec_pc_of_jump hx hj
    · rw [← exec_writtenValue_pc hx hd hok]
      exact writtenValue_congr i (fun _ => by simp) rfl

/-- Settles O54: a step or a run answers the stop of the status, and no write but reset changes the status. -/
theorem terminalStatusStaysUntilReset : Obligations.TerminalStatusStaysUntilReset := by
  intro s hs
  obtain ⟨o, ho⟩ := Status.enabled_eq_false.mp hs
  have hstep : hostApply false .step s = .ok (s, .status s.status.returned) := by
    rw [hostApply_step, step_of_stopped ho, hostStatus_of_stopped ho]
  have hrun : hostApply false .run s = .ok (s, .status s.status.returned) := by
    rw [hostApply_run, run_of_stopped ho, hostStatus_of_stopped ho]
  refine ⟨hstep, hrun, fun op t r hop h => ?_⟩
  cases op with
  | write w => rw [hostApply_write h, HostWrite.apply_status (fun e => hop (e ▸ rfl))]
  | step => rw [hstep] at h; cases h; rfl
  | run => rw [hrun] at h; cases h; rfl
  | readOutput => cases h; rfl

/-- A status latch is no register, no byte of memory and no device. -/
theorem onlyRegs_latch (s : State) (st : Status) : OnlyRegs [] s (s.latch st) :=
  ⟨fun _ _ => rfl, fun _ => rfl, rfl, rfl, rfl⟩

theorem onlyRegs_advancePc (s : State) : OnlyRegs [pcIndex] s s.beginStep.advancePc := by
  refine ⟨fun r hr => ?_, fun _ => rfl, rfl, rfl, rfl⟩
  have hne : pcIndex ≠ r := fun e => hr (e ▸ List.mem_singleton_self _)
  simp [hne]

/-- Settles O8: the state past the pc advance has a fresh event channel and differs in PC only. -/
theorem stepRunsDecodedInstruction : Obligations.StepRunsDecodedInstruction := fun s _ hf hi =>
  ⟨Laws.decodeWord_wf hi, s.beginStep.advancePc, step_of_fetches hf hi, advancePc_pc_toNat hf, onlyRegs_advancePc s,
    rfl, rfl⟩

/-- Settles O9: the fetch is the word check of PC, and a failed one ends the step before PC moves. -/
theorem fetchChecksThenReads : Obligations.FetchChecksThenReads := by
  refine fun s => ⟨fun h => ?bounds, fun h hodd => ?alignment, fun h => ?reads, fun k hen hk => ?fault⟩
  case bounds => exact State.fetch_of_fault ((checkWord_eq_bounds _).mpr h)
  case alignment => exact State.fetch_of_fault ((checkWord_eq_alignment _).mpr ⟨h, hodd⟩)
  case reads => exact ⟨_, State.fetch_of_ok ((checkWord_eq_none _).mpr h), wordOfBytes_toNat _ _⟩
  case fault =>
    exact ⟨_, step_of_fetch_fault (Option.isNone_iff_eq_none.mp hen) hk, rfl, onlyRegs_latch s.beginStep _, rfl⟩

/-- Settles O15: a word below 0x0400 decodes to HALT, and the status it latches is terminal. -/
theorem haltEndsTheRun : Obligations.HaltEndsTheRun := by
  refine ⟨fun s => ⟨_, rfl, rfl, onlyRegs_latch s _, rfl⟩, rfl, fun s hf h => ?_⟩
  refine ⟨_, step_of_fetches hf (decodeWord_of_lt_0x0400 h), rfl, advancePc_pc_toNat hf, onlyRegs_advancePc s,
    fun u hu => ?_⟩
  obtain ⟨hrun, -⟩ := step_cases hu
  cases hrun

/-- Settles O16: Breakpoint is a status a step starts from. -/
theorem breakSuspends : Obligations.BreakSuspends := fun s =>
  ⟨_, rfl, rfl, onlyRegs_latch s _, rfl, step_total _ rfl⟩

end Sys2Proof.Proofs

/-! ## What the functions of the ALU compute, and the flag update (R89, R160 to R163) -/

namespace Sys2Proof.Machine

theorem immWord_toNat (imm : Int) : ((immWord imm).toNat : Int) = imm % 65536 := by
  rw [immWord, BitVec.toNat_ofInt]
  omega

/-- Above its four low bits a sign-extended immediate is all sign (R89): a negative one is the complement of a number
below 16. -/
theorem immWord_bit_high {imm : Int} (hlo : -16 ≤ imm) (hhi : imm ≤ 15) {b : Nat} (hb : 4 ≤ b) (hb' : b < 16) :
    (immWord imm).getLsbD b = decide (imm < 0) := by
  have small {n : Nat} (hn : n < 16) : n.testBit b = false :=
    Nat.testBit_lt_two_pow (hn.trans_le (Nat.pow_le_pow_right (n := 2) (by decide) hb))
  cases imm with
  | ofNat n =>
    rw [Int.ofNat_eq_natCast] at hhi ⊢
    rw [immWord, BitVec.ofInt_natCast, BitVec.getLsbD_ofNat, small (by omega)]
    simp
  | negSucc n =>
    rw [immWord, BitVec.ofInt_negSucc_eq_not_ofNat, BitVec.getLsbD_not, BitVec.getLsbD_ofNat, small (by omega)]
    simp [hb', Int.negSucc_lt_zero]

theorem aluSub_toNat (a b : Word) : ((aluSub a b).toNat : Int) = ((a.toNat : Int) - b.toNat) % 65536 := by
  rw [aluSub, BitVec.toNat_sub]
  omega

theorem aluShift_of_lt (op : ShiftOp) (a : Word) {n : Word} (h : n.toNat < 16) :
    aluShift op a n = shiftWithin op a n.toNat :=
  if_pos h

theorem aluShift_of_ge (op : ShiftOp) (a : Word) {n : Word} (h : 16 ≤ n.toNat) :
    aluShift op a n = shiftOverflow op a n :=
  if_neg (Nat.not_lt.mpr h)

/-- The sign fill of SRS is bit 15, repeated (R163, D9). -/
theorem shiftOverflow_srs_toInt (a n : Word) :
    (shiftOverflow .srs a n).toInt = if a.toInt < 0 then -1 else 0 := by
  have hsign : a.getLsbD 15 = decide (a.toInt < 0) := by rw [← BitVec.msb_eq_toInt, BitVec.msb_eq_getLsbD_last]
  rw [shiftOverflow, hsign]
  by_cases h : a.toInt < 0 <;> simp [h]

/-- A flag update keeps the other 14 bits of ST (R160, R174). -/
theorem State.setFlags_st_bit_kept (s : State) (z sg : Bool) {b : Nat} (hb : b < 16) (hz : b ≠ zBit) (hs : b ≠ sBit) :
    (s.setFlags z sg).st.getLsbD b = s.st.getLsbD b := by
  rw [State.st_eq, State.setFlags_reg, if_pos rfl, withFlags_bit _ _ _ _ hb, if_neg hz, if_neg hs]

end Sys2Proof.Machine

/-! ## The statements of 41_alu_register.md settled -/

namespace Sys2Proof.Proofs

open Sys2Proof.Machine Sys2Proof.Claims

/-- A write to a register of `rs` leaves the others, the memory and the devices. -/
theorem onlyRegs_writeReg {rs : List Reg} {s t : State} (h : OnlyRegs rs s t) {r : Reg} (hr : r ∈ rs) (v : Word) :
    OnlyRegs rs s (t.writeReg r v) := by
  obtain ⟨hregs, hrest⟩ := h
  refine ⟨fun j hj => ?_, hrest⟩
  rw [State.writeReg_reg, if_neg (ne_of_mem_of_not_mem hr hj)]
  exact hregs j hj

theorem onlyRegs_refl (rs : List Reg) (s : State) : OnlyRegs rs s s :=
  ⟨fun _ _ => rfl, fun _ => rfl, rfl, rfl, rfl⟩

/-- An instruction that ends in one register write completes; a flag update is such a write, to ST. -/
theorem completes_writeReg (s : State) (rd : Reg) (v : Word) :
    Completes (complete (s.writeReg rd v)) s ((s.writeReg rd v).latch .ready) [rd] [.registerChanged rd] :=
  ⟨rfl, rfl, onlyRegs_writeReg (onlyRegs_refl _ s) List.mem_cons_self v, rfl⟩

/-- The end of an ALU instruction writes its result, then the flags, which replace two bits of ST: of the result's, where
the destination is ST (R160, D18). -/
theorem completesWithResult_writeResult (s : State) (rd : Reg) (r : Word) :
    CompletesWithResult (s.writeResult rd r) s rd r := by
  have hframe : OnlyRegs [rd, stIndex] s ((s.writeReg rd r).setZS r) :=
    onlyRegs_writeReg (onlyRegs_writeReg (onlyRegs_refl _ s) (by simp) _) (by simp) _
  refine ⟨((s.writeReg rd r).setZS r).latch .ready, ⟨rfl, rfl, hframe, by simp⟩, fun hst => ?result, ?z, ?s,
    fun b hb hz hs => ?kept⟩
  case result => simp [hst.symm]
  case z => rw [State.latch_z, State.setZS_z, zeroFlag_eq]
  case s => rw [State.latch_s, State.setZS_s, signFlag_eq]
  case kept =>
    rw [State.latch_st, State.setZS, State.setFlags_st_bit_kept _ _ _ hb hz hs]
    rw [State.st_eq, State.writeReg_reg, State.st_eq]

/-- Settles O17: each is one register write, and a complement is the distance from 2^16 - 1. -/
theorem notAndMovKeepFlags : Obligations.NotAndMovKeepFlags := by
  refine fun s rd rs => ⟨⟨_, completes_writeReg s rd _, ?_⟩, ⟨_, completes_writeReg s rd _, by simp⟩⟩
  simp [aluNot, BitVec.toNat_not]

/-- Settles O19: word addition is modulo 2^16, and an immediate is congruent to its word. -/
theorem addWraps : Obligations.AddWraps := by
  refine fun s rd rs imm => ⟨⟨_, BitVec.toNat_add _ _, completesWithResult_writeResult s rd _⟩,
    ⟨_, ?_, completesWithResult_writeResult s rd _⟩⟩
  have himm := immWord_toNat imm
  rw [aluAdd, BitVec.toNat_add]
  omega

/-- Settles O20: word subtraction is modulo 2^16, and an immediate is congruent to its word. -/
theorem subWraps : Obligations.SubWraps := by
  refine fun s rd rs imm => ⟨⟨_, aluSub_toNat _ _, completesWithResult_writeResult s rd _⟩,
    ⟨_, ?_, completesWithResult_writeResult s rd _⟩⟩
  rw [aluSub_toNat, immWord_toNat, Int.sub_emod_emod]

/-- Settles O21: a register and an immediate meet the same three functions, which work bit by bit. -/
theorem logicIsBitwise : Obligations.LogicIsBitwise := by
  refine fun s rd rs imm => ⟨⟨?and, ?or, ?xor⟩, fun hlo hhi =>
    ⟨immWord imm, immWord_toNat imm, fun b => immWord_bit_high hlo hhi, ?andi, ?ori, ?xori⟩⟩
  case and | andi => exact ⟨_, fun _ _ => BitVec.getLsbD_and, completesWithResult_writeResult s rd _⟩
  case or | ori => exact ⟨_, fun _ _ => BitVec.getLsbD_or, completesWithResult_writeResult s rd _⟩
  case xor | xori => exact ⟨_, fun _ _ => BitVec.getLsbD_xor, completesWithResult_writeResult s rd _⟩

/-- Settles O22: a left shift below 16 multiplies by a power of two, and the default from 16 on is 0. -/
theorem shiftLeftMultiplies : Obligations.ShiftLeftMultiplies := by
  refine fun s rd rs => ⟨_, completesWithResult_writeResult s rd _, fun h => ?within, fun h => ?overflow⟩
  case within => rw [aluShift_of_lt _ _ h, shiftWithin, BitVec.toNat_shiftLeft, Nat.shiftLeft_eq]
  case overflow => rw [aluShift_of_ge _ _ h]; rfl

/-- Settles O23: a right shift below 16 divides by a power of two, and the default from 16 on is 0. -/
theorem shiftRightDivides : Obligations.ShiftRightDivides := by
  refine fun s rd rs => ⟨_, completesWithResult_writeResult s rd _, fun h => ?within, fun h => ?overflow⟩
  case within => rw [aluShift_of_lt _ _ h, shiftWithin, BitVec.toNat_ushiftRight, Nat.shiftRight_eq_div_pow]
  case overflow => rw [aluShift_of_ge _ _ h]; rfl

/-- Settles O24: an arithmetic shift shifts the signed value, which divides it rounding down, and the default from 16 on
is the sign fill. -/
theorem shiftRightSignedDivides : Obligations.ShiftRightSignedDivides := by
  refine fun s rd rs => ⟨_, completesWithResult_writeResult s rd _, fun h => ?within, fun h => ?overflow⟩
  case within =>
    rw [aluShift_of_lt _ _ h, shiftWithin, BitVec.toInt_sshiftRight, Int.shiftRight_eq_div_pow,
      Int.fdiv_eq_ediv_of_nonneg _ (by positivity)]
    norm_cast
  case overflow => rw [aluShift_of_ge _ _ h, shiftOverflow_srs_toInt]

/-- Settles O25: CMP is one flag update, by the two comparisons. -/
theorem cmpComparesUnsigned : Obligations.CmpComparesUnsigned := by
  refine fun s rd rs => ⟨_, completes_writeReg s stIndex _, ?z, ?s, fun b => State.setFlags_st_bit_kept s _ _⟩
  case z => exact (State.setFlags_z s _ _).trans (by simp only [cmpZero_eq, BitVec.toNat_inj])
  case s => exact State.setFlags_s s _ _

end Sys2Proof.Proofs

/-! ## The stack: PUSH and POP at a checked SP (R190, R191) -/

namespace Sys2Proof.Machine

/-- A failed word check raises MemoryBounds before MemoryAlignment (R53, D8). -/
theorem checkWord_of_not_wordAddress {a : Word} (h : 1022 < a.toNat ∨ a.toNat % 2 = 1) :
    checkWord a = some (if 1022 < a.toNat then .memoryBounds else .memoryAlignment) := by
  split
  · next hbounds => exact (checkWord_eq_bounds a).mpr hbounds
  · next hin => exact (checkWord_eq_alignment a).mpr ⟨by omega, by omega⟩

/-- Both bytes at a checked word address are in memory (R53). -/
theorem succ_lt_memSize_of_checkWord {a : Word} (h : checkWord a = none) : a.toNat + 1 < Config.memSize :=
  Nat.lt_succ_of_le (Nat.succ_le_succ ((checkWord_eq_none a).mp h).1)

/-- The SP that PUSH leaves, as a number (R190). -/
theorem sp_sub_two_toNat (s : State) : (s.sp - 2).toNat = (s.sp.toNat + 65534) % 65536 := by
  rw [BitVec.toNat_sub, Nat.add_comm]
  rfl

/-- The SP that POP checks and loads from, as a number (R191). -/
theorem sp_add_two_toNat (s : State) : (s.sp + 2).toNat = (s.sp.toNat + 2) % 65536 := BitVec.toNat_add _ _

/-! ### PUSH -/

/-- `s` past the store and the move of SP that PUSH makes (R190). -/
def State.pushed (s : State) (rd : Reg) : State := (s.storeWord s.sp.toNat (s.reg rd)).writeReg spIndex (s.sp - 2)

@[simp] theorem State.pushed_mem (s : State) (rd : Reg) :
    (s.pushed rd).mem = s.mem.writeWord s.sp.toNat (s.reg rd) := rfl

@[simp] theorem State.pushed_reg (s : State) (rd j : Reg) :
    (s.pushed rd).reg j = if spIndex = j then s.sp - 2 else s.reg j :=
  State.writeReg_reg _ _ _ _

@[simp] theorem State.pushed_sp (s : State) (rd : Reg) : (s.pushed rd).sp = s.sp - 2 := by simp [State.sp_eq]

theorem exec_push_of_ok {s : State} (rd : Reg) (h : checkWord s.sp = none) :
    exec (.push rd) s = complete (s.pushed rd) := by
  simp only [exec, execPush, withWordAt_ok h, State.pushed]

/-! ### POP -/

/-- POP is a word access at the moved SP, from the state in which SP has moved (R191). -/
theorem exec_pop (rd : Reg) (s : State) :
    exec (.pop rd) s = withWordAt (s.sp + 2) (s.writeReg spIndex (s.sp + 2)) fun a =>
      complete ((s.writeReg spIndex (s.sp + 2)).writeReg rd (s.mem.readWord a)) := by
  have hsp : (s.writeReg spIndex (s.sp + 2)).sp = s.sp + 2 := by simp [State.sp_eq]
  simp only [exec, execPop, hsp, State.writeReg_mem]

theorem exec_pop_of_ok {s : State} (rd : Reg) (h : checkWord (s.sp + 2) = none) :
    exec (.pop rd) s =
      complete ((s.writeReg spIndex (s.sp + 2)).writeReg rd (s.mem.readWord (s.sp + 2).toNat)) := by
  rw [exec_pop, withWordAt_ok h]

/-- The move of SP stays on a fault (R191, R253). -/
theorem exec_pop_of_fault {s : State} {k : Fault} (rd : Reg) (h : checkWord (s.sp + 2) = some k) :
    exec (.pop rd) s = raise k (s.writeReg spIndex (s.sp + 2)) := by
  rw [exec_pop, withWordAt_fault h]

/-- After a PUSH, POP moves SP back to the checked slot and loads the word stored there (R190, R191). -/
theorem exec_pop_pushed {s : State} (rd re : Reg) (hs : s.mem.wf) (h : checkWord s.sp = none) (st : Status) :
    exec (.pop re) ((s.pushed rd).latch st) =
      complete ((((s.pushed rd).latch st).writeReg spIndex s.sp).writeReg re (s.reg rd)) := by
  have hup : ((s.pushed rd).latch st).sp + 2 = s.sp := by
    rw [State.latch_sp, State.pushed_sp, BitVec.sub_add_cancel]
  rw [exec_pop_of_ok re (by rwa [hup]), hup, State.latch_mem, State.pushed_mem,
    Memory.readWord_writeWord _ hs _ _ (succ_lt_memSize_of_checkWord h)]

end Sys2Proof.Machine

/-! ## The statements of 42_stack.md settled -/

namespace Sys2Proof.Proofs

open Sys2Proof.Machine Sys2Proof.Claims

/-- PUSH writes no register but SP (R190). -/
theorem sameRegsBut_pushed (s : State) (rd : Reg) : SameRegsBut [spIndex] s (s.pushed rd) := by
  intro j hj
  have hne : spIndex ≠ j := Ne.symm (List.ne_of_not_mem_cons hj)
  rw [State.pushed_reg, if_neg hne]

/-- Settles O30: the POP loads the stored word from the slot that SP is back at. -/
theorem popUndoesPush : Obligations.PopUndoesPush := by
  intro s rd re hs hsp
  have hck := (checkWord_eq_none s.sp).mpr hsp
  refine ⟨_, _, exec_push_of_ok rd hck, exec_pop_pushed rd re hs hck .ready, rfl, ?value, fun hne => ?sp,
    fun j hj => ?frame, fun _ => rfl⟩
  case value => simp
  case sp => simp [State.sp_eq, hne]
  case frame =>
    obtain ⟨hsp', hre⟩ : spIndex ≠ j ∧ re ≠ j := by simpa [eq_comm] using hj
    simp [hsp', hre]

/-- Settles O27: PUSH is one word store at the checked SP and one write of SP. -/
theorem pushStoresThenDescends : Obligations.PushStoresThenDescends := by
  intro s rd hs hsp
  have hck := (checkWord_eq_none s.sp).mpr hsp
  have hbyte := Memory.read_writeWord s.mem hs s.sp.toNat (v := s.reg rd) (ha := succ_lt_memSize_of_checkWord hck)
  refine ⟨(s.pushed rd).latch .ready, ⟨exec_push_of_ok rd hck, rfl, sameRegsBut_pushed s rd, fun b hb => ?frame⟩,
    ⟨rfl, rfl, rfl⟩, ?high, ?low, ?sp, ?events⟩
  case frame => exact Memory.read_writeWord_ne hs _ (by omega) (by omega)
  case high => rw [State.latch_mem, State.pushed_mem, hbyte, if_pos rfl, highByte_toNat]
  case low => rw [State.latch_mem, State.pushed_mem, hbyte, if_neg (by omega), if_pos rfl, lowByte_toNat]
  case sp => rw [State.latch_sp, State.pushed_sp, sp_sub_two_toNat]
  case events => simp [State.pushed]

/-- Settles O28: POP writes the moved SP, then the loaded word, so the word is what stays where both go to SP. -/
theorem popAscendsThenLoads : Obligations.PopAscendsThenLoads := by
  intro s rd a ha hle heven
  obtain rfl := ha.trans (sp_add_two_toNat s).symm
  have hmove : OnlyRegs [spIndex, rd] s (s.writeReg spIndex (s.sp + 2)) :=
    onlyRegs_writeReg (onlyRegs_refl _ s) (by simp) _
  refine ⟨_, ⟨exec_pop_of_ok rd ((checkWord_eq_none _).mpr ⟨hle, heven⟩), rfl,
    onlyRegs_writeReg hmove (by simp) _, ?events⟩, ?loaded, fun hne => ?sp⟩
  case events => simp
  case loaded => rw [State.latch_reg, State.writeReg_reg, if_pos rfl, Memory.readWord, wordOfBytes_toNat]
  case sp => simp [State.sp_eq, hne]

/-- Settles O29: the check fails at the moved SP, and the fault is latched in the state in which SP has moved. -/
theorem popFaultKeepsMovedPointer : Obligations.PopFaultKeepsMovedPointer := by
  intro s rd a ha hbad
  obtain rfl := ha.trans (sp_add_two_toNat s).symm
  refine ⟨_, exec_pop_of_fault rd (checkWord_of_not_wordAddress hbad), rfl,
    onlyRegs_writeReg (onlyRegs_refl _ s) (by simp) _, ?sp⟩
  simp [State.sp_eq]

end Sys2Proof.Proofs

/-! ## The console: PRINT and READ at a checked address, and who reaches it (R200 to R202) -/

namespace Sys2Proof.Machine

theorem exec_print_of_ok {s : State} {rd : Reg} (h : checkByte (s.reg rd) = none) :
    exec (.print rd) s = complete (s.appendOutput (s.mem.read (s.reg rd).toNat)) := by
  simp only [exec, execPrint, withByteAt_ok h]

theorem exec_read_of_empty {s : State} {rd : Reg} (h : checkByte (s.reg rd) = none) (hq : s.inq = []) :
    exec (.read rd) s = complete (s.storeByte (s.reg rd).toNat 0) := by
  simp only [exec, execRead, withByteAt_ok h, hq]

theorem exec_read_of_cons {s : State} {rd : Reg} {c : Nat} {cs : List Nat} (h : checkByte (s.reg rd) = none)
    (hq : s.inq = c :: cs) :
    exec (.read rd) s = complete (s.takeInput.storeByte (s.reg rd).toNat (codeByte c)) := by
  simp only [exec, execRead, withByteAt_ok h, hq]

/-- What the buffer drops is at its old end: the byte appended stays (R200). -/
theorem keepRecent_append_getLast? (l : List Byte) (b : Byte) : (keepRecent (l ++ [b])).getLast? = some b := by
  simp [keepRecent, Config.outCap]

/-- A character code is stored modulo 256 (R201, D13). -/
theorem codeByte_toNat (c : Nat) : (codeByte c).toNat = c % 256 := BitVec.toNat_ofNat c 8

/-- An instruction keeps the output buffer unless it is a PRINT, and the input queue unless it is a READ (R202). -/
theorem exec_console {i : Instr} {s t : State} (h : exec i s = .next t) :
    (t.outbuf = s.outbuf ∨ ∃ rd, i = .print rd) ∧ (t.inq = s.inq ∨ ∃ rd, i = .read rd) := by
  cases exec_effect h with
  | print r hi _ e => subst e; exact ⟨.inr ⟨r, hi⟩, .inl rfl⟩
  | readCode r hi _ _ _ _ e => subst e; exact ⟨.inl rfl, .inr ⟨r, hi⟩⟩
  | jump _ _ _ _ _ _ e => obtain ⟨-, rfl⟩ | ⟨-, rfl⟩ := e <;> exact ⟨.inl rfl, .inl rfl⟩
  | halt _ e | brk _ e | cmp _ _ _ e | accessFault _ _ _ e => subst e; exact ⟨.inl rfl, .inl rfl⟩
  | register _ _ _ _ _ _ _ e | result _ _ _ _ _ _ _ e => subst e; exact ⟨.inl rfl, .inl rfl⟩
  | push _ _ _ e | pop _ _ _ _ _ e | popFault _ _ _ _ e => subst e; exact ⟨.inl rfl, .inl rfl⟩
  | readEmpty _ _ _ _ e | storeWord _ _ _ _ e | storeByte _ _ _ _ e => subst e; exact ⟨.inl rfl, .inl rfl⟩

end Sys2Proof.Machine

/-! ## The statements of 43_console.md settled -/

namespace Sys2Proof.Proofs

open Sys2Proof.Machine Sys2Proof.Claims

/-- Settles O33: a step that raises a fault of its own keeps both buffers, and any other ran the decoded instruction. -/
theorem consoleReachedOnlyByPrintAndRead : Obligations.ConsoleReachedOnlyByPrintAndRead := by
  intro s t h
  obtain ⟨-, ⟨k, -, rfl⟩ | ⟨-, ⟨e, -, rfl⟩ | ⟨i, hi, hx⟩⟩⟩ := step_cases h
  · exact ⟨fun hne => absurd rfl hne, fun hne => absurd rfl hne⟩
  · exact ⟨fun hne => absurd rfl hne, fun hne => absurd rfl hne⟩
  · rw [hi]
    obtain ⟨hout, hinq⟩ := exec_console hx
    refine ⟨fun hne => ?output, fun hne => ?input⟩
    case output => obtain ⟨rd, rfl⟩ := hout.resolve_left hne; exact ⟨rd, rfl⟩
    case input => obtain ⟨rd, rfl⟩ := hinq.resolve_left hne; exact ⟨rd, rfl⟩

/-- Settles O31: PRINT is one append of the byte at the checked address, and the buffer keeps the end of the result. -/
theorem printAppendsByte : Obligations.PrintAppendsByte := by
  intro s rd ha
  refine ⟨_, exec_print_of_ok ((checkByte_eq_none _).mpr (Nat.lt_succ_of_le ha)), rfl, fun _ _ => rfl, fun _ => rfl,
    rfl, rfl, rfl, ?kept, keepRecent_length _, keepRecent_append_getLast? _ _⟩
  case kept =>
    rw [State.latch_outbuf, State.appendOutput_outbuf, keepRecent_eq_drop, List.length_append, List.length_singleton]

/-- An instruction that ends in one byte store completes; before it, no more than the devices may differ from `s`. -/
theorem completesWithStore_storeByte {s u : State} (hs : s.mem.wf) (hreg : ∀ j, u.reg j = s.reg j)
    (hmem : u.mem = s.mem) (a : Nat) (v : Byte) :
    CompletesWithStore (complete (u.storeByte a v)) s ((u.storeByte a v).latch .ready) [] a 1 := by
  refine ⟨rfl, rfl, fun j _ => hreg j, fun b hb => ?_⟩
  rw [State.latch_mem, State.storeByte_mem, hmem]
  exact Memory.read_write_ne hs v (by omega)

/-- Settles O32: READ is one byte store at the checked address, of 0 or of the code it takes off the queue before. -/
theorem readStoresNextCode : Obligations.ReadStoresNextCode := by
  intro s rd hs ha
  have hck := (checkByte_eq_none (s.reg rd)).mpr (Nat.lt_succ_of_le ha)
  have stored (v : Byte) : (s.mem.write (s.reg rd).toNat v).read (s.reg rd).toNat = v := by
    rw [Memory.read_write _ hs _ _ _ (Nat.lt_succ_of_le ha), if_pos rfl]
  cases hq : s.inq with
  | nil =>
    rw [exec_read_of_empty hck hq]
    exact ⟨_, completesWithStore_storeByte hs (fun _ => rfl) rfl _ _, rfl, rfl, fun _ => ⟨stored _, hq, rfl⟩,
      nofun⟩
  | cons c cs =>
    rw [exec_read_of_cons hck hq]
    refine ⟨_, completesWithStore_storeByte (u := s.takeInput) hs (fun _ => rfl) rfl _ _, rfl, rfl, nofun, ?_⟩
    rintro _ _ ⟨⟩
    refine ⟨?code, ?queue, ?events⟩
    case code => exact (congrArg BitVec.toNat (stored _)).trans (codeByte_toNat c)
    case queue => exact congrArg List.tail hq
    case events => simp

end Sys2Proof.Proofs

/-! ## Loads and stores at a checked address (R211 to R214) -/

namespace Sys2Proof.Machine

theorem exec_sw_of_ok {s : State} {rd : Reg} (rs : Reg) (h : checkWord (s.reg rd) = none) :
    exec (.sw rd rs) s = complete (s.storeWord (s.reg rd).toNat (s.reg rs)) := by
  simp only [exec, execSw, withWordAt_ok h]

theorem exec_lw_of_ok {s : State} {rd : Reg} (rs : Reg) (h : checkWord (s.reg rd) = none) :
    exec (.lw rd rs) s = complete (s.writeReg rs (s.mem.readWord (s.reg rd).toNat)) := by
  simp only [exec, execLw, withWordAt_ok h]

theorem exec_sb_of_ok {s : State} {rd : Reg} (rs : Reg) (h : checkByte (s.reg rd) = none) :
    exec (.sb rd rs) s = complete (s.storeByte (s.reg rd).toNat (lowByte (s.reg rs))) := by
  simp only [exec, execSb, withByteAt_ok h]

theorem exec_lb_of_ok {s : State} {rd : Reg} (rs : Reg) (h : checkByte (s.reg rd) = none) :
    exec (.lb rd rs) s = complete (s.writeReg rs ((s.mem.read (s.reg rd).toNat).setWidth 16)) := by
  simp only [exec, execLb, withByteAt_ok h]

end Sys2Proof.Machine

/-! ## The statements of 44_load_store.md settled -/

namespace Sys2Proof.Proofs

open Sys2Proof.Machine Sys2Proof.Claims

/-- Settles O34: SW is one word store at the checked address, and a stored word is big-endian. -/
theorem storeWordWritesTwoBytes : Obligations.StoreWordWritesTwoBytes := by
  intro s rd rs hs ha
  have hck := (checkWord_eq_none (s.reg rd)).mpr ha
  obtain ⟨hhigh, hlow, -, -, hframe, -⟩ :=
    wordsAreBigEndian s.mem _ (s.reg rs) hs (succ_lt_memSize_of_checkWord hck)
  refine ⟨_, ⟨exec_sw_of_ok rs hck, rfl, fun _ _ => rfl, fun b hb => hframe b (by omega) (by omega)⟩,
    ⟨rfl, rfl, rfl⟩, hhigh, hlow, ?events⟩
  simp

/-- Settles O35: LW is one register write, of the word whose bytes stand at the checked address. -/
theorem loadWordReadsTwoBytes : Obligations.LoadWordReadsTwoBytes := by
  intro s rd rs ha
  rw [exec_lw_of_ok rs ((checkWord_eq_none _).mpr ha)]
  refine ⟨_, completes_writeReg s rs _, ?loaded⟩
  rw [State.latch_reg, State.writeReg_reg, if_pos rfl, Memory.readWord, wordOfBytes_toNat]

/-- Settles O36: SB is one byte store at the checked address, of the word's low byte. -/
theorem storeByteWritesLowByte : Obligations.StoreByteWritesLowByte := by
  intro s rd rs hs ha
  have hin : (s.reg rd).toNat < Config.memSize := Nat.lt_succ_of_le ha
  rw [exec_sb_of_ok rs ((checkByte_eq_none _).mpr hin)]
  refine ⟨_, completesWithStore_storeByte hs (fun _ => rfl) rfl _ _, ⟨rfl, rfl, rfl⟩, ?stored, rfl⟩
  rw [State.latch_mem, State.storeByte_mem, Memory.read_write _ hs _ _ _ hin, if_pos rfl, lowByte_toNat]

/-- Settles O37: LB is one register write, and a byte keeps its value in the wider word. -/
theorem loadByteZeroExtends : Obligations.LoadByteZeroExtends := by
  intro s rd rs ha
  rw [exec_lb_of_ok rs ((checkByte_eq_none _).mpr (Nat.lt_succ_of_le ha))]
  refine ⟨_, completes_writeReg s rs _, ?loaded⟩
  rw [State.latch_reg, State.writeReg_reg, if_pos rfl]
  exact BitVec.toNat_setWidth_of_le (by decide)

end Sys2Proof.Proofs

/-! ## Which words can be fetched from, and the values of immediates (R53, R89, R130) -/

namespace Sys2Proof.Machine

/-- The fetch answers a word exactly where PC is a word address. -/
theorem State.fetch_ok_iff (s : State) : (∃ w, s.fetch = .ok w) ↔ s.pc.toNat ≤ 1022 ∧ s.pc.toNat % 2 = 0 := by
  rw [← checkWord_eq_none]
  cases hck : checkWord s.pc with
  | none => simp [State.fetch_of_ok hck]
  | some k => simp [State.fetch_of_fault hck]

/-- A 5-bit immediate is itself as a word, or 2^16 above itself where it is negative. -/
theorem immWord_toNat_of_range {imm : Int} (hlo : -16 ≤ imm) (hhi : imm ≤ 15) :
    ((immWord imm).toNat : Int) = if imm < 0 then imm + 65536 else imm := by
  rw [immWord_toNat]
  split <;> omega

/-- A negative immediate is a word above the memory, so only the even ones in [0, 14] are word addresses. -/
theorem immWord_wordAddress {imm : Int} (hlo : -16 ≤ imm) (hhi : imm ≤ 15) :
    ((immWord imm).toNat ≤ 1022 ∧ (immWord imm).toNat % 2 = 0) ↔ 0 ≤ imm ∧ imm ≤ 14 ∧ imm % 2 = 0 := by
  have himm := immWord_toNat_of_range hlo hhi
  split at himm <;> omega

end Sys2Proof.Machine

/-! ## The statements of 45_alu_immediate.md settled -/

namespace Sys2Proof.Proofs

open Sys2Proof.Machine Sys2Proof.Claims

/-- Settles O18: MOVI is one register write, and a fetch after it into PC checks the sign-extended immediate. -/
theorem moviWritesImmediate : Obligations.MoviWritesImmediate := by
  refine fun s rd imm hlo hhi => ⟨?written, Laws.packI_toNat Mnemonic.movi.opcode rd imm, fun t ht => ?fetch⟩
  case written =>
    obtain ⟨hexec, hready, hframe, -⟩ := completes_writeReg s rd (immWord imm)
    refine ⟨_, hexec, hready, hframe, ?_⟩
    rw [State.latch_reg, State.writeReg_reg, if_pos rfl, immWord_toNat_of_range hlo hhi]
  case fetch =>
    have hpc : t.pc = immWord imm := by
      rw [(complete_eq_next _ t).mp ht, State.latch_pc, State.pc_eq, State.writeReg_reg, if_pos rfl]
    rw [State.fetch_ok_iff, hpc, immWord_wordAddress hlo hhi]

end Sys2Proof.Proofs

/-! ## Where a jump goes, and the flags a comparison leaves for it (R174, R230) -/

namespace Sys2Proof.Machine

theorem jumpTarget_toNat (pc : Word) (off : Int) :
    ((jumpTarget pc off).toNat : Int) = ((pc.toNat : Int) + off) % 65536 := by
  rw [jumpTarget, offWord, BitVec.toNat_add, BitVec.toNat_ofInt]
  omega

/-- CMP leaves in Z whether its operands are equal, and in S whether dest is below src (R174, D6). -/
theorem exec_cmp_flags {s t : State} {rd rs : Reg} (h : exec (.cmp rd rs) s = .next t) :
    t.z = decide (s.reg rd = s.reg rs) ∧ t.s = decide ((s.reg rd).toNat < (s.reg rs).toNat) := by
  rw [(complete_eq_next _ t).mp h, State.latch_z, State.latch_s, State.setFlags_z, State.setFlags_s]
  exact ⟨cmpZero_eq _ _, rfl⟩

/-- After a comparison GT's condition is S alone: a dest below src is not equal to it (R231, D6). -/
theorem decide_lt_and_ne (a b : Word) :
    (decide (a.toNat < b.toNat) && !decide (a = b)) = decide (a.toNat < b.toNat) := by
  by_cases h : a.toNat < b.toNat
  · have hne : a ≠ b := fun e => h.ne (congrArg BitVec.toNat e)
    simp [hne]
  · simp [h]

/-- After a comparison LE's condition is not Z alone: a dest below src differs from it (R231, D6). -/
theorem decide_lt_or_ne (a b : Word) : (decide (a.toNat < b.toNat) || !decide (a = b)) = decide (a ≠ b) := by
  by_cases h : a = b <;> simp [h]

end Sys2Proof.Machine

/-! ## The statements of 46_jumps.md settled -/

namespace Sys2Proof.Proofs

open Sys2Proof.Machine Sys2Proof.Claims

/-- A jump writes its target to PC where its condition holds, and nothing elsewhere (R230). -/
theorem jumpsWhen_of_jumpOf {i : Instr} {c : JumpCond} {off : Int} (hj : jumpOf i = some (c, off)) (s : State) :
    JumpsWhen (c.holds s.z s.s) (exec i s) s off := by
  rw [exec_of_jumpOf hj]
  obtain ⟨t, ht⟩ := s.jumpIf_total c off
  obtain ⟨hc, rfl⟩ | ⟨hc, rfl⟩ := State.jumpIf_next ht
  · refine ⟨_, ht, rfl, onlyRegs_writeReg (onlyRegs_refl _ s) List.mem_cons_self _, fun _ => ?target, by simp [hc]⟩
    rw [State.latch_pc, State.pc_eq, State.writeReg_reg, if_pos rfl, jumpTarget_toNat]
  · exact ⟨_, ht, rfl, onlyRegs_refl _ s, by simp [hc], fun _ => rfl⟩

/-- Settles O43: each of the seven is a jump by its own condition. -/
theorem jumpsFollowConditions : Obligations.JumpsFollowConditions := fun s _ =>
  ⟨jumpsWhen_of_jumpOf (c := .always) rfl s, jumpsWhen_of_jumpOf (c := .eq) rfl s,
    jumpsWhen_of_jumpOf (c := .ne) rfl s, jumpsWhen_of_jumpOf (c := .gt) rfl s, jumpsWhen_of_jumpOf (c := .lt) rfl s,
    jumpsWhen_of_jumpOf (c := .ge) rfl s, jumpsWhen_of_jumpOf (c := .le) rfl s⟩

/-- Settles O47: the conditions read the two comparisons, and S set makes Z clear, so GT is S alone and LE is not Z. -/
theorem compareThenBranch : Obligations.CompareThenBranch := by
  intro s t rd rs off h
  obtain ⟨hz, hs⟩ := exec_cmp_flags h
  obtain ⟨-, heq, hne, hgt, hlt, hge, hle⟩ := jumpsFollowConditions t off
  rw [hz] at heq hne
  rw [hs] at hlt hge
  rw [hz, hs, decide_lt_and_ne] at hgt
  rw [hz, hs, decide_lt_or_ne] at hle
  simp only [← decide_not, Nat.not_lt] at hne hge
  exact ⟨heq, hne, hlt, hge, hgt, hle⟩

theorem onlyRegs_trans {rs : List Reg} {s t u : State} (hst : OnlyRegs rs s t) (htu : OnlyRegs rs t u) :
    OnlyRegs rs s u := by
  obtain ⟨hregs, hmem, hinq, hout, hpause⟩ := hst
  obtain ⟨hregs', hmem', hinq', hout', hpause'⟩ := htu
  exact ⟨fun r hr => (hregs' r hr).trans (hregs r hr), fun a => (hmem' a).trans (hmem a), hinq'.trans hinq,
    hout'.trans hout, hpause'.trans hpause⟩

/-- A register that ends as it began is none of those that changed. -/
theorem onlyRegs_of_reg_eq {r : Reg} {rs : List Reg} {s t : State} (h : OnlyRegs (r :: rs) s t)
    (hr : t.reg r = s.reg r) : OnlyRegs rs s t := by
  obtain ⟨hregs, hrest⟩ := h
  refine ⟨fun j hj => ?_, hrest⟩
  by_cases hjr : j = r
  · rw [hjr, hr]
  · exact hregs j (List.not_mem_cons_of_ne_of_not_mem hjr hj)

/-- Settles O44: JMP always jumps, its word packs the offset, and an offset of -2 takes back the pc advance. -/
theorem jmpIsRelative : Obligations.JmpIsRelative := by
  refine ⟨fun s off _ _ => ⟨jumpsWhen_of_jumpOf (c := .always) rfl s, Laws.packJ_toNat Mnemonic.jmp.opcode off⟩,
    fun s hf hw => ?toItself⟩
  case toItself =>
    have hdecode : decodeWord (s.mem.readWord s.pc.toNat) = .ok (.jmp (-2)) := by rw [hw]; rfl
    obtain ⟨t, ht, hready, hframe, htarget, -⟩ :=
      jumpsWhen_of_jumpOf (i := .jmp (-2)) (c := .always) rfl s.beginStep.advancePc
    have hpc : t.pc = s.pc := by
      have hback := htarget rfl
      rw [advancePc_pc_toNat hf] at hback
      exact BitVec.eq_of_toNat_eq (by omega)
    exact ⟨t, (step_of_fetches hf hdecode).trans ht, hready,
      onlyRegs_of_reg_eq (onlyRegs_trans (onlyRegs_advancePc s) hframe) hpc⟩

end Sys2Proof.Proofs

/-! ## Faults, the run controller and the host's writes (R251, R253, R262, R263) -/

namespace Sys2Proof.Machine

/-- A fault at execute is a failed check before any write, or POP's check past the move of SP (R251, R253). -/
theorem exec_fault_cases {i : Instr} {s t : State} {k : Fault} (h : exec i s = .next t)
    (hk : t.status = .terminalFailure k) :
    (AccessFails i s k ∧ (∀ rd, i ≠ .pop rd) ∧ t = s.latch (.terminalFailure k)) ∨
      ∃ rd, i = .pop rd ∧ checkWord (s.sp + 2) = some k ∧
        t = (s.writeReg spIndex (s.sp + 2)).latch (.terminalFailure k) := by
  cases exec_effect h with
  | accessFault k' hpop hf e =>
    subst e
    obtain rfl : k' = k := Status.terminalFailure.inj hk
    exact .inl ⟨hf, hpop, rfl⟩
  | popFault rd hi k' hc e =>
    subst e
    obtain rfl : k' = k := Status.terminalFailure.inj hk
    exact .inr ⟨rd, hi, hc, rfl⟩
  | jump _ _ _ _ _ _ e => obtain ⟨-, rfl⟩ | ⟨-, rfl⟩ := e <;> cases hk
  | halt _ e | brk _ e | cmp _ _ _ e | register _ _ _ _ _ _ _ e | result _ _ _ _ _ _ _ e => subst e; cases hk
  | push _ _ _ e | pop _ _ _ _ _ e | print _ _ _ e | readEmpty _ _ _ _ e => subst e; cases hk
  | readCode _ _ _ _ _ _ e | storeWord _ _ _ _ e | storeByte _ _ _ _ e => subst e; cases hk

/-! ### The rounds of a run (R262) -/

theorem runWith_of_enabled {s : State} (h : s.status.enabled = true) (sched : List (List HostWrite)) :
    runWith sched s = runLoop Config.stepLimit sched s := by
  simp only [runWith, Option.isNone_iff_eq_none.mp h]

/-- The pause test comes before the step, on the state past the host's writes (R258). -/
theorem runLoop_of_pause {sched : List (List HostWrite)} {s : State}
    (h : (applyWrites (sched.headD []) s).pause = true) (left : Nat) :
    runLoop (left + 1) sched s = .next ((applyWrites (sched.headD []) s).latch .paused) := by
  simp only [runLoop, if_pos h]
  exact (finish_eq_next _ _ _).mpr rfl

section
variable {sched : List (List HostWrite)} {s t : State} (hgap : sched.headD [] = []) (hpause : s.pause = false)
  (hstep : step s = .next t)
include hgap hpause hstep

/-- A round in which the host writes nothing and the pause flag is clear is its step (R262). -/
theorem runLoop_of_step (left : Nat) :
    runLoop (left + 1) sched s = if t.status = .ready then runLoop left sched.tail t else .next t := by
  simp only [runLoop, hgap, applyWrites, hpause, hstep, Bool.false_eq_true, if_false]

theorem runLoop_of_ready (hready : t.status = .ready) (left : Nat) :
    runLoop (left + 1) sched s = runLoop left sched.tail t := by
  rw [runLoop_of_step hgap hpause hstep, if_pos hready]

theorem runLoop_of_not_ready (hend : t.status ≠ .ready) (left : Nat) : runLoop (left + 1) sched s = .next t := by
  rw [runLoop_of_step hgap hpause hstep, if_neg hend]

end

/-- `n` steps that all return InProgress, with no host write before any of them, use up `n` rounds. -/
theorem runLoop_of_inProgressFor {f : Nat → State} {n : Nat} {sched : List (List HostWrite)}
    (h : Claims.InProgressFor n f) (hgap : ∀ k, k < n → (sched.drop k).headD [] = []) (left : Nat) :
    runLoop (n + left) sched (f 0) = runLoop left (sched.drop n) (f n) := by
  induction n generalizing left with
  | zero => rw [Nat.zero_add, List.drop_zero]
  | succ n ih =>
    obtain ⟨hpause, hstep, hready⟩ := h n n.lt_succ_self
    calc runLoop (n + 1 + left) sched (f 0)
      _ = runLoop (n + (left + 1)) sched (f 0) := by rw [Nat.add_right_comm, Nat.add_assoc]
      _ = runLoop (left + 1) (sched.drop n) (f n) :=
        ih (fun k hk => h k (Nat.lt_succ_of_lt hk)) (fun k hk => hgap k (Nat.lt_succ_of_lt hk)) (left + 1)
      _ = runLoop left (sched.drop n).tail (f (n + 1)) :=
        runLoop_of_ready (hgap n n.lt_succ_self) hpause hstep hready left
      _ = runLoop left (sched.drop (n + 1)) (f (n + 1)) := by rw [List.tail_drop]

/-- A run in which the host writes nothing comes to `f n` with the rounds left that `n` steps leave. -/
theorem run_of_inProgressFor {f : Nat → State} {n left : Nat} (hen : (f 0).status.enabled = true)
    (h : Claims.InProgressFor n f) (hn : Config.stepLimit = n + left) : run (f 0) = runLoop left [] (f n) := by
  rw [run, runWith_of_enabled hen, hn, runLoop_of_inProgressFor h (fun _ _ => by rw [List.drop_nil]; rfl), List.drop_nil]

theorem exists_rounds_left {n : Nat} (h : n < 10000) : ∃ left, Config.stepLimit = n + (left + 1) :=
  ⟨9999 - n, by rw [Config.stepLimit]; omega⟩

/-! ### The invariant at the host's interface (R263, R292) -/

/-- Load changes nothing, or the memory by canonical writes (R292). -/
theorem load_keepsInv (hex : String) {s : State} (hs : s.Inv) : (load hex s).2.Inv := by
  obtain ⟨hmem, hout⟩ := hs
  unfold load loadChars
  split
  · exact ⟨hmem, hout⟩
  · split
    · exact ⟨hmem, hout⟩
    · split
      · exact ⟨hmem, hout⟩
      · exact ⟨Memory.writeWords_wf _ _ hmem, hout⟩

theorem HostWrite.apply_keepsInv (w : HostWrite) {s : State} (hs : s.Inv) : (w.apply s).Inv := by
  cases w with
  | reset => exact Proofs.resetMeetsInvariant
  | load hex => exact load_keepsInv hex hs
  | setPause _ | appendInput _ => exact hs

theorem applyWrites_keepsInv (ws : List HostWrite) {s : State} (hs : s.Inv) : (applyWrites ws s).Inv := by
  induction ws generalizing s with
  | nil => exact hs
  | cons w rest ih => exact ih (w.apply_keepsInv hs)

/-- Every round of a run writes what the host writes, and then steps or stops. -/
theorem runLoop_keepsInv {n : Nat} {sched : List (List HostWrite)} {s t : State} (hs : s.Inv)
    (h : runLoop n sched s = .next t) : t.Inv := by
  induction n generalizing sched s with
  | zero =>
    obtain rfl := (finish_eq_next _ _ _).mp h
    exact hs
  | succ left ih =>
    have hgap := applyWrites_keepsInv (sched.headD []) hs
    simp only [runLoop] at h
    split at h
    · obtain rfl := (finish_eq_next _ _ _).mp h
      exact hgap
    · split at h
      · next u hstep =>
        have hu : u.Inv := Proofs.stepKeepsInvariant _ u hgap hstep
        split at h
        · exact ih hu h
        · cases h; exact hu
      · cases h
      · cases h

theorem runWith_keepsInv {sched : List (List HostWrite)} {s t : State} (hs : s.Inv)
    (h : runWith sched s = .next t) : t.Inv := by
  unfold runWith at h
  split at h
  · next o ho => exact absurd h (Status.stopped_ne_next _ _ ho t)
  · exact runLoop_keepsInv hs h

/-- The host finds the next state of a step or a run, or the state it asked from. -/
theorem hostStatus_keepsInv {o : StepOutcome} {s t : State} {r : HostReply} (hs : s.Inv)
    (ho : ∀ u, o = .next u → u.Inv) (h : hostStatus s o = (t, r)) : t.Inv := by
  cases o with
  | next u => cases h; exact ho t rfl
  | fault _ | refused _ => cases h; exact hs

/-! ### Re-entrancy (R265) -/

theorem HostOp.mutating_of_ne_readOutput {op : HostOp} (h : op ≠ .readOutput) : op.mutating = true := by
  cases op with
  | readOutput => exact absurd rfl h
  | write _ | step | run => rfl

/-- From a callback a mutating operation is refused before anything is done (R265, U1). -/
theorem hostApply_inCallback_of_mutating {op : HostOp} (h : op.mutating = true) (s : State) :
    hostApply true op s = .error .reentrantHost := by
  simp only [hostApply, h, Bool.and_self, if_true]

/-- Outside a callback every operation is done. -/
theorem hostApply_ok (op : HostOp) (s : State) : ∃ x, hostApply false op s = .ok x := by
  cases op with
  | write w => cases w <;> exact ⟨_, rfl⟩
  | step | run | readOutput => exact ⟨_, rfl⟩

/-- An operation that is done is the same inside a callback and outside. -/
theorem hostApply_outside_of_ok {b : Bool} {op : HostOp} {s : State} {x : State × HostReply}
    (h : hostApply b op s = .ok x) : hostApply false op s = .ok x := by
  cases b with
  | false => exact h
  | true =>
    cases op with
    | readOutput => exact h
    | write _ | step | run => cases h

end Sys2Proof.Machine

/-! ## The statements of 60_exceptions.md settled -/

namespace Sys2Proof.Proofs

open Sys2Proof.Machine Sys2Proof.Claims

theorem onlyRegs_mono {rs rs' : List Reg} {s t : State} (h : OnlyRegs rs s t) (hsub : rs ⊆ rs') : OnlyRegs rs' s t := by
  obtain ⟨hregs, hrest⟩ := h
  exact ⟨fun r hr => hregs r fun hmem => hr (hsub hmem), hrest⟩

/-- POP's move of SP past the pc advance changes those two registers only. -/
theorem onlyRegs_advancePc_moveSp (s : State) (v : Word) :
    OnlyRegs [pcIndex, spIndex] s (s.beginStep.advancePc.writeReg spIndex v) :=
  onlyRegs_writeReg (onlyRegs_mono (onlyRegs_advancePc s) (by simp)) (by simp) v

/-- Settles O14: the fetch faults before PC moves, the decoder and an access past it, and POP past the move of SP. -/
theorem faultsArePrecise : Obligations.FaultsArePrecise := by
  intro s t k h hk
  obtain ⟨-, ⟨k', hck, rfl⟩ | ⟨hck, ⟨e, he, rfl⟩ | ⟨i, hi, hx⟩⟩⟩ := step_cases h
  case inl =>
    have hlatch : OnlyRegs [] s (s.beginStep.latch (.terminalFailure k')) := onlyRegs_latch s.beginStep _
    have hfault : checkWord s.pc ≠ none := by rw [hck]; nofun
    obtain ⟨hregs, hmem, hdev⟩ := hlatch
    exact ⟨hmem, hdev, fun _ => hregs, fun _ _ => ⟨fun r _ => hregs r List.not_mem_nil, fun hok => absurd hok hfault⟩,
      fun _ r _ => hregs r List.not_mem_nil⟩
  case inr.inl =>
    rw [he]
    obtain ⟨hregs, hmem, hdev⟩ := onlyRegs_advancePc s
    exact ⟨hmem, hdev, fun hfault => absurd hck hfault, fun _ => nofun, fun _ => hregs⟩
  case inr.inr =>
    rw [hi]
    obtain ⟨-, hnopop, rfl⟩ | ⟨rd, rfl, -, rfl⟩ := exec_fault_cases hx hk
    · obtain ⟨hregs, hmem, hdev⟩ := onlyRegs_advancePc s
      exact ⟨hmem, hdev, fun hfault => absurd hck hfault, fun rd hpop => absurd (Except.ok.inj hpop) (hnopop rd),
        fun _ => hregs⟩
    · have hsp : s.beginStep.advancePc.sp = s.sp := by simp [State.sp_eq]
      rw [hsp]
      obtain ⟨hregs, hmem, hdev⟩ := onlyRegs_advancePc_moveSp s (s.sp + 2)
      exact ⟨hmem, hdev, fun hfault => absurd hck hfault, fun _ _ => ⟨hregs, fun _ => by simp [State.sp_eq]⟩,
        fun hno => absurd rfl (hno rd)⟩

/-- Settles O39: a fault at execute is a failed check of the table, or POP's. -/
theorem executeFaultsOnlyFromAccesses : Obligations.ExecuteFaultsOnlyFromAccesses := by
  intro i s t k h hk
  obtain ⟨hword | hbyte | hpush, -, -⟩ | ⟨rd, hi, hc, -⟩ := exec_fault_cases h hk
  · exact .inl hword
  · exact .inr (.inl hbyte)
  · exact .inr (.inr (.inl hpush))
  · exact .inr (.inr (.inr ⟨rd, hi, hc⟩))

/-- Settles O50: a write, a step and a run keep the invariant, and reading the output changes nothing. -/
theorem hostOperationsKeepInvariant : Obligations.HostOperationsKeepInvariant := by
  intro b op s t r hs h
  replace h := hostApply_outside_of_ok h
  cases op with
  | write w => rw [hostApply_write h]; exact w.apply_keepsInv hs
  | step => exact hostStatus_keepsInv hs (fun u hu => stepKeepsInvariant s u hs hu) (Except.ok.inj h)
  | run => exact hostStatus_keepsInv hs (fun _ hu => runWith_keepsInv hs hu) (Except.ok.inj h)
  | readOutput => cases h; exact hs

/-- Settles O53: each case is the round of the loop that comes after the steps that returned InProgress. -/
theorem runStepsToLimit : Obligations.RunStepsToLimit := by
  refine ⟨fun s hen hpause => ?paused, fun f n t hn hen hf hpause hstep hend => ?stops, fun f hen hf => ?limit⟩
  case paused =>
    rw [run, runWith_of_enabled hen]
    exact runLoop_of_pause (sched := []) hpause 9999
  case stops =>
    obtain ⟨left, hleft⟩ := exists_rounds_left hn
    rw [run_of_inProgressFor hen hf hleft, runLoop_of_not_ready rfl hpause hstep hend]
  case limit =>
    rw [run_of_inProgressFor hen hf (left := 0) rfl]
    exact (finish_eq_next _ _ _).mpr rfl

/-- Settles O56: the pause is set in the gap before round `n`, whose test comes before its step. -/
theorem hostWritesAreExact : Obligations.HostWritesAreExact := by
  intro s b cs
  refine ⟨⟨_, rfl, rfl, fun _ _ => rfl, fun _ => rfl, rfl, rfl, rfl, rfl⟩,
    ⟨_, rfl, rfl, fun _ _ => rfl, fun _ => rfl, rfl, rfl, rfl, rfl⟩, fun f n hs hn hen hf => ?_⟩
  subst hs
  obtain ⟨left, hleft⟩ := exists_rounds_left hn
  have hgap : ∀ k, k < n → ((List.replicate n [] ++ [[HostWrite.setPause true]]).drop k).headD [] = [] := by
    intro k hk
    rw [List.headD_eq_head?_getD, List.head?_drop, List.getElem?_append_left (by simpa using hk)]
    simp [hk]
  rw [runWith_of_enabled hen, hleft, runLoop_of_inProgressFor hf hgap, List.drop_left' List.length_replicate]
  exact runLoop_of_pause rfl left

/-- Settles O45: a jump writes PC or nothing, and MOVI its register. -/
theorem jumpAndMoviEvents : Obligations.JumpAndMoviEvents := by
  refine fun i s t h => ⟨fun c off hj => ?jump, fun rd imm hi => ?movi⟩
  case jump =>
    rw [exec_of_jumpOf hj] at h
    obtain ⟨hc, rfl⟩ | ⟨hc, rfl⟩ := State.jumpIf_next h <;> simp [hc]
  case movi =>
    subst hi
    obtain rfl := (complete_eq_next _ _).mp h
    rfl

/-- Settles O55: every operation but reading the output is a mutating one. -/
theorem reentrantHostIsRefused : Obligations.ReentrantHostIsRefused := by
  refine fun op s => ⟨fun h => hostApply_inCallback_of_mutating (HostOp.mutating_of_ne_readOutput h) s, rfl,
    fun e he => ?_⟩
  obtain ⟨x, hx⟩ := hostApply_ok op s
  rw [hx] at he
  cases he

end Sys2Proof.Proofs

/-! ## Load's checks and writes (R291, R292) -/

namespace Sys2Proof.Machine

open Sys2Proof.Claims

/-! ### The digits accepted (R291) -/

/-- Only ASCII characters are digits, so 128 characters decide what each stands for. -/
theorem toNat_lt_of_hexValue {c : Char} (h : hexValue c ≠ none) : c.toNat < 128 := by
  have le_toNat {d : Char} (hd : c ≤ d) : c.toNat ≤ d.toNat := hd
  by_cases h0 : '0' ≤ c ∧ c ≤ '9'
  · exact Nat.lt_of_le_of_lt (le_toNat h0.2) (by decide)
  by_cases ha : 'a' ≤ c ∧ c ≤ 'f'
  · exact Nat.lt_of_le_of_lt (le_toNat ha.2) (by decide)
  by_cases hA : 'A' ≤ c ∧ c ≤ 'F'
  · exact Nat.lt_of_le_of_lt (le_toNat hA.2) (by decide)
  · exact absurd (by rw [hexValue, if_neg h0, if_neg ha, if_neg hA]) h

theorem digitValue_of_hexValue {c : Char} {n : Nat} (h : hexValue c = some n) : DigitValue c n := by
  have table : ∀ k : Fin 128, ∀ n ∈ hexValue (Char.ofNat k), "0123456789abcdef".toList[n]? = some (Char.ofNat k) ∨
      "0123456789ABCDEF".toList[n]? = some (Char.ofNat k) := by decide
  have hlt : c.toNat < 128 := toNat_lt_of_hexValue (by rw [h]; exact Option.some_ne_none n)
  have hc := table ⟨c.toNat, hlt⟩ n
  rw [Char.ofNat_toNat] at hc
  exact hc h

theorem digitValue_lt {c : Char} {n : Nat} (h : DigitValue c n) : n < 16 := by
  obtain h | h := h <;> exact (List.getElem?_eq_some_iff.mp h).1

theorem hexValue_of_digitValue {c : Char} {n : Nat} (h : DigitValue c n) : hexValue c = some n := by
  have lower : ∀ k : Fin 16, ("0123456789abcdef".toList[k.val]?).bind hexValue = some k.val := by decide
  have upper : ∀ k : Fin 16, ("0123456789ABCDEF".toList[k.val]?).bind hexValue = some k.val := by decide
  have hlt := digitValue_lt h
  obtain h | h := h
  · exact (congrArg (Option.bind · hexValue) h).symm.trans (lower ⟨n, hlt⟩)
  · exact (congrArg (Option.bind · hexValue) h).symm.trans (upper ⟨n, hlt⟩)

/-- Load's digits are those of the spec, with the same values (R291). -/
theorem hexValue_eq_some {c : Char} {n : Nat} : hexValue c = some n ↔ DigitValue c n :=
  ⟨digitValue_of_hexValue, hexValue_of_digitValue⟩

theorem hexValue_eq_none {c : Char} : hexValue c = none ↔ ∀ n, ¬DigitValue c n := by
  simp only [Option.eq_none_iff_forall_ne_some, ne_eq, hexValue_eq_some]

theorem hexValue_ne_none {c : Char} : hexValue c ≠ none ↔ ∃ n, DigitValue c n := by
  rw [Option.ne_none_iff_exists']
  exact exists_congr fun _ => hexValue_eq_some

/-! ### The groups taken apart (R291, R292) -/

theorem hexGroups_eq_none {cs : List Char} (h : cs.length % 4 ≠ 0 ∨ ∃ c, c ∈ cs ∧ hexValue c = none) :
    hexGroups cs = none := by
  by_contra hsome
  obtain ⟨ws, hws⟩ := Option.ne_none_iff_exists'.mp hsome
  obtain ⟨hlen, hdigits⟩ := digits_of_hexGroups cs.length cs ws le_rfl hws
  obtain hmod | ⟨c, hc, hnone⟩ := h
  · omega
  · exact hdigits c hc hnone

theorem hexGroups_group_eq_some {a b c d : Char} {rest : List Char} {ws : List Word} :
    hexGroups (a :: b :: c :: d :: rest) = some ws ↔
      ∃ w ws', hexGroup a b c d = some w ∧ hexGroups rest = some ws' ∧ w :: ws' = ws := by
  rw [hexGroups]
  cases hexGroup a b c d <;> cases hexGroups rest <;> simp

/-- Word `i` is the value of characters `4 * i` to `4 * i + 3`. -/
theorem getElem?_of_hexGroups {cs : List Char} {ws : List Word} {i : Nat} {a b c d : Char} (h : hexGroups cs = some ws)
    (ha : cs[4 * i]? = some a) (hb : cs[4 * i + 1]? = some b) (hc : cs[4 * i + 2]? = some c)
    (hd : cs[4 * i + 3]? = some d) : ws[i]? = hexGroup a b c d := by
  obtain ⟨hlt, -⟩ := List.getElem?_eq_some_iff.mp hd
  induction i generalizing cs ws with
  | zero =>
    match cs, hlt with
    | a' :: b' :: c' :: d' :: rest, _ =>
      cases ha; cases hb; cases hc; cases hd
      obtain ⟨w, ws', hw, -, rfl⟩ := hexGroups_group_eq_some.mp h
      exact hw.symm
  | succ i ih =>
    match cs, hlt with
    | _ :: _ :: _ :: _ :: rest, hlt =>
      obtain ⟨w, ws', -, hws, rfl⟩ := hexGroups_group_eq_some.mp h
      exact ih hws ha hb hc hd (by simp only [List.length_cons] at hlt; omega)

/-- Four digits make the word of their value, most significant first (R292). -/
theorem hexGroup_of_digitValues {a b c d : Char} {na nb nc nd : Nat} (ha : DigitValue a na) (hb : DigitValue b nb)
    (hc : DigitValue c nc) (hd : DigitValue d nd) :
    ∃ w, hexGroup a b c d = some w ∧ w.toNat = na * 4096 + nb * 256 + nc * 16 + nd := by
  refine ⟨BitVec.ofNat 16 (((na * 16 + nb) * 16 + nc) * 16 + nd), ?_, ?_⟩
  · simp only [hexGroup, hexValue_eq_some.mpr ha, hexValue_eq_some.mpr hb, hexValue_eq_some.mpr hc,
      hexValue_eq_some.mpr hd]
  · have := digitValue_lt ha; have := digitValue_lt hb; have := digitValue_lt hc; have := digitValue_lt hd
    rw [BitVec.toNat_ofNat, Nat.mod_eq_of_lt (by omega)]
    omega

/-! ### Load's answers (R291) -/

theorem load_of_empty {hex : String} (h : hex.toList = []) (s : State) : load hex s = (.emptyCode, s) :=
  if_pos h

theorem load_of_malformed {hex : String} (hne : hex.toList ≠ []) (h : hexGroups hex.toList = none) (s : State) :
    load hex s = (.malformedCode, s) := by
  rw [load, loadChars, if_neg hne, h]

theorem load_of_tooLong {hex : String} {ws : List Word} (hne : hex.toList ≠ []) (h : hexGroups hex.toList = some ws)
    (hlen : 256 < ws.length) (s : State) : load hex s = (.codeTooLong, s) := by
  rw [load, loadChars, if_neg hne, h]
  exact if_pos hlen

theorem load_of_fits {hex : String} {ws : List Word} (hne : hex.toList ≠ []) (h : hexGroups hex.toList = some ws)
    (hlen : ws.length ≤ 256) (s : State) :
    load hex s = (.ok, { s with mem := s.mem.writeWords Config.codeBase ws }) := by
  rw [load, loadChars, if_neg hne, h]
  exact if_neg (Nat.not_lt.mpr hlen)

end Sys2Proof.Machine

namespace Sys2Proof.Proofs

open Sys2Proof.Machine Sys2Proof.Claims

/-- Settles O57: the four cases are load's answers on the words taken apart, and its writes are those words. -/
theorem loadChecksThenWrites : Obligations.LoadChecksThenWrites := by
  intro s hex hs
  have groups (hmod : hex.toList.length % 4 = 0) (hdigits : ∀ c, c ∈ hex.toList → ∃ n, DigitValue c n) :
      ∃ ws, hexGroups hex.toList = some ws ∧ ws.length = hex.toList.length / 4 :=
    hexGroups_of_digits _ _ (by omega) fun c hc => hexValue_ne_none.mpr (hdigits c hc)
  refine ⟨fun hempty => load_of_empty hempty s, fun hne hbad => ?malformed, fun hmod hdigits hlong => ?tooLong,
    fun hne hmod hdigits hfits => ?ok⟩
  case malformed =>
    exact load_of_malformed hne
      (hexGroups_eq_none (hbad.imp_right fun ⟨c, hc, hno⟩ => ⟨c, hc, hexValue_eq_none.mpr hno⟩)) s
  case tooLong =>
    obtain ⟨ws, hws, hcount⟩ := groups hmod hdigits
    exact load_of_tooLong (List.ne_nil_of_length_pos (by omega)) hws (by omega) s
  case ok =>
    obtain ⟨ws, hws, hcount⟩ := groups hmod hdigits
    have hspace : 128 + 2 * ws.length ≤ 1024 := by omega
    refine ⟨_, load_of_fits hne hws (by omega) s, fun i a b c d na nb nc nd ha hb hc hd hna hnb hnc hnd => ?value,
      fun a ha => ?frame, rfl⟩
    case value =>
      obtain ⟨w, hw, hval⟩ := hexGroup_of_digitValues hna hnb hnc hnd
      rw [← hval]
      exact congrArg _ (Memory.readWord_writeWords ws 128 i w hs hspace
        ((getElem?_of_hexGroups hws ha hb hc hd).trans hw))
    case frame => exact Memory.read_writeWords ws 128 a hs hspace (by omega)

end Sys2Proof.Proofs
